-- ==== Sys2Proof/Word.lean ====
section
/-! DEFINITION. The words of the block: bytes, 32-bit command and response words, 9-bit arena indices (00_scope.md R6, R8). -/

namespace Sys2Proof

/-- One byte: a symbol, a byte of IN, OUT or HDR (R6: NSYM = 256). -/
abbrev Byte := BitVec 8

/-- A command word, a counter, or the data of a response (R6: CMD_W = FREQ_W = 32). -/
abbrev Word := BitVec 32

/-- An index into the node arena, or NIL (R23, R24). -/
abbrev NodeIx := BitVec 9

/-- A bit string, first bit first (R9). -/
abbrev Bits := List Bool

end Sys2Proof
end

