-- ==== Sys2Proof/Config.lean ====
section
/-! DEFINITION. The parameters of 00_scope.md R6, at the values this hardware has. -/

namespace Sys2Proof

/-- NSYM (R6). -/
def Config.nsym : Nat := 256

/-- TERM_BYTE (R6, decision D3). -/
def Config.termByte : Byte := 0x03#8

/-- SEP_BYTE (R6). -/
def Config.sepByte : Byte := 0x1E#8

/-- CH0, the header's code character for a zero bit (R6). -/
def Config.ch0 : Byte := 0x30#8

/-- CH1, the header's code character for a one bit (R6). -/
def Config.ch1 : Byte := 0x31#8

/-- NODE_MAX (R6, D25): the arena's entries. -/
def Config.nodeMax : Nat := 511

/-- NIL (R6, D25): no child, no node. -/
def Config.nil : NodeIx := 511#9

/-- MAX_CODE_LEN (R6, D25). -/
def Config.maxCodeLen : Nat := 255

/-- HDR_MAX (R6, D25): the header buffer's bytes. -/
def Config.hdrMax : Nat := 65535

end Sys2Proof
end

