-- ==== Sys2Proof/Syntax.lean ====
section
/-! DEFINITION. The commands: one constructor per row of spec/opcode_table.json (30_encoding.md R75), operands as R74 names them. -/

namespace Sys2Proof

/-- The 28 commands of the opcode map (R75). -/
inductive Instr where
  /-- SRESET (R210). -/
  | sreset
  /-- RD_STAT (R211). -/
  | rdStat
  /-- RD_ERRCMD (R212). -/
  | rdErrCmd
  /-- RD_INPOS (R213). -/
  | rdInPos
  /-- FRQ_CLR (R100). -/
  | frqClr
  /-- FRQ_ADD sym (R101). -/
  | frqAdd (sym : Byte)
  /-- RD_FREQ sym (R102). -/
  | rdFreq (sym : Byte)
  /-- TB_BUILD (R112). -/
  | tbBuild
  /-- RD_ROOT (R113). -/
  | rdRoot
  /-- RD_NODE idx (R114). -/
  | rdNode (idx : NodeIx)
  /-- RD_NWT idx, h (R115); h is false for bits [31:0], true for bits [63:32]. -/
  | rdNwt (h : Bool) (idx : NodeIx)
  /-- CG_GEN (R131). -/
  | cgGen
  /-- RD_CLEN sym (R132). -/
  | rdCLen (sym : Byte)
  /-- RD_CODEW sym, w (R133). -/
  | rdCodeW (w : BitVec 3) (sym : Byte)
  /-- HC_SER (R151). -/
  | hcSer
  /-- HC_LOAD (R157). -/
  | hcLoad
  /-- RD_HDRLEN (R158). -/
  | rdHdrLen
  /-- RD_HDRB idx (R159). -/
  | rdHdrB (idx : BitVec 16)
  /-- BP_OPEN (R173). -/
  | bpOpen
  /-- BP_HDR (R174). -/
  | bpHdr
  /-- BP_INS n, v (R175). -/
  | bpIns (n : BitVec 5) (v : BitVec 16)
  /-- ENC_SYM sym (R176). -/
  | encSym (sym : Byte)
  /-- ENC_TERM (R177). -/
  | encTerm
  /-- BP_CLOSE (R178). -/
  | bpClose
  /-- BR_EXT (R191). -/
  | brExt
  /-- DW_BIT b (R193). -/
  | dwBit (b : Bool)
  /-- DEC_BYTE (R194). -/
  | decByte
  /-- DEC_END (R195). -/
  | decEnd
  deriving DecidableEq, Repr

end Sys2Proof
end

