-- ==== Sys2Proof/WellFormed.lean ====
section
/-! DEFINITION. Which command terms a legal word stands for: only BP_INS has conditions beyond its fields' widths (30_encoding.md R78). -/

namespace Sys2Proof

/-- The first condition of R78: 1 ≤ n ≤ 16. -/
def bpInsCountOk (n : BitVec 5) : Bool := 1 ≤ n.toNat && n.toNat ≤ 16

/-- The second condition of R78: v < 2^n. -/
def bpInsValueOk (n : BitVec 5) (v : BitVec 16) : Bool := v.toNat < 2 ^ n.toNat

/-- A command term that some legal word encodes (R78, R79). -/
def Instr.wellFormed : Instr → Bool
  | .bpIns n v => bpInsCountOk n && bpInsValueOk n v
  | .sreset | .rdStat | .rdErrCmd | .rdInPos | .frqClr | .frqAdd _ | .rdFreq _ | .tbBuild | .rdRoot
  | .rdNode _ | .rdNwt _ _ | .cgGen | .rdCLen _ | .rdCodeW _ _ | .hcSer | .hcLoad | .rdHdrLen
  | .rdHdrB _ | .bpOpen | .bpHdr | .encSym _ | .encTerm | .bpClose | .brExt | .dwBit _ | .decByte
  | .decEnd => true

end Sys2Proof
end

