-- ==== Sys2Proof/Decode.lean ====
section
/-! DEFINITION. Command words: the eight formats, the opcode map, the decoder and the encoder (30_encoding.md R70 to R80, opcode_table.json). -/

namespace Sys2Proof

/-- The eight formats of R71. -/
inductive Format where
  | N | S | SW | I9 | I9H | I16 | B | W
  deriving DecidableEq, Repr

/-- The reserved bits of a format, which must be zero (R71, R77). -/
def Format.reserved : Format → Word
  | .N => 0x00FFFFFF#32
  | .S => 0x00FFFF00#32
  | .SW => 0x00FFF800#32
  | .I9 => 0x00FFFE00#32
  | .I9H => 0x00FFFC00#32
  | .I16 => 0x00FF0000#32
  | .B => 0x00E00000#32
  | .W => 0x00FFFFFE#32

/-- mask(op) of R79: ones at the opcode bits and at every reserved bit. -/
def Format.mask (f : Format) : Word := 0xFF000000#32 ||| f.reserved

/-- One row of the opcode map (R75). -/
structure Row where
  mnemonic : String
  opcode : Byte
  format : Format
  deriving DecidableEq, Repr

/-- match(op) of R79: op << 24. -/
def Row.pattern (r : Row) : Word := r.opcode.setWidth 32 <<< 24

/-- The opcode map, in the order of R75. -/
def rows : List Row :=
  [⟨"SRESET", 0x01#8, .N⟩, ⟨"RD_STAT", 0x02#8, .N⟩, ⟨"RD_ERRCMD", 0x03#8, .N⟩, ⟨"RD_INPOS", 0x04#8, .N⟩] ++
  [⟨"FRQ_CLR", 0x10#8, .N⟩, ⟨"FRQ_ADD", 0x11#8, .S⟩, ⟨"RD_FREQ", 0x12#8, .S⟩] ++
  [⟨"TB_BUILD", 0x20#8, .N⟩, ⟨"RD_ROOT", 0x21#8, .N⟩, ⟨"RD_NODE", 0x22#8, .I9⟩, ⟨"RD_NWT", 0x23#8, .I9H⟩] ++
  [⟨"CG_GEN", 0x30#8, .N⟩, ⟨"RD_CLEN", 0x31#8, .S⟩, ⟨"RD_CODEW", 0x32#8, .SW⟩] ++
  [⟨"HC_SER", 0x40#8, .N⟩, ⟨"HC_LOAD", 0x41#8, .N⟩, ⟨"RD_HDRLEN", 0x42#8, .N⟩, ⟨"RD_HDRB", 0x43#8, .I16⟩] ++
  [⟨"BP_OPEN", 0x50#8, .N⟩, ⟨"BP_HDR", 0x51#8, .N⟩, ⟨"BP_INS", 0x52#8, .B⟩, ⟨"ENC_SYM", 0x53#8, .S⟩] ++
  [⟨"ENC_TERM", 0x54#8, .N⟩, ⟨"BP_CLOSE", 0x55#8, .N⟩, ⟨"BR_EXT", 0x60#8, .N⟩, ⟨"DW_BIT", 0x61#8, .W⟩] ++
  [⟨"DEC_BYTE", 0x62#8, .N⟩, ⟨"DEC_END", 0x63#8, .N⟩]

/-- A word matches a row: the mask test of R79. -/
def Row.test (r : Row) (w : Word) : Bool := w &&& r.format.mask == r.pattern

/-- Why a word is illegal. All of them raise ERR_ILLEGAL (R72). -/
inductive DecodeError where
  /-- The opcode is not in the map (R76). -/
  | unknownOpcode
  /-- A reserved bit is not zero (R77). -/
  | reservedBits
  /-- BP_INS with n = 0 or n > 16 (R78). -/
  | bpInsCount
  /-- BP_INS with a one in v[15:n] (R78). -/
  | bpInsValue
  deriving DecidableEq, Repr

/-- The opcode field w[31:24] (R70). -/
def opcodeOf (w : Word) : Byte := w.extractLsb' 24 8

/-- The field sym = w[7:0] of formats S and SW (R71). -/
def symOf (w : Word) : Byte := w.extractLsb' 0 8

/-- The field w = w[10:8] of format SW (R71). -/
def codeWordOf (w : Word) : BitVec 3 := w.extractLsb' 8 3

/-- The field idx = w[8:0] of formats I9 and I9H (R71). -/
def idx9Of (w : Word) : NodeIx := w.extractLsb' 0 9

/-- The field h = w[9] of format I9H (R71). -/
def halfOf (w : Word) : Bool := w.getLsbD 9

/-- The field idx = w[15:0] of format I16 (R71). -/
def idx16Of (w : Word) : BitVec 16 := w.extractLsb' 0 16

/-- The field n = w[20:16] of format B (R71). -/
def countOf (w : Word) : BitVec 5 := w.extractLsb' 16 5

/-- The field v = w[15:0] of format B (R71). -/
def valueOf (w : Word) : BitVec 16 := w.extractLsb' 0 16

/-- The field b = w[0] of format W (R71). -/
def bitOf (w : Word) : Bool := w.getLsbD 0

/-- The instruction of a word whose reserved bits must be zero (R77). -/
def checked (f : Format) (w : Word) (i : Instr) : Except DecodeError Instr :=
  if w &&& f.reserved = 0#32 then .ok i else .error .reservedBits

/-- BP_INS, with the conditions of R78 after the reserved bits. -/
def checkedBpIns (w : Word) : Except DecodeError Instr :=
  if w &&& Format.B.reserved ≠ 0#32 then .error .reservedBits
  else if !bpInsCountOk (countOf w) then .error .bpInsCount
  else if !bpInsValueOk (countOf w) (valueOf w) then .error .bpInsValue
  else .ok (.bpIns (countOf w) (valueOf w))

/-- The decoder: total on every word, refusing by name (R75 to R79). -/
def decode (w : Word) : Except DecodeError Instr :=
  match opcodeOf w with
  | 0x01#8 => checked .N w .sreset
  | 0x02#8 => checked .N w .rdStat
  | 0x03#8 => checked .N w .rdErrCmd
  | 0x04#8 => checked .N w .rdInPos
  | 0x10#8 => checked .N w .frqClr
  | 0x11#8 => checked .S w (.frqAdd (symOf w))
  | 0x12#8 => checked .S w (.rdFreq (symOf w))
  | 0x20#8 => checked .N w .tbBuild
  | 0x21#8 => checked .N w .rdRoot
  | 0x22#8 => checked .I9 w (.rdNode (idx9Of w))
  | 0x23#8 => checked .I9H w (.rdNwt (halfOf w) (idx9Of w))
  | 0x30#8 => checked .N w .cgGen
  | 0x31#8 => checked .S w (.rdCLen (symOf w))
  | 0x32#8 => checked .SW w (.rdCodeW (codeWordOf w) (symOf w))
  | 0x40#8 => checked .N w .hcSer
  | 0x41#8 => checked .N w .hcLoad
  | 0x42#8 => checked .N w .rdHdrLen
  | 0x43#8 => checked .I16 w (.rdHdrB (idx16Of w))
  | 0x50#8 => checked .N w .bpOpen
  | 0x51#8 => checked .N w .bpHdr
  | 0x52#8 => checkedBpIns w
  | 0x53#8 => checked .S w (.encSym (symOf w))
  | 0x54#8 => checked .N w .encTerm
  | 0x55#8 => checked .N w .bpClose
  | 0x60#8 => checked .N w .brExt
  | 0x61#8 => checked .W w (.dwBit (bitOf w))
  | 0x62#8 => checked .N w .decByte
  | 0x63#8 => checked .N w .decEnd
  | _ => .error .unknownOpcode

/-- Format N (R80): the opcode alone. -/
def encN (op : Byte) : Word := op.setWidth 32 <<< 24

/-- Format S (R80): op<<24 | sym. -/
def encS (op : Byte) (sym : Byte) : Word := (op.setWidth 32 <<< 24) ||| sym.setWidth 32

/-- Format SW (R80): op<<24 | w<<8 | sym. -/
def encSW (op : Byte) (w : BitVec 3) (sym : Byte) : Word := (op.setWidth 32 <<< 24) ||| (w.setWidth 32 <<< 8) ||| sym.setWidth 32

/-- Format I9 (R80): op<<24 | idx. -/
def encI9 (op : Byte) (idx : NodeIx) : Word := (op.setWidth 32 <<< 24) ||| idx.setWidth 32

/-- Format I9H (R80): op<<24 | h<<9 | idx. -/
def encI9H (op : Byte) (h : Bool) (idx : NodeIx) : Word := (op.setWidth 32 <<< 24) ||| ((BitVec.ofBool h).setWidth 32 <<< 9) ||| idx.setWidth 32

/-- Format I16 (R80): op<<24 | idx. -/
def encI16 (op : Byte) (idx : BitVec 16) : Word := (op.setWidth 32 <<< 24) ||| idx.setWidth 32

/-- Format B (R80): op<<24 | n<<16 | v. -/
def encB (op : Byte) (n : BitVec 5) (v : BitVec 16) : Word := (op.setWidth 32 <<< 24) ||| (n.setWidth 32 <<< 16) ||| v.setWidth 32

/-- Format W (R80): op<<24 | b. -/
def encW (op : Byte) (b : Bool) : Word := (op.setWidth 32 <<< 24) ||| (BitVec.ofBool b).setWidth 32

/-- The command word of an instruction (R75, R80). -/
def encode : Instr → Word
  | .sreset => encN 0x01#8
  | .rdStat => encN 0x02#8
  | .rdErrCmd => encN 0x03#8
  | .rdInPos => encN 0x04#8
  | .frqClr => encN 0x10#8
  | .frqAdd sym => encS 0x11#8 sym
  | .rdFreq sym => encS 0x12#8 sym
  | .tbBuild => encN 0x20#8
  | .rdRoot => encN 0x21#8
  | .rdNode idx => encI9 0x22#8 idx
  | .rdNwt h idx => encI9H 0x23#8 h idx
  | .cgGen => encN 0x30#8
  | .rdCLen sym => encS 0x31#8 sym
  | .rdCodeW w sym => encSW 0x32#8 w sym
  | .hcSer => encN 0x40#8
  | .hcLoad => encN 0x41#8
  | .rdHdrLen => encN 0x42#8
  | .rdHdrB idx => encI16 0x43#8 idx
  | .bpOpen => encN 0x50#8
  | .bpHdr => encN 0x51#8
  | .bpIns n v => encB 0x52#8 n v
  | .encSym sym => encS 0x53#8 sym
  | .encTerm => encN 0x54#8
  | .bpClose => encN 0x55#8
  | .brExt => encN 0x60#8
  | .dwBit b => encW 0x61#8 b
  | .decByte => encN 0x62#8
  | .decEnd => encN 0x63#8

/-- The row of the opcode map that an instruction stands for (R75). -/
def rowOf : Instr → Row
  | .sreset => ⟨"SRESET", 0x01#8, .N⟩
  | .rdStat => ⟨"RD_STAT", 0x02#8, .N⟩
  | .rdErrCmd => ⟨"RD_ERRCMD", 0x03#8, .N⟩
  | .rdInPos => ⟨"RD_INPOS", 0x04#8, .N⟩
  | .frqClr => ⟨"FRQ_CLR", 0x10#8, .N⟩
  | .frqAdd _ => ⟨"FRQ_ADD", 0x11#8, .S⟩
  | .rdFreq _ => ⟨"RD_FREQ", 0x12#8, .S⟩
  | .tbBuild => ⟨"TB_BUILD", 0x20#8, .N⟩
  | .rdRoot => ⟨"RD_ROOT", 0x21#8, .N⟩
  | .rdNode _ => ⟨"RD_NODE", 0x22#8, .I9⟩
  | .rdNwt _ _ => ⟨"RD_NWT", 0x23#8, .I9H⟩
  | .cgGen => ⟨"CG_GEN", 0x30#8, .N⟩
  | .rdCLen _ => ⟨"RD_CLEN", 0x31#8, .S⟩
  | .rdCodeW _ _ => ⟨"RD_CODEW", 0x32#8, .SW⟩
  | .hcSer => ⟨"HC_SER", 0x40#8, .N⟩
  | .hcLoad => ⟨"HC_LOAD", 0x41#8, .N⟩
  | .rdHdrLen => ⟨"RD_HDRLEN", 0x42#8, .N⟩
  | .rdHdrB _ => ⟨"RD_HDRB", 0x43#8, .I16⟩
  | .bpOpen => ⟨"BP_OPEN", 0x50#8, .N⟩
  | .bpHdr => ⟨"BP_HDR", 0x51#8, .N⟩
  | .bpIns _ _ => ⟨"BP_INS", 0x52#8, .B⟩
  | .encSym _ => ⟨"ENC_SYM", 0x53#8, .S⟩
  | .encTerm => ⟨"ENC_TERM", 0x54#8, .N⟩
  | .bpClose => ⟨"BP_CLOSE", 0x55#8, .N⟩
  | .brExt => ⟨"BR_EXT", 0x60#8, .N⟩
  | .dwBit _ => ⟨"DW_BIT", 0x61#8, .W⟩
  | .decByte => ⟨"DEC_BYTE", 0x62#8, .N⟩
  | .decEnd => ⟨"DEC_END", 0x63#8, .N⟩

/-- The instruction the decoder reads from a word given as a number whose bits above nbits are zero; none where it refuses. -/
def decodeTableWord (nbits w : Nat) : Option Instr :=
  match decode (BitVec.ofNat 32 (w % 2 ^ nbits)) with
  | .ok i => some i
  | .error _ => none

end Sys2Proof
end

