-- ==== Sys2Proof/Machine/State.lean ====
section
/-! DEFINITION. The state of the block as plain data, its reset value, and the reasons a step can stop (10_state.md, 70_reset_and_hazards.md R270). -/

namespace Sys2Proof.Machine

/-- A table held sparsely in one canonical form: indices strictly rising, no entry equal to the table's
reset value, which is what an unlisted index reads as (log 12). -/
abbrev Table (α : Type) := List (Nat × α)

/-- The byte memory HDR in the same form: unlisted bytes read 0x00 (R28). -/
abbrev Memory := List Host.Cell

/-- The kind of a node record (R23). -/
inductive NodeKind where
  | empty | leaf | internal | placeholder
  deriving DecidableEq, Repr

/-- A node record (R23). -/
structure Node where
  kind : NodeKind
  sym : Byte
  zero : NodeIx
  one : NodeIx
  weight : BitVec 64
  deriving DecidableEq, Repr

/-- An EMPTY record: the reset value of every record (R23). -/
def Node.blank : Node := ⟨.empty, 0#8, Config.nil, Config.nil, 0#64⟩

/-- BP_STATE (R29); the value 3 is never held. -/
inductive BpState where
  | idle | opened | hdrDone
  deriving DecidableEq, Repr

/-- WSTATE (R30); the value 3 is never held. -/
inductive WState where
  | atRoot | atInternal | terminated
  deriving DecidableEq, Repr

/-- An answer of the IoOracle (R53). -/
inductive IoAnswer where
  | ok | fail
  deriving DecidableEq, Repr

/-- The IoOracle (R53) as plain data: the positions whose reads fail and the output lengths at which a
write fails. Every transfer not listed answers Ok (log 1). -/
structure IoOracle where
  readFails : List Nat
  writeFails : List Nat
  deriving DecidableEq, Repr

/-- What the host may do between two commands (R55, R271). -/
inductive HostAct where
  /-- Present a command word. -/
  | command (w : Word)
  /-- Bind a new input source. -/
  | bindIn (bytes : List Byte)
  /-- Bind a new output sink, with the bytes it already holds. -/
  | bindOut (bytes : List Byte)
  /-- Assert the reset input. -/
  | reset
  deriving DecidableEq, Repr

/-- The error codes of R240. Raising one is a next state, never a stop. -/
inductive ErrCode where
  | illegal | seq | range | io | hdrTrunc | hdrMalformed | hdrTree | streamTrunc | streamBadPath
  | degenerate | termInInput | noCode | freqOvf
  deriving DecidableEq, Repr

/-- Why the model stops. No run of a host that keeps its duties (R55) reaches any of them; each is safe:
the model stops where the spec says nothing. -/
inductive Fault where
  /-- Raised by InRead (HC_LOAD, BR_EXT, DEC_BYTE) when IN_POS is past the end of IN, which only a host that
  rebinds IN without SRESET can cause (R55; log 4). Safe. -/
  | inPosPastEnd
  /-- Raised by InRead when IN_POS is 2^64 - 1 and would not fit its register (R8, R31; log 5). Safe. -/
  | inPosOverflow
  /-- Raised by the host's bindOut while a session is open, which R55 forbids the host (log 7). Safe. -/
  | outReboundInSession
  /-- Raised by CG_GEN, DW_BIT, DEC_BYTE when NODE[NIL] would be read: ROOT or WCUR is NIL although the
  tree is valid, which R25 and R30 exclude (log 8). Safe. -/
  | nodeIsNil
  /-- Raised by CG_GEN when a path is longer than 255, so the arena holds no tree of R25 (R130; log 9). Safe. -/
  | codePathTooLong
  /-- Raised by HC_SER when the serialized header is longer than HDR_MAX, which R152 excludes (log 10). Safe. -/
  | hdrOverflow
  deriving DecidableEq, Repr

/-- Instructions without a meaning. -/
inductive Refusal where
  /-- Raised by exec's arm of an instruction that is not modelled yet. Safe. No arm raises it. -/
  | notModelled (mnemonic : String)
  deriving DecidableEq, Repr

/-- The block's state (R22 to R33), the streams the host binds (R37), and the model's own `oracle` and `port`. -/
structure State where
  /-- FREQ (R22). -/
  freq : Table Word
  /-- NODE (R23). -/
  node : Table Node
  /-- NODE_CNT (R24). -/
  nodeCnt : BitVec 10
  /-- ROOT (R24). -/
  root : NodeIx
  /-- TREE_VALID (R25). -/
  treeValid : Bool
  /-- CODE_LEN (R26). -/
  codeLen : Table Byte
  /-- CODE_BITS (R26). -/
  codeBits : Table Bits
  /-- CODE_VALID (R27). -/
  codeValid : Bool
  /-- HDR (R28). -/
  hdr : Memory
  /-- HDR_LEN (R28). -/
  hdrLen : BitVec 16
  /-- HDR_VALID (R28). -/
  hdrValid : Bool
  /-- BP_STATE (R29). -/
  bpState : BpState
  /-- BB_N (R29). -/
  bbN : BitVec 3
  /-- BB (R29). -/
  bb : Bits
  /-- WSTATE (R30). -/
  wState : WState
  /-- WCUR (R30). -/
  wCur : NodeIx
  /-- IN_POS (R31). -/
  inPos : BitVec 64
  /-- ERR (R32). -/
  err : Byte
  /-- ERR_CMD (R32). -/
  errCmd : Word
  /-- RSP_CODE (R33). -/
  rspCode : Byte
  /-- RSP_DATA (R33). -/
  rspData : Word
  /-- IN, the bound input source (R37, R51). -/
  inp : List Byte
  /-- OUT, the bound output sink (R37, R52). -/
  out : List Byte
  /-- The IoOracle, a parameter that no step changes (R53; log 1). -/
  oracle : IoOracle
  /-- The host's pending acts, first act first (R55, R60; log 2). -/
  port : List HostAct
  deriving DecidableEq, Repr

/-- The state right after reset (R270), with nothing bound and no command presented (logs 1, 2, 3). -/
def State.reset : State where
  freq := [(3, 1#32)]
  node := []
  nodeCnt := 0#10
  root := Config.nil
  treeValid := false
  codeLen := []
  codeBits := []
  codeValid := false
  hdr := []
  hdrLen := 0#16
  hdrValid := false
  bpState := .idle
  bbN := 0#3
  bb := []
  wState := .atRoot
  wCur := Config.nil
  inPos := 0#64
  err := 0#8
  errCmd := 0#32
  rspCode := 0#8
  rspData := 0#32
  inp := []
  out := []
  oracle := ⟨[], []⟩
  port := []

end Sys2Proof.Machine
end

