-- ==== Sys2Proof/Machine/Ops.lean ====
section
/-! DEFINITION. The shared operations: tables, accessors of every register file, the stream primitives (20_memory.md R51 to R54),
responding, raising an error (60_exceptions.md R241), the FAULT gate (30_encoding.md R72) and reset (46_control.md R210). -/

namespace Sys2Proof.Machine

/-! ### Tables -/

/-- Entry i, or the table's reset value where i is not listed. -/
def Table.get {α : Type} (dflt : α) : Table α → Nat → α
  | [], _ => dflt
  | (k, v) :: t, i => if k = i then v else Table.get dflt t i

/-- Put an entry at its place among rising indices. -/
def Table.insert {α : Type} (i : Nat) (v : α) : Table α → Table α
  | [] => [(i, v)]
  | (k, u) :: t => if i < k then (i, v) :: (k, u) :: t else (k, u) :: Table.insert i v t

/-- Drop entry i. -/
def Table.erase {α : Type} (t : Table α) (i : Nat) : Table α := t.filter (fun e => e.1 != i)

/-- T[i] <- v (R10): writing the reset value removes the entry, so that equal tables are equal data. -/
def Table.set {α : Type} [DecidableEq α] (dflt : α) (t : Table α) (i : Nat) (v : α) : Table α :=
  if v = dflt then Table.erase t i else Table.insert i v (Table.erase t i)

/-- The canonical form: indices strictly rising. -/
def Table.rising {α : Type} : Table α → Bool
  | [] => true
  | [_] => true
  | e :: f :: t => decide (e.1 < f.1) && Table.rising (f :: t)

/-- The canonical form of a table of `size` entries: rising indices below the size, none at the reset value. -/
def Table.wf {α : Type} [DecidableEq α] (size : Nat) (dflt : α) (t : Table α) : Bool :=
  Table.rising t && t.all (fun e => decide (e.1 < size) && decide (e.2 ≠ dflt))

/-- The canonical form of HDR (R28). -/
def Memory.wf (m : Memory) : Bool := Table.wf Config.hdrMax (0#8 : Byte) m

/-! ### Accessors -/

/-- FREQ[s] (R22). -/
def State.freqAt (s : State) (sym : Byte) : Word := Table.get 0#32 s.freq sym.toNat

/-- FREQ[s] <- v (R22). -/
def State.setFreq (s : State) (sym : Byte) (v : Word) : State :=
  { s with freq := Table.set 0#32 s.freq sym.toNat v }

/-- The FREQ table after reset and after FRQ_CLR: all zero but the terminator's count of 1 (R22, R100). -/
def freqCleared : Table Word := Table.set 0#32 [] Config.termByte.toNat 1#32

/-- NODE[i] of an arena (R23). -/
def arenaAt (t : Table Node) (i : NodeIx) : Node := Table.get Node.blank t i.toNat

/-- NODE[i] <- r (R23). -/
def arenaSet (t : Table Node) (i : NodeIx) (r : Node) : Table Node := Table.set Node.blank t i.toNat r

/-- NODE[i], i ≠ NIL (R23). -/
def State.nodeAt (s : State) (i : NodeIx) : Node := arenaAt s.node i

/-- CODE_LEN[s] (R26). -/
def State.codeLenAt (s : State) (sym : Byte) : Byte := Table.get 0#8 s.codeLen sym.toNat

/-- CODE_BITS[s] (R26). -/
def State.codeBitsAt (s : State) (sym : Byte) : Bits := Table.get [] s.codeBits sym.toNat

/-- The two tables of the code table (R26), while a command builds them. -/
structure CodeTable where
  len : Table Byte
  bits : Table Bits
  deriving DecidableEq, Repr

/-- The code table with no codes (R26). -/
def CodeTable.clear : CodeTable := ⟨[], []⟩

/-- CODE_LEN[sym] <- |c|; CODE_BITS[sym] <- c (R130, R157). -/
def CodeTable.put (t : CodeTable) (sym : Byte) (c : Bits) : CodeTable :=
  ⟨Table.set 0#8 t.len sym.toNat (BitVec.ofNat 8 c.length), Table.set [] t.bits sym.toNat c⟩

/-- HDR[i] (R28). -/
def State.hdrAt (s : State) (i : Nat) : Byte := Table.get 0#8 s.hdr i

/-- HDR[i], HDR[i+1], … <- the bytes (R151). -/
def storeBytes : Memory → Nat → List Byte → Memory
  | m, _, [] => m
  | m, i, b :: bs => storeBytes (Table.set 0#8 m i b) (i + 1) bs

/-- HDR[0..n-1] (R28). -/
def State.hdrBytes (s : State) (n : Nat) : List Byte := (List.range n).map s.hdrAt

/-! ### Results of a command's rule -/

/-- How a piece of a command's rule ends: with a value, with `raise E(info)` (R241), or with a stop of the model. -/
inductive Res (α : Type) where
  | ok (a : α) (s : State)
  | raise (e : ErrCode) (info : Word) (s : State)
  | stop (f : Fault)
  deriving DecidableEq, Repr

/-- Go on after a piece that ended with a value; an error or a stop ends the command (R241). -/
def Res.bind {α β : Type} : Res α → (α → State → Res β) → Res β
  | .ok a s, f => f a s
  | .raise e info s, _ => .raise e info s
  | .stop f, _ => .stop f

/-- The codes of R240. -/
def ErrCode.code : ErrCode → Byte
  | .illegal => 0x01#8
  | .seq => 0x02#8
  | .range => 0x03#8
  | .io => 0x04#8
  | .hdrTrunc => 0x05#8
  | .hdrMalformed => 0x06#8
  | .hdrTree => 0x07#8
  | .streamTrunc => 0x08#8
  | .streamBadPath => 0x09#8
  | .degenerate => 0x0A#8
  | .termInInput => 0x0B#8
  | .noCode => 0x0C#8
  | .freqOvf => 0x0D#8

/-- RSP_IGNORED (R72, R240). -/
def rspIgnored : Byte := 0xFF#8

/-- `respond(data)` (R73). -/
def State.respond (s : State) (data : Word) : State := { s with rspCode := 0x00#8, rspData := data }

/-- `raise E(info)` by the command word w (R241): the response, and the first error captured in ERR and ERR_CMD.
There is no trap entry and nothing to return from (R245, R246). -/
def State.raise (s : State) (e : ErrCode) (info w : Word) : State :=
  if s.err = 0x00#8 then { s with rspCode := e.code, rspData := info, err := e.code, errCmd := w }
  else { s with rspCode := e.code, rspData := info }

/-- The answer to a legal command in FAULT (R72, R242): no other effect. -/
def State.ignored (s : State) : State := { s with rspCode := rspIgnored, rspData := 0#32 }

/-- FAULT is ERR ≠ 0 (R242). -/
def State.inFault (s : State) : Bool := s.err != 0x00#8

/-- The end of the rule of the command word w. -/
def finish (w : Word) : Res Word → Host.Outcome State Fault Refusal
  | .ok data s => .next (s.respond data)
  | .raise e info s => .next (s.raise e info w)
  | .stop f => .fault f

/-- A command that FAULT does not gate: RD_STAT, RD_ERRCMD, BP_CLOSE (R72; SRESET needs no rule result). -/
def runAlways (i : Instr) (rule : State → Res Word) (s : State) : Host.Outcome State Fault Refusal :=
  finish (encode i) (rule s)

/-- A command behind the FAULT gate (R72, R242). -/
def runGated (i : Instr) (rule : State → Res Word) (s : State) : Host.Outcome State Fault Refusal :=
  if s.inFault then .next s.ignored else finish (encode i) (rule s)

/-! ### Stream primitives -/

/-- IoOracle.read(position) (R53). -/
def IoOracle.read (o : IoOracle) (pos : Nat) : IoAnswer := if pos ∈ o.readFails then .fail else .ok

/-- IoOracle.write(length) (R53). -/
def IoOracle.write (o : IoOracle) (len : Nat) : IoAnswer := if len ∈ o.writeFails then .fail else .ok

/-- InRead() (R51): `none` is EOF. Past the end of IN there is no byte (log 4), and IN_POS never wraps (log 5). -/
def inRead (s : State) : Res (Option Byte) :=
  match s.inp[s.inPos.toNat]? with
  | none => if s.inPos.toNat = s.inp.length then .ok none s else .stop .inPosPastEnd
  | some b =>
    match s.oracle.read s.inPos.toNat with
    | .fail => .raise .io (s.inPos.setWidth 32) s
    | .ok =>
      if s.inPos.toNat + 1 < 2 ^ 64 then .ok (some b) { s with inPos := s.inPos + 1#64 }
      else .stop .inPosOverflow

/-- OutWrite(b) (R52). -/
def outWrite (b : Byte) (s : State) : Res Unit :=
  match s.oracle.write s.out.length with
  | .fail => .raise .io (b.setWidth 32) s
  | .ok => .ok () { s with out := s.out ++ [b] }

/-- OutWrite of several bytes in order, stopping at the first that fails (R54). -/
def outWrites : List Byte → State → Res Unit
  | [], s => .ok () s
  | b :: bs, s => (outWrite b s).bind fun _ s' => outWrites bs s'

/-! ### Reset -/

/-- The reset state of the block over unchanged streams (R210, R270, R271): IN, OUT and what the host does next stay. HDR's bytes
are cleared, as R210's pseudocode and R270 have it, where R28's prose says that SRESET leaves them (log 22, DEDUCED). -/
def State.resetBlock (s : State) : State :=
  { State.reset with inp := s.inp, out := s.out, oracle := s.oracle, port := s.port }

end Sys2Proof.Machine
end

