-- ==== Sys2Proof/Machine/Operands.lean ====
section
/-! DEFINITION. The operand forms (30_encoding.md R74), bit strings packed into bytes and back (20_memory.md R56, 45 R192), and
the length prefix (R57). -/

namespace Sys2Proof.Machine

/-- The sum over i of p[i]·2^(w-i), for the bits of p (R56). -/
def packFrom : Nat → Bits → Nat
  | _, [] => 0
  | w, b :: bs => (if b then 2 ^ w else 0) + packFrom (w - 1) bs

/-- The byte of at most 8 pending bits, first bit in bit 7, zero filled (R56, R172). -/
def packMsb (p : Bits) : Byte := BitVec.ofNat 8 (packFrom 7 p)

/-- The bits of a byte, bit 7 first (R192). -/
def bitsMsb (b : Byte) : Bits :=
  [b.getLsbD 7, b.getLsbD 6, b.getLsbD 5, b.getLsbD 4, b.getLsbD 3, b.getLsbD 2, b.getLsbD 1, b.getLsbD 0]

/-- The bits of a byte sequence, first byte first (R59, R192). -/
def streamBits : List Byte → Bits
  | [] => []
  | b :: bs => bitsMsb b ++ streamBits bs

/-- The operand of BP_INS as a bit string: v[n-1], …, v[0] (R175). -/
def insBits (n : BitVec 5) (v : BitVec 16) : Bits := ((List.range n.toNat).map v.getLsbD).reverse

/-- The 32 bits of a code that RD_CODEW selects: code bit 32w + j in data bit 31 - j, zero at or past the length (R133). -/
def codeWord (c : Bits) (len : Nat) (w : BitVec 3) : Word :=
  (List.range 32).foldl
    (fun d j => if 32 * w.toNat + j < len && c.getD (32 * w.toNat + j) false then d ||| (1#32 <<< (31 - j)) else d) 0#32

/-- The weight half that h selects (R58, R115). -/
def weightHalf (h : Bool) (x : BitVec 64) : Word := if h then x.extractLsb' 32 32 else x.extractLsb' 0 32

/-- The length prefix as it is written: 4 bytes, least significant first (R57). -/
def le32 (v : Word) : List Byte := [v.extractLsb' 0 8, v.extractLsb' 8 8, v.extractLsb' 16 8, v.extractLsb' 24 8]

/-- The length prefix as it is read back (R57, R153). -/
def le32Value (b0 b1 b2 b3 : Byte) : Nat := b0.toNat + b1.toNat * 2 ^ 8 + b2.toNat * 2 ^ 16 + b3.toNat * 2 ^ 24

/-- The symbols 0x00..0xFF in ascending order (R6). -/
def symbols : List Byte := (List.range Config.nsym).map (BitVec.ofNat 8)

/-- Whether an idx operand names a record: every value but NIL (R74, R114, R115). -/
def idxInArena (idx : NodeIx) : Bool := idx != Config.nil

end Sys2Proof.Machine
end

