-- ==== Sys2Proof/Machine/Flags.lean ====
section
/-! DEFINITION. The flags: the STATUS word (10_state.md R34), the info words of sequencing errors (60_exceptions.md R240), and the
invalidation of later stages (70_reset_and_hazards.md R275). -/

namespace Sys2Proof.Machine

/-- The value of BP_STATE (R29). -/
def BpState.bits : BpState → BitVec 2
  | .idle => 0#2
  | .opened => 1#2
  | .hdrDone => 2#2

/-- The value of WSTATE (R30). -/
def WState.bits : WState → BitVec 2
  | .atRoot => 0#2
  | .atInternal => 1#2
  | .terminated => 2#2

/-- The value of a record's kind (R23). -/
def NodeKind.bits : NodeKind → BitVec 2
  | .empty => 0#2
  | .leaf => 1#2
  | .internal => 2#2
  | .placeholder => 3#2

/-- PadByte(): the byte that would close the partial group (R172). -/
def State.padByte (s : State) : Byte := packMsb (s.bb.take s.bbN.toNat)

/-- STATUS, composed from the state (R34). -/
def State.status (s : State) : Word :=
  0#4 ++ s.padByte ++ 0#1 ++ s.wState.bits ++ s.bbN ++ s.bpState.bits ++ BitVec.ofBool s.hdrValid ++
    BitVec.ofBool s.codeValid ++ BitVec.ofBool s.treeValid ++ BitVec.ofBool s.inFault ++ s.err

/-- The info of ERR_SEQ for a wrong session state: BP_STATE (R240, R274). -/
def State.bpInfo (s : State) : Word := s.bpState.bits.setWidth 32

/-- The info of ERR_SEQ for "no tree" (R240, R274). -/
def noTreeInfo : Word := 0x100#32

/-- The info of ERR_SEQ for "no code table" (R240, R274). -/
def noCodesInfo : Word := 0x200#32

/-- The info of ERR_SEQ for "no header" (R240, R274). -/
def noHdrInfo : Word := 0x300#32

/-- HDR_VALID <- 0; HDR_LEN <- 0, the bytes of HDR left (R28, R275). -/
def State.dropHeader (s : State) : State := { s with hdrValid := false, hdrLen := 0#16 }

/-- The code table replaced as a whole, with its valid flag (R112, R131, R157). -/
def State.setCodes (s : State) (t : CodeTable) (valid : Bool) : State :=
  { s with codeLen := t.len, codeBits := t.bits, codeValid := valid }

/-- The arena replaced as a whole: NODE, NODE_CNT, ROOT, and TREE_VALID <- 1 (R112, R157). -/
def State.setTree (s : State) (t : Table Node) (cnt root : Nat) : State :=
  { s with node := t, nodeCnt := BitVec.ofNat 10 cnt, root := BitVec.ofNat 9 root, treeValid := true }

/-- WSTATE <- AT_ROOT; WCUR <- NIL (R112, R157). -/
def State.walkerHome (s : State) : State := { s with wState := .atRoot, wCur := Config.nil }

/-- BB <- ""; BB_N <- 0 (R170, R173, R178). -/
def State.clearBits (s : State) : State := { s with bb := [], bbN := 0#3 }

/-- BP_STATE <- b (R173, R174, R178). -/
def State.setSession (s : State) (b : BpState) : State := { s with bpState := b }

end Sys2Proof.Machine
end

