-- ==== Sys2Proof/Machine/BitPacker.lean ====
section
/-! DEFINITION. The bit packer (44_bit_packer.md R170 to R178). -/

namespace Sys2Proof.Machine

/-- PushBit(x) (R170): a full group leaves the buffer before it is written, so a failed write drops it. -/
def pushBit (x : Bool) (s : State) : Res Unit :=
  if s.bbN.toNat + 1 = 8 then outWrite (packMsb (s.bb ++ [x])) s.clearBits
  else .ok () { s with bb := s.bb ++ [x], bbN := s.bbN + 1#3 }

/-- PushBits(c) (R171): first bit first, stopping at the first that raises. -/
def pushBits : Bits → State → Res Unit
  | [], s => .ok () s
  | x :: c, s => (pushBit x s).bind fun _ s' => pushBits c s'

/-- The data of a payload command that started with `o` bytes in OUT (R175): bytes written, and BB_N. -/
def payloadData (o : Nat) (s : State) : Word := (BitVec.ofNat 32 (s.out.length - o) <<< 8) ||| s.bbN.setWidth 32

/-- Push a bit string and respond (R175, R176, R177). -/
def pushAndRespond (c : Bits) (s : State) : Res Word :=
  (pushBits c s).bind fun _ s' => .ok (payloadData s.out.length s') s'

/-- The rule of BP_OPEN (R173). -/
def bpOpenRule (s : State) : Res Word :=
  if s.bpState ≠ .idle then .raise .seq s.bpInfo s else .ok 0#32 ((s.setSession .opened).clearBits)

/-- BP_OPEN (R173). -/
def execBpOpen (s : State) : Host.Outcome State Fault Refusal := runGated .bpOpen bpOpenRule s

/-- The bytes BP_HDR writes: HDR_LEN little-endian, then HDR[0..HDR_LEN-1] (R174). -/
def State.hdrFile (s : State) : List Byte := le32 (s.hdrLen.setWidth 32) ++ s.hdrBytes s.hdrLen.toNat

/-- The rule of BP_HDR (R174). -/
def bpHdrRule (s : State) : Res Word :=
  if s.bpState ≠ .opened then .raise .seq s.bpInfo s
  else if s.hdrValid = false then .raise .seq noHdrInfo s
  else (outWrites s.hdrFile s).bind fun _ s' => .ok (4#32 + s.hdrLen.setWidth 32) (s'.setSession .hdrDone)

/-- BP_HDR (R174). -/
def execBpHdr (s : State) : Host.Outcome State Fault Refusal := runGated .bpHdr bpHdrRule s

/-- The rule of BP_INS (R175). A term whose word is illegal is answered as R72 answers the word (log 16). -/
def bpInsRule (n : BitVec 5) (v : BitVec 16) (s : State) : Res Word :=
  if s.bpState ≠ .hdrDone then .raise .seq s.bpInfo s else pushAndRespond (insBits n v) s

/-- BP_INS (R175; R78 for a term no legal word encodes, log 16). -/
def execBpIns (n : BitVec 5) (v : BitVec 16) (s : State) : Host.Outcome State Fault Refusal :=
  if (Instr.bpIns n v).wellFormed then runGated (.bpIns n v) (bpInsRule n v) s
  else finish (encode (.bpIns n v)) (.raise .illegal (encode (.bpIns n v)) s)

/-- The rule of ENC_SYM (R176). -/
def encSymRule (sym : Byte) (s : State) : Res Word :=
  if s.bpState ≠ .hdrDone then .raise .seq s.bpInfo s
  else if s.codeValid = false then .raise .seq noCodesInfo s
  else if sym = Config.termByte then .raise .termInInput (sym.setWidth 32) s
  else if s.codeLenAt sym = 0#8 then .raise .noCode (sym.setWidth 32) s
  else pushAndRespond (s.codeBitsAt sym) s

/-- ENC_SYM (R176). -/
def execEncSym (sym : Byte) (s : State) : Host.Outcome State Fault Refusal := runGated (.encSym sym) (encSymRule sym) s

/-- The rule of ENC_TERM (R177). -/
def encTermRule (s : State) : Res Word :=
  if s.bpState ≠ .hdrDone then .raise .seq s.bpInfo s
  else if s.codeValid = false then .raise .seq noCodesInfo s
  else if s.codeLenAt Config.termByte = 0#8 then .raise .noCode (Config.termByte.setWidth 32) s
  else pushAndRespond (s.codeBitsAt Config.termByte) s

/-- ENC_TERM (R177). -/
def execEncTerm (s : State) : Host.Outcome State Fault Refusal := runGated .encTerm encTermRule s

/-- The session released: BB empty, BP_STATE IDLE (R178). -/
def State.released (s : State) : State := s.clearBits.setSession .idle

/-- The rule of BP_CLOSE (R178): the session is released before the pad byte is written. -/
def bpCloseRule (s : State) : Res Word :=
  if s.bpState = .idle then .raise .seq 0#32 s
  else if s.bbN.toNat = 0 then .ok 0#32 s.released
  else (outWrite s.padByte s.released).bind fun _ s' => .ok (0x100#32 ||| BitVec.ofNat 32 (8 - s.bbN.toNat)) s'

/-- BP_CLOSE (R178): accepted in FAULT. -/
def execBpClose (s : State) : Host.Outcome State Fault Refusal := runAlways .bpClose bpCloseRule s

end Sys2Proof.Machine
end

