-- ==== Sys2Proof/Machine/HeaderCodec.lean ====
section
/-! DEFINITION. The header codec (43_header_codec.md R150 to R159). -/

namespace Sys2Proof.Machine

/-! ### Serialization -/

/-- The code character of a bit (R150). -/
def codeChar (b : Bool) : Byte := if b then Config.ch1 else Config.ch0

/-- One header entry: the symbol, a character per code bit, the separator (R150). -/
def entryBytes (sym : Byte) (c : Bits) : List Byte := sym :: c.map codeChar ++ [Config.sepByte]

/-- CODE_BITS[s][0 .. CODE_LEN[s]-1], positions past the stored string reading 0 (R26, R150; log 15). -/
def State.codeOf (s : State) (sym : Byte) : Bits :=
  (List.range (s.codeLenAt sym).toNat).map fun j => (s.codeBitsAt sym).getD j false

/-- Serialize() (R150): an entry for every symbol with a code, in ascending symbol order. -/
def State.serialize (s : State) : List Byte :=
  (symbols.filter fun b => s.codeLenAt b != 0#8).flatMap fun b => entryBytes b (s.codeOf b)

/-- The state after HC_SER has written H into HDR (R151). -/
def State.withHeader (s : State) (h : List Byte) : State :=
  { s with hdr := storeBytes s.hdr 0 h, hdrLen := BitVec.ofNat 16 h.length, hdrValid := true }

/-- The rule of HC_SER (R151). R152 excludes a header longer than HDR_MAX, on which the model stops (log 10). -/
def hcSerRule (s : State) : Res Word :=
  if s.bpState ≠ .idle then .raise .seq s.bpInfo s
  else if s.codeValid = false then .raise .seq noCodesInfo s
  else if Config.hdrMax < s.serialize.length then .stop .hdrOverflow
  else .ok ((s.withHeader s.serialize).hdrLen.setWidth 32) (s.withHeader s.serialize)

/-- HC_SER (R151). -/
def execHcSer (s : State) : Host.Outcome State Fault Refusal := runGated .hcSer hcSerRule s

/-! ### Loading -/

/-- InRead for byte k of the prefix or block, where EOF is a truncated header with the given info (R153, R154). -/
def readHeaderByte (info : Nat) (s : State) : Res Byte :=
  (inRead s).bind fun b s' =>
    match b with
    | some b => .ok b s'
    | none => .raise .hdrTrunc (BitVec.ofNat 32 info) s'

/-- ReadLength() (R153). -/
def readLength (s : State) : Res Nat :=
  (readHeaderByte 0 s).bind fun b0 s0 =>
    (readHeaderByte 1 s0).bind fun b1 s1 =>
      (readHeaderByte 2 s1).bind fun b2 s2 =>
        (readHeaderByte 3 s2).bind fun b3 s3 => .ok (le32Value b0 b1 b2 b3) s3

/-- The read loop of ReadBlock (R154): n bytes still to read, k already read. -/
def readBytes : Nat → Nat → State → Res (List Byte)
  | 0, _, s => .ok [] s
  | n + 1, k, s =>
    (readHeaderByte (4 + k) s).bind fun b s' => (readBytes n (k + 1) s').bind fun bs s'' => .ok (b :: bs) s''

/-- ReadBlock(len) (R154). -/
def readBlock (len : Nat) (s : State) : Res (List Byte) :=
  if len = 0 ∨ Config.hdrMax < len then .raise .hdrMalformed (BitVec.ofNat 32 len) s else readBytes len 0 s

/-- An error while the header is parsed or its tree built, with its info word. -/
abbrev HdrError := ErrCode × Nat

/-- The checks of R155 on the code characters of the entry at offset p, and the code they spell. -/
def entryCode (p : Nat) (cs : List Byte) : Except HdrError Bits :=
  if cs.length = 0 then .error (.hdrMalformed, p)
  else if Config.maxCodeLen < cs.length then .error (.hdrMalformed, p)
  else if cs.any (fun c => c != Config.ch0 && c != Config.ch1) then .error (.hdrMalformed, p)
  else .ok (cs.map fun c => c == Config.ch1)

/-- An entry being parsed: its offset, its symbol, and the characters read so far. -/
structure OpenEntry where
  start : Nat
  sym : Byte
  chars : List Byte
  deriving DecidableEq, Repr

/-- ParseEntries from offset p, symbol first (R155, C4): between entries the next byte is a symbol, inside one it is the
separator or a character. The checks of an entry run at its separator; bytes that end inside an entry are truncated. -/
def parseFrom : Nat → Option OpenEntry → List Byte → Except HdrError (List (Byte × Bits))
  | _, none, [] => .ok []
  | _, some e, [] => .error (.hdrTrunc, e.start)
  | p, none, b :: bs => parseFrom (p + 1) (some ⟨p, b, []⟩) bs
  | p, some e, b :: bs =>
    if b = Config.sepByte then
      match entryCode e.start e.chars with
      | .error err => .error err
      | .ok c =>
        match parseFrom (p + 1) none bs with
        | .error err => .error err
        | .ok es => .ok ((e.sym, c) :: es)
    else parseFrom (p + 1) (some { e with chars := e.chars ++ [b] }) bs

/-- ParseEntries(B) (R155). -/
def parseEntries (block : List Byte) : Except HdrError (List (Byte × Bits)) := parseFrom 0 none block

/-- The child of a record on the branch of a bit (R156, R190). -/
def Node.branch (r : Node) (x : Bool) : NodeIx := if x then r.one else r.zero

/-- The record with the child on the branch of a bit replaced (R156). -/
def Node.setBranch (r : Node) (x : Bool) (c : NodeIx) : Node := if x then { r with one := c } else { r with zero := c }

/-- A new internal record of Reconstruct: no children, weight 0 (R156). -/
def freshInternal : Node := ⟨.internal, 0#8, Config.nil, Config.nil, 0#64⟩

/-- A leaf record of Reconstruct: weight 0 (R156). -/
def freshLeaf (sym : Byte) : Node := ⟨.leaf, sym, Config.nil, Config.nil, 0#64⟩

/-- T[cnt] <- r; T[i].br <- cnt (R156). -/
def attach (t : Table Node) (cnt : Nat) (i : NodeIx) (x : Bool) (r : Node) : Table Node :=
  let t' := Table.set Node.blank t cnt r
  arenaSet t' i ((arenaAt t' i).setBranch x (BitVec.ofNat 9 cnt))

/-- The walk of Reconstruct for one entry's code from record i (R156); `none` is ERR_HDR_TREE. -/
def insertCode (sym : Byte) : Bits → NodeIx → Table Node → Nat → Option (Table Node × Nat)
  | [], _, _, _ => none
  | [x], i, t, cnt =>
    if (arenaAt t i).branch x ≠ Config.nil then none
    else if cnt = Config.nodeMax then none
    else some (attach t cnt i x (freshLeaf sym), cnt + 1)
  | x :: y :: c, i, t, cnt =>
    if (arenaAt t i).branch x = Config.nil then
      if cnt = Config.nodeMax then none
      else insertCode sym (y :: c) (BitVec.ofNat 9 cnt) (attach t cnt i x freshInternal) (cnt + 1)
    else if (arenaAt t ((arenaAt t i).branch x)).kind = .leaf then none
    else insertCode sym (y :: c) ((arenaAt t i).branch x) t cnt

/-- The entry loop of Reconstruct: entry e is next, `seen` holds the symbols before it (R156). -/
def reconstructFrom : List (Byte × Bits) → Nat → List Byte → Table Node → Nat → Except HdrError (Table Node × Nat)
  | [], _, _, t, cnt => .ok (t, cnt)
  | (sym, c) :: es, e, seen, t, cnt =>
    if sym ∈ seen then .error (.hdrTree, e)
    else match insertCode sym c 0#9 t cnt with
      | none => .error (.hdrTree, e)
      | some (t', cnt') => reconstructFrom es (e + 1) (sym :: seen) t' cnt'

/-- Reconstruct(E) (R156). -/
def reconstruct (es : List (Byte × Bits)) : Except HdrError (Table Node × Nat) :=
  reconstructFrom es 0 [] (Table.set Node.blank [] 0 freshInternal) 1

/-- The code table of the entries (R157). -/
def codesOf (es : List (Byte × Bits)) : CodeTable := es.foldl (fun t e => t.put e.1 e.2) CodeTable.clear

/-- The commit of HC_LOAD (R157). -/
def State.withLoaded (s : State) (es : List (Byte × Bits)) (t : Table Node) (cnt : Nat) : State :=
  (((s.setTree t cnt 0).setCodes (codesOf es) true).dropHeader).walkerHome

/-- An error of parsing or reconstruction raised as the command's error (R155, R156). -/
def Res.ofHdr {α : Type} (r : Except HdrError α) (s : State) : Res α :=
  match r with
  | .ok a => .ok a s
  | .error e => .raise e.1 (BitVec.ofNat 32 e.2) s

/-- The rule of HC_LOAD (R157): nothing but IN_POS changes before every step has succeeded (R244). -/
def hcLoadRule (s : State) : Res Word :=
  if s.bpState ≠ .idle then .raise .seq s.bpInfo s
  else
    (readLength s).bind fun len s1 =>
      (readBlock len s1).bind fun block s2 =>
        (Res.ofHdr (parseEntries block) s2).bind fun es s3 =>
          (Res.ofHdr (reconstruct es) s3).bind fun tc s4 =>
            .ok ((BitVec.ofNat 32 es.length <<< 16) ||| BitVec.ofNat 32 len) (s4.withLoaded es tc.1 tc.2)

/-- HC_LOAD (R157). -/
def execHcLoad (s : State) : Host.Outcome State Fault Refusal := runGated .hcLoad hcLoadRule s

/-! ### Read-back -/

/-- RD_HDRLEN (R158). -/
def execRdHdrLen (s : State) : Host.Outcome State Fault Refusal :=
  runGated .rdHdrLen (fun s => .ok (((BitVec.ofBool s.hdrValid).setWidth 32 <<< 31) ||| s.hdrLen.setWidth 32) s) s

/-- The rule of RD_HDRB (R159). -/
def rdHdrBRule (idx : BitVec 16) (s : State) : Res Word :=
  if idx.toNat ≥ s.hdrLen.toNat then .raise .range (idx.setWidth 32) s else .ok ((s.hdrAt idx.toNat).setWidth 32) s

/-- RD_HDRB (R159). -/
def execRdHdrB (idx : BitVec 16) (s : State) : Host.Outcome State Fault Refusal := runGated (.rdHdrB idx) (rdHdrBRule idx) s

end Sys2Proof.Machine
end

