-- ==== Sys2Proof/Machine/BitReader.lean ====
section
/-! DEFINITION. The bit reader and the decoding walker (45_bit_reader_decoder.md R190 to R195). -/

namespace Sys2Proof.Machine

/-- The walker's current record: the root, or WCUR inside the tree (R190). -/
def State.walkAt (s : State) : NodeIx := if s.wState = .atRoot then s.root else s.wCur

/-- ERR_STREAM_BADPATH's info: the node index shifted left by one, ORed with the bit (R190). -/
def badPathInfo (n : NodeIx) (x : Bool) : Word := (n.setWidth 32 <<< 1) ||| (BitVec.ofBool x).setWidth 32

/-- The walker's step from record n into its child c on bit x (R190): `some sym` is (1, sym), `none` is (0, 0). -/
def walkInto (n c : NodeIx) (x : Bool) (s : State) : Res (Option Byte) :=
  if c = Config.nil then .raise .streamBadPath (badPathInfo n x) s
  else match (s.nodeAt c).kind with
    | .placeholder => .raise .streamBadPath (badPathInfo n x) s
    | .empty => .raise .streamBadPath (badPathInfo n x) s
    | .internal => .ok none { s with wCur := c, wState := .atInternal }
    | .leaf =>
      if (s.nodeAt c).sym = Config.termByte then .ok none { s with wCur := Config.nil, wState := .terminated }
      else (outWrite (s.nodeAt c).sym s.walkerHome).bind fun _ s' => .ok (some (s.nodeAt c).sym) s'

/-- WalkStep(x) (R190). -/
def walkStep (x : Bool) (s : State) : Res (Option Byte) :=
  if s.wState = .terminated then .ok none s
  else if s.walkAt = Config.nil then .stop .nodeIsNil
  else walkInto s.walkAt ((s.nodeAt s.walkAt).branch x) x s

/-- The rule of BR_EXT (R191). -/
def brExtRule (s : State) : Res Word :=
  (inRead s).bind fun b s' =>
    match b with
    | none => .ok 0x100#32 s'
    | some b => .ok (b.setWidth 32) s'

/-- BR_EXT (R191). -/
def execBrExt (s : State) : Host.Outcome State Fault Refusal := runGated .brExt brExtRule s

/-- The fields e and s of a walk step in a response (R193). -/
def emitField : Option Byte → Word
  | none => 0#32
  | some sym => 0x100#32 ||| sym.setWidth 32

/-- The rule of DW_BIT (R193). -/
def dwBitRule (b : Bool) (s : State) : Res Word :=
  if s.bpState ≠ .idle then .raise .seq s.bpInfo s
  else if s.treeValid = false then .raise .seq noTreeInfo s
  else (walkStep b s).bind fun e s' => .ok ((s'.wState.bits.setWidth 32 <<< 9) ||| emitField e) s'

/-- DW_BIT (R193). -/
def execDwBit (b : Bool) (s : State) : Host.Outcome State Fault Refusal := runGated (.dwBit b) (dwBitRule b) s

/-- The bit loop of DEC_BYTE (R194), with k symbols emitted so far: it ends early in TERMINATED. -/
def walkBits : Bits → Nat → State → Res Nat
  | [], k, s => .ok k s
  | x :: xs, k, s =>
    if s.wState = .terminated then .ok k s
    else (walkStep x s).bind fun e s' => walkBits xs (if e.isSome then k + 1 else k) s'

/-- WSTATE in bits [14:13] of DEC_BYTE's data (R194). -/
def State.wField (s : State) : Word := s.wState.bits.setWidth 32 <<< 13

/-- The rule of DEC_BYTE (R194). -/
def decByteRule (s : State) : Res Word :=
  if s.bpState ≠ .idle then .raise .seq s.bpInfo s
  else if s.treeValid = false then .raise .seq noTreeInfo s
  else if s.wState = .terminated then .ok s.wField s
  else
    (inRead s).bind fun b s1 =>
      match b with
      | none => .ok (s1.wField ||| 0x100#32) s1
      | some b =>
        (walkBits (bitsMsb b) 0 s1).bind fun k s2 => .ok (s2.wField ||| (BitVec.ofNat 32 k <<< 9) ||| b.setWidth 32) s2

/-- DEC_BYTE (R194). -/
def execDecByte (s : State) : Host.Outcome State Fault Refusal := runGated .decByte decByteRule s

/-- The rule of DEC_END (R195). -/
def decEndRule (s : State) : Res Word :=
  if s.treeValid = false then .raise .seq noTreeInfo s
  else if s.wState ≠ .terminated then .raise .streamTrunc (s.wState.bits.setWidth 32) s
  else .ok 0#32 s

/-- DEC_END (R195). -/
def execDecEnd (s : State) : Host.Outcome State Fault Refusal := runGated .decEnd decEndRule s

end Sys2Proof.Machine
end

