-- ==== Sys2Proof/Machine/CodeGenerator.lean ====
section
/-! DEFINITION. The code generator (42_code_generator.md R130 to R133). -/

namespace Sys2Proof.Machine

/-- Visit(i, p) of R130. The first argument bounds the depth: with 256 at the root, exactly the paths of length at most
MAX_CODE_LEN are walked, and a longer one, which no tree of R25 has, stops the model (log 9). -/
def visit (arena : Table Node) : Nat → NodeIx → Bits → CodeTable → Except Fault CodeTable
  | 0, _, _, _ => .error .codePathTooLong
  | fuel + 1, i, p, t =>
    if i = Config.nil then .error .nodeIsNil
    else match (arenaAt arena i).kind with
      | .internal =>
        match (if (arenaAt arena i).zero = Config.nil then .ok t
               else visit arena fuel (arenaAt arena i).zero (p ++ [false]) t) with
        | .error f => .error f
        | .ok t0 =>
          if (arenaAt arena i).one = Config.nil then .ok t0
          else visit arena fuel (arenaAt arena i).one (p ++ [true]) t0
      | .leaf => .ok (t.put (arenaAt arena i).sym p)
      | .placeholder => .ok t
      | .empty => .ok t

/-- GenCodes() (R130): from an empty table, the paths from the root. -/
def genCodes (arena : Table Node) (root : NodeIx) : Except Fault CodeTable :=
  visit arena (Config.maxCodeLen + 1) root [] CodeTable.clear

/-- |{s : CODE_LEN[s] > 0}| (R131). -/
def codedCount (len : Table Byte) : Nat := (symbols.filter fun b => Table.get 0#8 len b.toNat != 0#8).length

/-- The state after CG_GEN has generated a table (R131). -/
def State.withCodes (s : State) (t : CodeTable) : State := (s.setCodes t true).dropHeader

/-- The rule of CG_GEN (R131). -/
def cgGenRule (s : State) : Res Word :=
  if s.bpState ≠ .idle then .raise .seq s.bpInfo s
  else if s.treeValid = false then .raise .seq noTreeInfo s
  else match genCodes s.node s.root with
    | .error f => .stop f
    | .ok t => .ok (BitVec.ofNat 32 (codedCount t.len)) (s.withCodes t)

/-- CG_GEN (R131). -/
def execCgGen (s : State) : Host.Outcome State Fault Refusal := runGated .cgGen cgGenRule s

/-- RD_CLEN (R132). -/
def execRdCLen (sym : Byte) (s : State) : Host.Outcome State Fault Refusal :=
  runGated (.rdCLen sym) (fun s => .ok ((s.codeLenAt sym).setWidth 32) s) s

/-- RD_CODEW (R133). -/
def execRdCodeW (w : BitVec 3) (sym : Byte) (s : State) : Host.Outcome State Fault Refusal :=
  runGated (.rdCodeW w sym) (fun s => .ok (codeWord (s.codeBitsAt sym) (s.codeLenAt sym).toNat w) s) s

end Sys2Proof.Machine
end

