-- ==== Sys2Proof/Machine/Control.lean ====
section
/-! DEFINITION. The control commands (46_control.md R210 to R213). -/

namespace Sys2Proof.Machine

/-- SRESET (R210): never gated, never fails. -/
def execSreset (s : State) : Host.Outcome State Fault Refusal := .next (s.resetBlock.respond 0#32)

/-- RD_STAT (R211): accepted in FAULT. -/
def execRdStat (s : State) : Host.Outcome State Fault Refusal := runAlways .rdStat (fun s => .ok s.status s) s

/-- RD_ERRCMD (R212): accepted in FAULT. -/
def execRdErrCmd (s : State) : Host.Outcome State Fault Refusal := runAlways .rdErrCmd (fun s => .ok s.errCmd s) s

/-- RD_INPOS (R213): the low 32 bits of IN_POS. -/
def execRdInPos (s : State) : Host.Outcome State Fault Refusal :=
  runGated .rdInPos (fun s => .ok (s.inPos.extractLsb' 0 32) s) s

end Sys2Proof.Machine
end

