-- ==== Sys2Proof/Machine/Frequency.lean ====
section
/-! DEFINITION. The frequency table commands (40_frequency.md R100 to R102). -/

namespace Sys2Proof.Machine

/-- FRQ_CLR (R100). -/
def execFrqClr (s : State) : Host.Outcome State Fault Refusal :=
  runGated .frqClr (fun s => .ok 0#32 { s with freq := freqCleared }) s

/-- The rule of FRQ_ADD (R101). -/
def frqAddRule (sym : Byte) (s : State) : Res Word :=
  if sym = Config.termByte then .raise .termInInput (sym.setWidth 32) s
  else if s.freqAt sym = 0xFFFFFFFF#32 then .raise .freqOvf (sym.setWidth 32) s
  else .ok (s.freqAt sym + 1#32) (s.setFreq sym (s.freqAt sym + 1#32))

/-- FRQ_ADD (R101). -/
def execFrqAdd (sym : Byte) (s : State) : Host.Outcome State Fault Refusal := runGated (.frqAdd sym) (frqAddRule sym) s

/-- RD_FREQ (R102). -/
def execRdFreq (sym : Byte) (s : State) : Host.Outcome State Fault Refusal :=
  runGated (.rdFreq sym) (fun s => .ok (s.freqAt sym) s) s

end Sys2Proof.Machine
end

