-- ==== Sys2Proof/Machine/TreeBuilder.lean ====
section
/-! DEFINITION. The tree builder (41_tree_builder.md R110 to R115). -/

namespace Sys2Proof.Machine

/-- The lexicographic order of the pairs (weight, symbol) and (weight, arena index) (R110, R11). -/
def keyLe (a b : Nat × Nat) : Bool := a.1 < b.1 || (a.1 == b.1 && a.2 ≤ b.2)

/-- Put a pair at its place in an ascending list. -/
def insertKey (x : Nat × Nat) : List (Nat × Nat) → List (Nat × Nat)
  | [] => [x]
  | y :: ys => if keyLe x y then x :: y :: ys else y :: insertKey x ys

/-- A list of pairs in ascending order. -/
def sortKeys : List (Nat × Nat) → List (Nat × Nat)
  | [] => []
  | x :: xs => insertKey x (sortKeys xs)

/-- The keys of FREQ as pairs (FREQ[s], s), symbols ascending. -/
def freqPairs (freq : Table Word) : List (Nat × Nat) :=
  (symbols.filter fun b => Table.get 0#32 freq b.toNat != 0#32).map fun b => ((Table.get 0#32 freq b.toNat).toNat, b.toNat)

/-- K (R110): the keys sorted by (FREQ[s], s). -/
def sortedKeys (freq : Table Word) : List (Nat × Nat) := sortKeys (freqPairs freq)

/-- The record of a leaf for symbol sym and its count (R110). -/
def leafNode (weight sym : Nat) : Node := ⟨.leaf, BitVec.ofNat 8 sym, Config.nil, Config.nil, BitVec.ofNat 64 weight⟩

/-- The record of a merged node: x on the zero branch, y on the one branch (R110). -/
def internalNode (x y weight : Nat) : Node :=
  ⟨.internal, 0#8, BitVec.ofNat 9 x, BitVec.ofNat 9 y, BitVec.ofNat 64 weight⟩

/-- The leaves at arena indices i, i+1, … in the order of K (R110). -/
def placeLeaves : List (Nat × Nat) → Nat → Table Node → Table Node
  | [], _, t => t
  | k :: ks, i, t => placeLeaves ks (i + 1) (Table.set Node.blank t i (leafNode k.1 k.2))

/-- The leaves as members of the priority structure: (weight, arena index) (R110). -/
def leafQueue : List (Nat × Nat) → Nat → List (Nat × Nat)
  | [], _ => []
  | k :: ks, i => (k.1, i) :: leafQueue ks (i + 1)

/-- The merge loop of R110. The priority structure is held as the ascending list of its pairs (weight, arena index),
so its first two entries are the two that min_by removes (log 14). The first argument bounds the number of merges. -/
def mergeAll : Nat → List (Nat × Nat) → Nat → Table Node → Table Node × Nat
  | fuel + 1, x :: y :: q, next, t =>
    mergeAll fuel (insertKey (x.1 + y.1, next) q) (next + 1)
      (Table.set Node.blank t next (internalNode x.2 y.2 (x.1 + y.1)))
  | _, _, next, t => (t, next)

/-- A built tree: the arena, NODE_CNT and ROOT. -/
structure Built where
  arena : Table Node
  cnt : Nat
  root : Nat
  deriving DecidableEq, Repr

/-- BuildTree, degenerate case (R111). -/
def buildDegenerate (k : Nat × Nat) : Built :=
  ⟨Table.set Node.blank
      (Table.set Node.blank (Table.set Node.blank [] 0 (leafNode k.1 k.2)) 1
        ⟨.placeholder, 0#8, Config.nil, Config.nil, 0#64⟩)
      2 (internalNode 0 1 k.1), 3, 2⟩

/-- BuildTree, non-degenerate case (R110). -/
def buildMerged (ks : List (Nat × Nat)) : Built :=
  let r := mergeAll ks.length (leafQueue ks 0) ks.length (placeLeaves ks 0 [])
  ⟨r.1, r.2, r.2 - 1⟩

/-- BuildTree on the sorted keys: none with no key (R112), R111 with one, R110 with more. -/
def buildTree (ks : List (Nat × Nat)) : Option Built :=
  match ks with
  | [] => none
  | [k] => some (buildDegenerate k)
  | k :: k' :: rest => some (buildMerged (k :: k' :: rest))

/-- The state after TB_BUILD has built a tree (R112). -/
def State.withBuilt (s : State) (b : Built) : State :=
  (((s.setTree b.arena b.cnt b.root).setCodes CodeTable.clear false).dropHeader).walkerHome

/-- The rule of TB_BUILD (R112). ERR_DEGENERATE is unreachable while FREQ[TERM_BYTE] is 1, and kept (C1). -/
def tbBuildRule (s : State) : Res Word :=
  if s.bpState ≠ .idle then .raise .seq s.bpInfo s
  else match buildTree (sortedKeys s.freq) with
    | none => .raise .degenerate 0#32 s
    | some b =>
      .ok (((s.withBuilt b).nodeCnt.setWidth 32 <<< 16) ||| (s.withBuilt b).root.setWidth 32) (s.withBuilt b)

/-- TB_BUILD (R112). -/
def execTbBuild (s : State) : Host.Outcome State Fault Refusal := runGated .tbBuild tbBuildRule s

/-- RD_ROOT (R113). -/
def execRdRoot (s : State) : Host.Outcome State Fault Refusal :=
  runGated .rdRoot (fun s =>
    .ok (((BitVec.ofBool s.treeValid).setWidth 32 <<< 31) ||| (s.nodeCnt.setWidth 32 <<< 16) ||| s.root.setWidth 32) s) s

/-- The data of RD_NODE (R114). -/
def nodeWord (r : Node) : Word :=
  (r.kind.bits.setWidth 32 <<< 26) ||| (r.zero.setWidth 32 <<< 17) ||| (r.one.setWidth 32 <<< 8) ||| r.sym.setWidth 32

/-- The rule of RD_NODE (R114). -/
def rdNodeRule (idx : NodeIx) (s : State) : Res Word :=
  if idxInArena idx then .ok (nodeWord (s.nodeAt idx)) s else .raise .range (idx.setWidth 32) s

/-- RD_NODE (R114). -/
def execRdNode (idx : NodeIx) (s : State) : Host.Outcome State Fault Refusal := runGated (.rdNode idx) (rdNodeRule idx) s

/-- The rule of RD_NWT (R115). -/
def rdNwtRule (h : Bool) (idx : NodeIx) (s : State) : Res Word :=
  if idxInArena idx then .ok (weightHalf h (s.nodeAt idx).weight) s else .raise .range (idx.setWidth 32) s

/-- RD_NWT (R115). -/
def execRdNwt (h : Bool) (idx : NodeIx) (s : State) : Host.Outcome State Fault Refusal :=
  runGated (.rdNwt h idx) (rdNwtRule h idx) s

end Sys2Proof.Machine
end

