-- ==== Sys2Proof/Machine/Dispatch.lean ====
section
/-! DEFINITION. One arm per command, each a direct call of its meaning. -/

namespace Sys2Proof.Machine

def exec (i : Instr) (s : State) : Host.Outcome State Fault Refusal :=
  match i with
  | .sreset => Sys2Proof.Machine.execSreset s
  | .rdStat => Sys2Proof.Machine.execRdStat s
  | .rdErrCmd => Sys2Proof.Machine.execRdErrCmd s
  | .rdInPos => Sys2Proof.Machine.execRdInPos s
  | .frqClr => Sys2Proof.Machine.execFrqClr s
  | .frqAdd sym => Sys2Proof.Machine.execFrqAdd sym s
  | .rdFreq sym => Sys2Proof.Machine.execRdFreq sym s
  | .tbBuild => Sys2Proof.Machine.execTbBuild s
  | .rdRoot => Sys2Proof.Machine.execRdRoot s
  | .rdNode idx => Sys2Proof.Machine.execRdNode idx s
  | .rdNwt h idx => Sys2Proof.Machine.execRdNwt h idx s
  | .cgGen => Sys2Proof.Machine.execCgGen s
  | .rdCLen sym => Sys2Proof.Machine.execRdCLen sym s
  | .rdCodeW w sym => Sys2Proof.Machine.execRdCodeW w sym s
  | .hcSer => Sys2Proof.Machine.execHcSer s
  | .hcLoad => Sys2Proof.Machine.execHcLoad s
  | .rdHdrLen => Sys2Proof.Machine.execRdHdrLen s
  | .rdHdrB idx => Sys2Proof.Machine.execRdHdrB idx s
  | .bpOpen => Sys2Proof.Machine.execBpOpen s
  | .bpHdr => Sys2Proof.Machine.execBpHdr s
  | .bpIns n v => Sys2Proof.Machine.execBpIns n v s
  | .encSym sym => Sys2Proof.Machine.execEncSym sym s
  | .encTerm => Sys2Proof.Machine.execEncTerm s
  | .bpClose => Sys2Proof.Machine.execBpClose s
  | .brExt => Sys2Proof.Machine.execBrExt s
  | .dwBit b => Sys2Proof.Machine.execDwBit b s
  | .decByte => Sys2Proof.Machine.execDecByte s
  | .decEnd => Sys2Proof.Machine.execDecEnd s

end Sys2Proof.Machine
end

