-- ==== Sys2Proof/Machine/Cycle.lean ====
section
/-! DEFINITION. The command cycle (30_encoding.md R72) and the host's acts on the block (20_memory.md R55, 70_reset_and_hazards.md R271). -/

namespace Sys2Proof.Machine

/-- Execute(w) (R72): an illegal word raises ERR_ILLEGAL with the word as info, in FAULT too; a legal one is its instruction,
whose meaning holds the FAULT gate. -/
def executeWord (w : Word) (s : State) : Host.Outcome State Fault Refusal :=
  match decode w with
  | .ok i => exec i s
  | .error _ => finish w (.raise .illegal w s)

/-- One act of the host (R55, R271). Binding OUT while a session is open breaks the host's duty, and the model stops (log 7).
Binding IN does not touch IN_POS: the host must issue SRESET (log 6). -/
def hostAct (a : HostAct) (s : State) : Host.Outcome State Fault Refusal :=
  match a with
  | .command w => executeWord w s
  | .bindIn bytes => .next { s with inp := bytes }
  | .bindOut bytes => if s.bpState = .idle then .next { s with out := bytes } else .fault .outReboundInSession
  | .reset => .next s.resetBlock

/-- The next act of the host, taken off the port; with none pending the block waits (R271; log 2). -/
def cycle (s : State) : Host.Outcome State Fault Refusal :=
  match s.port with
  | [] => .next s
  | a :: rest => hostAct a { s with port := rest }

/-- A command word presented before everything pending on the port. -/
def State.present (s : State) (w : Word) : State := { s with port := .command w :: s.port }

end Sys2Proof.Machine
end

