-- ==== Sys2Proof/Machine/Step.lean ====
section
/-! DEFINITION. One step of the block: the host's next act. -/

namespace Sys2Proof.Machine

/-- One step: the next act on the port, a command word executed to completion (R60, R72). -/
def step (s : State) : Host.Outcome State Fault Refusal := cycle s

/-- The word of an instruction, given as a number, presented as the very next command (log 2). -/
def State.withFetchWord (s : State) (nbits w : Nat) : State := s.present (BitVec.ofNat 32 (w % 2 ^ nbits))

end Sys2Proof.Machine
end

