-- ==== Sys2Proof/Machine/HostProcedures.lean ====
section
/-! DEFINITION. The host's procedures over the block's step: Compress, Decompress and the error path (47_host_procedures.md R220 to R222).
They are no commands of the block (30_encoding.md R81); the host's own files, messages and exit codes are out of scope (R5). -/

namespace Sys2Proof.Machine

/-- `issue C` (47_host_procedures.md): present a command and take the block's step on it. -/
def issue (i : Instr) (s : State) : Host.Outcome State Fault Refusal := step (s.present (encode i))

/-- How a host procedure ends. -/
inductive ProcEnd where
  /-- Every command responded 0x00. -/
  | success (s : State)
  /-- A command did not, and the error path has run (R221). -/
  | failure (s : State)
  /-- The model stopped. -/
  | stopped
  deriving DecidableEq, Repr

/-- The error path (R221): RD_STAT, then BP_CLOSE when STATUS says that a session is open. -/
def errorPath (s : State) : ProcEnd :=
  match issue .rdStat s with
  | .next s1 =>
    if s1.rspData.extractLsb' 12 2 = 0#2 then .failure s1
    else match issue .bpClose s1 with
      | .next s2 => .failure s2
      | .fault _ => .stopped
      | .refused _ => .stopped
  | .fault _ => .stopped
  | .refused _ => .stopped

/-- `issue C; check` for each command in order, leaving by the error path at the first that does not respond 0x00 (R220, R221). -/
def issueAll : List Instr → State → ProcEnd
  | [], s => .success s
  | i :: is, s =>
    match issue i s with
    | .next s' => if s'.rspCode = 0x00#8 then issueAll is s' else errorPath s'
    | .fault _ => .stopped
    | .refused _ => .stopped

/-- The commands of Compress(x) (R220). -/
def compressCommands (x : List Byte) : List Instr :=
  [.sreset] ++ x.map .frqAdd ++ [.tbBuild, .cgGen, .hcSer, .bpOpen, .bpHdr] ++ x.map .encSym ++ [.encTerm, .bpClose]

/-- Compress(x) (R220), OUT bound by the host. -/
def compress (x : List Byte) (s : State) : ProcEnd := issueAll (compressCommands x) s

/-- The loop of Decompress (R222) and its DEC_END: it ends at TERMINATED or at end of input. The first argument bounds the
number of DEC_BYTE commands, each of which consumes one byte of IN unless it ends the loop. -/
def decompressLoop : Nat → State → ProcEnd
  | 0, _ => .stopped
  | fuel + 1, s =>
    match issue .decByte s with
    | .next s' =>
      if s'.rspCode ≠ 0x00#8 then errorPath s'
      else if s'.rspData.extractLsb' 13 2 = 2#2 then issueAll [.decEnd] s'
      else if s'.rspData.getLsbD 8 then issueAll [.decEnd] s'
      else decompressLoop fuel s'
    | .fault _ => .stopped
    | .refused _ => .stopped

/-- Decompress (R222), IN bound to the file, OUT bound by the host. -/
def decompress (s : State) : ProcEnd :=
  match issueAll [.sreset, .hcLoad] s with
  | .success s' => decompressLoop (s'.inp.length + 1) s'
  | .failure s' => .failure s'
  | .stopped => .stopped

end Sys2Proof.Machine
end

