-- ==== Sys2Proof/Safety.lean ====
section
/-! DEFINITION. What counts as a good state and a safe run, in the terms the statements use (10_state.md, 20_memory.md R65). -/

namespace Sys2Proof.Machine

/-- A run has succeeded when ERR = 0x00 at its end (R65). -/
def State.succeeded (s : State) : Bool := s.err == 0x00#8

/-- Every table, HDR's memory among them, has its canonical form (log 12). -/
def State.TablesCanonical (s : State) : Prop :=
  Table.wf Config.nsym 0#32 s.freq = true ∧ Table.wf Config.nodeMax Node.blank s.node = true ∧
  Table.wf Config.nsym 0#8 s.codeLen = true ∧ Table.wf Config.nsym [] s.codeBits = true ∧ Memory.wf s.hdr = true

/-- FREQ[TERM_BYTE] is 1 (R22). -/
def State.TerminatorCounted (s : State) : Prop := s.freqAt Config.termByte = 1#32

/-- BB holds exactly BB_N bits, and none outside HDR_DONE (R29, R174, R178). -/
def State.PackerConsistent (s : State) : Prop :=
  s.bb.length = s.bbN.toNat ∧ (s.bpState ≠ .hdrDone → s.bbN = 0#3)

/-- CODE_BITS[s] is a bit string of exactly CODE_LEN[s] bits, for every s (R26). -/
def State.CodeLengthsMatch (s : State) : Prop := ∀ sym : Byte, (s.codeBitsAt sym).length = (s.codeLenAt sym).toNat

/-- A later stage's result is valid only with the earlier ones, and an invalid header has length 0 (R28, R275). -/
def State.StagesOrdered (s : State) : Prop :=
  (s.hdrValid = true → s.codeValid = true) ∧ (s.codeValid = true → s.treeValid = true) ∧ (s.hdrValid = false → s.hdrLen = 0#16)

/-- A valid header in HDR is the serialization of the current code table (R28, R275). -/
def State.HeaderCurrent (s : State) : Prop := s.hdrValid = true → s.hdrBytes s.hdrLen.toNat = s.serialize

/-- In AT_INTERNAL, WCUR is the index of an INTERNAL node; in the other states it is NIL (R30). -/
def State.WalkerPlaced (s : State) : Prop :=
  if s.wState = .atInternal then s.wCur ≠ Config.nil ∧ (s.nodeAt s.wCur).kind = .internal else s.wCur = Config.nil

/-- ERR_CMD is 0 while no error was raised, and ERR holds a code of R240 (R32, R212, R240). -/
def State.ErrorsLegal (s : State) : Prop := (s.err = 0x00#8 → s.errCmd = 0#32) ∧ s.err.toNat ≤ 0x0D

/-- The sizes of the arena: NODE_CNT is at most 511 and every record at or above it is EMPTY (R24). -/
def State.ArenaCounted (s : State) : Prop :=
  s.nodeCnt.toNat ≤ Config.nodeMax ∧ ∀ i : NodeIx, s.nodeCnt.toNat ≤ i.toNat → s.nodeAt i = Node.blank

/-- The fields of a record by its kind: sym is 0 but in a LEAF, and the children are NIL but in an INTERNAL node (R23). -/
def State.RecordsShaped (s : State) : Prop :=
  ∀ i : NodeIx, ((s.nodeAt i).kind ≠ .leaf → (s.nodeAt i).sym = 0#8) ∧
    ((s.nodeAt i).kind ≠ .internal → (s.nodeAt i).zero = Config.nil ∧ (s.nodeAt i).one = Config.nil)

/-- What TREE_VALID = 1 means for ROOT and the child indices (R25, first two points). -/
def State.TreeRooted (s : State) : Prop :=
  s.treeValid = true → s.root ≠ Config.nil ∧ (s.nodeAt s.root).kind = .internal ∧
    ∀ (i : NodeIx) (x : Bool), (s.nodeAt i).kind = .internal →
      (s.nodeAt i).branch x = Config.nil ∨ ((s.nodeAt i).branch x).toNat < s.nodeCnt.toNat

/-- The record that a path leads to from record i, walking INTERNAL records only (R130). -/
def follow (arena : Table Node) : NodeIx → Bits → Option NodeIx
  | i, [] => some i
  | i, x :: p =>
    if i = Config.nil then none
    else if (arenaAt arena i).kind = .internal then follow arena ((arenaAt arena i).branch x) p else none

/-- The members of R110's priority structure Q when record m is made, of n leaves: the records below m that no internal record below m
has as a child. -/
def Unmerged (arena : Table Node) (n m i : Nat) : Prop :=
  i < m ∧ ∀ j, n ≤ j → j < m → (Table.get Node.blank arena j).zero.toNat ≠ i ∧ (Table.get Node.blank arena j).one.toNat ≠ i

/-- The order of R110's priority key, (weight, arena index). -/
def KeyBefore (arena : Table Node) (i j : Nat) : Prop :=
  (Table.get Node.blank arena i).weight.toNat < (Table.get Node.blank arena j).weight.toNat ∨
    ((Table.get Node.blank arena i).weight.toNat = (Table.get Node.blank arena j).weight.toNat ∧ i < j)

/-- No record of an arena is the child of two records, nor twice of one (R25, third point). -/
def Unshared (arena : Table Node) : Prop :=
  ∀ (i j : NodeIx) (x y : Bool), (arenaAt arena i).kind = .internal → (arenaAt arena j).kind = .internal →
    (arenaAt arena i).branch x = (arenaAt arena j).branch y → (arenaAt arena i).branch x ≠ Config.nil → i = j ∧ x = y

/-- No symbol of an arena is in two leaves (R117, R130). -/
def SymbolsOnce (arena : Table Node) : Prop :=
  ∀ i j : NodeIx, (arenaAt arena i).kind = .leaf → (arenaAt arena j).kind = .leaf → (arenaAt arena i).sym = (arenaAt arena j).sym → i = j

/-- What TREE_VALID = 1 means for sharing (R25, third point). -/
def State.ChildrenUnshared (s : State) : Prop := s.treeValid = true → Unshared s.node

/-- What TREE_VALID = 1 means for the symbols of the leaves (R117, R130). -/
def State.LeavesDistinct (s : State) : Prop := s.treeValid = true → SymbolsOnce s.node

/-- A valid tree has a leaf, so CG_GEN gives at least one code (R117, R131, R154). -/
def State.TreeHasLeaf (s : State) : Prop :=
  s.treeValid = true → ∃ p i, follow s.node s.root p = some i ∧ i ≠ Config.nil ∧ (s.nodeAt i).kind = .leaf

/-- A valid code table is the one that GenCodes gives the current tree (R27, R131, R275). -/
def State.CodesCurrent (s : State) : Prop := s.codeValid = true → genCodes s.node s.root = .ok ⟨s.codeLen, s.codeBits⟩

/-- A valid code table is prefix-free (R27, R134). -/
def State.PrefixFree (s : State) : Prop :=
  s.codeValid = true → ∀ a b : Byte, a ≠ b → s.codeLenAt a ≠ 0#8 → s.codeLenAt b ≠ 0#8 → ¬ s.codeBitsAt a <+: s.codeBitsAt b

/-- The code generator ends on a valid tree: its records form a tree with no path longer than 255 (R25, R117, R130). -/
def State.TreeGenerates (s : State) : Prop := s.treeValid = true → ∃ t, genCodes s.node s.root = .ok t

/-- IN_POS is inside IN (R31, R51). -/
def State.InPosInside (s : State) : Prop := s.inPos.toNat ≤ s.inp.length

/-- The host's duty on its next act: it does not bind OUT while a session is open (R55). -/
def State.HostKeepsDuty (s : State) : Prop := ∀ bytes rest, s.port = .bindOut bytes :: rest → s.bpState = .idle

/-- No write from the present length of OUT on fails: the premise "every answer is Ok" for writes (R53). -/
def State.WritesOk (s : State) : Prop := ∀ n ∈ s.oracle.writeFails, n < s.out.length

/-- The entries of a code table in ascending symbol order, as HC_SER writes them (R150). -/
def State.entries (s : State) : List (Byte × Bits) :=
  (symbols.filter fun b => s.codeLenAt b != 0#8).map fun b => (b, s.codeBitsAt b)

end Sys2Proof.Machine
end

