-- ==== Sys2Proof/Certificates/Slice0/Obligations.lean ====
section
/-! DEFINITION. The statements for the provers, from the numbered rules of spec/. -/

open Sys2Proof Sys2Proof.Machine

/-! ### Encoding (30_encoding.md) -/

/-- R79, R75: decoding the word of a well-formed command gives it back, at every value of every operand. -/
def Obligations.DecodeOfEncode : Prop := ∀ i : Instr, i.wellFormed = true → decode (encode i) = .ok i

/-- R79: a legal word is exactly one command, whose word it is. -/
def Obligations.EncodeOfDecode : Prop :=
  ∀ (w : Word) (i : Instr), decode w = .ok i → encode i = w ∧ i.wellFormed = true

/-- R79, R78, R76, R77: a word is legal exactly when it passes the mask test of a row, and BP_INS its conditions too. -/
def Obligations.LegalExactlyByMask : Prop :=
  ∀ w : Word, (∃ i, decode w = .ok i) ↔
    ∃ r ∈ rows, w &&& r.format.mask = r.pattern ∧
      (r.opcode = 0x52#8 → 1 ≤ (w.extractLsb' 16 5).toNat ∧ (w.extractLsb' 16 5).toNat ≤ 16 ∧
        (w.extractLsb' 0 16).toNat < 2 ^ (w.extractLsb' 16 5).toNat)

/-- R80's worked encodings, decoded. -/
def Obligations.WorkedEncodingsDecode : Prop :=
  decode 0x11000061#32 = .ok (.frqAdd 0x61#8) ∧ decode 0x32000161#32 = .ok (.rdCodeW 1#3 0x61#8) ∧
  decode 0x2300020A#32 = .ok (.rdNwt true 10#9) ∧ decode 0x52030005#32 = .ok (.bpIns 3#5 5#16) ∧
  decode 0x61000001#32 = .ok (.dwBit true) ∧ decode 0x4300012C#32 = .ok (.rdHdrB 300#16) ∧
  decode 0x20000000#32 = .ok .tbBuild ∧ decode 0x01000000#32 = .ok .sreset

/-! ### The command cycle and errors (30_encoding.md R72, 60_exceptions.md) -/

/-- A step on a legal command word is that command on the state without it (R60, R72). -/
def Obligations.StepRunsDecodedCommand : Prop :=
  ∀ (s : State) (w : Word) (rest : List HostAct) (i : Instr), s.port = .command w :: rest → decode w = .ok i →
    step s = exec i { s with port := rest }

/-- R72, R76, R77, R78, R241: an illegal word raises ERR_ILLEGAL with the word as info, in FAULT too, and has no other effect. -/
def Obligations.IllegalWordRaises : Prop :=
  ∀ (s : State) (w : Word) (rest : List HostAct) (e : DecodeError), s.port = .command w :: rest → decode w = .error e →
    step s = .next { s with port := rest, rspCode := 0x01#8, rspData := w,
                            err := if s.err = 0x00#8 then 0x01#8 else s.err,
                            errCmd := if s.err = 0x00#8 then w else s.errCmd }

/-- R55, R271: the reset input resets the block and touches neither stream; binding replaces a stream (OUT only with no
session open). That binding IN leaves IN_POS and every register is the model's deduction, from R31's list of what writes IN_POS
(log 6). With no act pending the block waits, the model's reading of R271 (log 2). -/
def Obligations.HostActsStep : Prop :=
  ∀ (s : State) (rest : List HostAct) (bytes : List Byte),
    (s.port = .reset :: rest →
      step s = .next { State.reset with inp := s.inp, out := s.out, oracle := s.oracle, port := rest }) ∧
    (s.port = .bindIn bytes :: rest → step s = .next { s with inp := bytes, port := rest }) ∧
    (s.port = .bindOut bytes :: rest → s.bpState = .idle → step s = .next { s with out := bytes, port := rest }) ∧
    (s.port = [] → step s = .next s)

/-- R72, R242: in FAULT every legal command but four is answered RSP_IGNORED and has no other effect. -/
def Obligations.FaultGateIgnores : Prop :=
  ∀ (i : Instr) (s : State), i.wellFormed = true → s.err ≠ 0x00#8 → i ∉ [Instr.sreset, .rdStat, .rdErrCmd, .bpClose] →
    exec i s = .next { s with rspCode := 0xFF#8, rspData := 0#32 }

/-- R241: raising writes the response, and ERR and ERR_CMD exactly when ERR is 0; everything else stays. code(E) is R240's number. -/
def Obligations.RaiseCapturesFirst : Prop :=
  (ErrCode.illegal.code = 0x01#8 ∧ ErrCode.seq.code = 0x02#8 ∧ ErrCode.range.code = 0x03#8 ∧ ErrCode.io.code = 0x04#8 ∧
    ErrCode.hdrTrunc.code = 0x05#8 ∧ ErrCode.hdrMalformed.code = 0x06#8 ∧ ErrCode.hdrTree.code = 0x07#8 ∧
    ErrCode.streamTrunc.code = 0x08#8 ∧ ErrCode.streamBadPath.code = 0x09#8 ∧ ErrCode.degenerate.code = 0x0A#8 ∧
    ErrCode.termInInput.code = 0x0B#8 ∧ ErrCode.noCode.code = 0x0C#8 ∧ ErrCode.freqOvf.code = 0x0D#8) ∧
  ∀ (s : State) (e : ErrCode) (info w : Word),
    (s.err = 0x00#8 → s.raise e info w = { s with rspCode := e.code, rspData := info, err := e.code, errCmd := w }) ∧
    (s.err ≠ 0x00#8 → s.raise e info w = { s with rspCode := e.code, rspData := info })

/-- R32, R241: whichever command puts the block into FAULT, ERR_CMD is its word and ERR is the code it responded. -/
def Obligations.FirstErrorNamesCommand : Prop :=
  ∀ (i : Instr) (s t : State), s.err = 0x00#8 → exec i s = .next t → t.err ≠ 0x00#8 → t.errCmd = encode i ∧ t.rspCode = t.err

/-- R242, R246, R247: in FAULT no command but SRESET changes ERR or ERR_CMD. -/
def Obligations.FaultIsSticky : Prop :=
  ∀ (i : Instr) (s t : State), i ≠ .sreset → s.err ≠ 0x00#8 → exec i s = .next t → t.err = s.err ∧ t.errCmd = s.errCmd

/-- R242: in FAULT no command but SRESET changes a table, the walker, IN_POS or OUT, but for BP_CLOSE releasing the session. -/
def Obligations.FaultFreezesBlock : Prop :=
  ∀ (i : Instr) (s t : State), i ≠ .sreset → s.err ≠ 0x00#8 → exec i s = .next t →
    (i ≠ .bpClose → t = { s with rspCode := t.rspCode, rspData := t.rspData }) ∧
    t = { s with rspCode := t.rspCode, rspData := t.rspData, bpState := t.bpState, bb := t.bb, bbN := t.bbN, out := t.out }

/-- R274: every precondition the block checks, the info word when it is missing, and no other effect. BP_STATE's values are R29's. -/
def Obligations.SequenceErrors : Prop :=
  (BpState.idle.bits = 0#2 ∧ BpState.opened.bits = 1#2 ∧ BpState.hdrDone.bits = 2#2) ∧
  ∀ s : State,
    (s.err = 0x00#8 → s.bpState ≠ .idle → ∀ i ∈ [Instr.tbBuild, .cgGen, .hcSer, .hcLoad, .bpOpen, .dwBit false, .dwBit true, .decByte],
      exec i s = .next (s.raise .seq (s.bpState.bits.setWidth 32) (encode i))) ∧
    (s.err = 0x00#8 → s.bpState = .idle → s.treeValid = false → ∀ i ∈ [Instr.cgGen, .dwBit false, .dwBit true, .decByte],
      exec i s = .next (s.raise .seq 0x100#32 (encode i))) ∧
    (s.err = 0x00#8 → s.treeValid = false → exec .decEnd s = .next (s.raise .seq 0x100#32 (encode .decEnd))) ∧
    (s.err = 0x00#8 → s.bpState = .idle → s.codeValid = false → exec .hcSer s = .next (s.raise .seq 0x200#32 (encode .hcSer))) ∧
    (s.err = 0x00#8 → s.bpState ≠ .hdrDone → ∀ i : Instr, i.wellFormed = true →
      ((∃ n v, i = .bpIns n v) ∨ (∃ sym, i = .encSym sym) ∨ i = .encTerm) →
      exec i s = .next (s.raise .seq (s.bpState.bits.setWidth 32) (encode i))) ∧
    (s.err = 0x00#8 → s.bpState = .hdrDone → s.codeValid = false → ∀ i : Instr, ((∃ sym, i = .encSym sym) ∨ i = .encTerm) →
      exec i s = .next (s.raise .seq 0x200#32 (encode i))) ∧
    (s.err = 0x00#8 → s.bpState ≠ .opened → exec .bpHdr s = .next (s.raise .seq (s.bpState.bits.setWidth 32) (encode .bpHdr))) ∧
    (s.err = 0x00#8 → s.bpState = .opened → s.hdrValid = false → exec .bpHdr s = .next (s.raise .seq 0x300#32 (encode .bpHdr))) ∧
    (s.bpState = .idle → exec .bpClose s = .next (s.raise .seq 0#32 (encode .bpClose)))

/-- R101, R112, R114, R115, R159, R176, R177, R195, R240: the operand and stream-end errors, with their info words and no
other effect. The terminator's own byte is refused before its code is looked up. -/
def Obligations.OperandErrors : Prop :=
  ∀ s : State, s.err = 0x00#8 →
    exec (.frqAdd 0x03#8) s = .next (s.raise .termInInput 0x03#32 (encode (.frqAdd 0x03#8))) ∧
    (∀ sym : Byte, sym ≠ 0x03#8 → s.freqAt sym = 0xFFFFFFFF#32 →
      exec (.frqAdd sym) s = .next (s.raise .freqOvf (sym.setWidth 32) (encode (.frqAdd sym)))) ∧
    (s.bpState = .idle → (∀ sym, s.freqAt sym = 0#32) → exec .tbBuild s = .next (s.raise .degenerate 0#32 (encode .tbBuild))) ∧
    exec (.rdNode 511#9) s = .next (s.raise .range 511#32 (encode (.rdNode 511#9))) ∧
    (∀ h : Bool, exec (.rdNwt h 511#9) s = .next (s.raise .range 511#32 (encode (.rdNwt h 511#9)))) ∧
    (∀ idx : BitVec 16, s.hdrLen.toNat ≤ idx.toNat → exec (.rdHdrB idx) s = .next (s.raise .range (idx.setWidth 32) (encode (.rdHdrB idx)))) ∧
    (s.bpState = .hdrDone → s.codeValid = true →
      exec (.encSym 0x03#8) s = .next (s.raise .termInInput 0x03#32 (encode (.encSym 0x03#8))) ∧
      (∀ sym : Byte, sym ≠ 0x03#8 → s.codeLenAt sym = 0#8 →
        exec (.encSym sym) s = .next (s.raise .noCode (sym.setWidth 32) (encode (.encSym sym)))) ∧
      (s.codeLenAt 0x03#8 = 0#8 → exec .encTerm s = .next (s.raise .noCode 0x03#32 (encode .encTerm)))) ∧
    (s.treeValid = true → s.wState = .atRoot → exec .decEnd s = .next (s.raise .streamTrunc 0#32 (encode .decEnd))) ∧
    (s.treeValid = true → s.wState = .atInternal → exec .decEnd s = .next (s.raise .streamTrunc 1#32 (encode .decEnd)))

/-! ### Control (46_control.md) and reset (70_reset_and_hazards.md) -/

/-- R270: the value of every piece of state after reset, as its commands would read it. -/
def Obligations.ResetStateValues : Prop :=
  (∀ sym : Byte, State.reset.freqAt sym = if sym = 0x03#8 then 1#32 else 0#32) ∧
  (∀ i : NodeIx, State.reset.nodeAt i = ⟨.empty, 0#8, 511#9, 511#9, 0#64⟩) ∧
  State.reset.nodeCnt = 0#10 ∧ State.reset.root = 511#9 ∧ State.reset.treeValid = false ∧
  (∀ sym : Byte, State.reset.codeLenAt sym = 0#8 ∧ State.reset.codeBitsAt sym = []) ∧ State.reset.codeValid = false ∧
  (∀ i : Nat, State.reset.hdrAt i = 0x00#8) ∧ State.reset.hdrLen = 0#16 ∧ State.reset.hdrValid = false ∧
  State.reset.bpState = .idle ∧ State.reset.bbN = 0#3 ∧ State.reset.bb = [] ∧
  State.reset.wState = .atRoot ∧ State.reset.wCur = 511#9 ∧ State.reset.inPos = 0#64 ∧
  State.reset.err = 0x00#8 ∧ State.reset.errCmd = 0#32 ∧ State.reset.rspCode = 0x00#8 ∧ State.reset.rspData = 0#32 ∧
  State.reset.status = 0#32

/-- R210, R37: SRESET gives the reset state in every state, FAULT too, and touches neither stream. It clears HDR's bytes as R210's
pseudocode does, which R28's prose says otherwise (log 22). -/
def Obligations.SresetRestores : Prop :=
  ∀ s : State, exec .sreset s = .next { State.reset with inp := s.inp, out := s.out, oracle := s.oracle, port := s.port }

/-- R34, R211: every field of the word that RD_STAT reads, in every state, FAULT too, with R29's and R30's values of BP_STATE and
WSTATE. BB_IMAGE is the byte that BP_CLOSE would emit. -/
def Obligations.StatusWordFields : Prop :=
  (BpState.idle.bits = 0#2 ∧ BpState.opened.bits = 1#2 ∧ BpState.hdrDone.bits = 2#2) ∧
  (WState.atRoot.bits = 0#2 ∧ WState.atInternal.bits = 1#2 ∧ WState.terminated.bits = 2#2) ∧
  ∀ s : State, ∃ d : Word, exec .rdStat s = .next { s with rspCode := 0x00#8, rspData := d } ∧
    d.extractLsb' 0 8 = s.err ∧ d.getLsbD 8 = decide (s.err ≠ 0x00#8) ∧ d.getLsbD 9 = s.treeValid ∧ d.getLsbD 10 = s.codeValid ∧
    d.getLsbD 11 = s.hdrValid ∧ d.extractLsb' 12 2 = s.bpState.bits ∧ d.extractLsb' 14 3 = s.bbN ∧
    d.extractLsb' 17 2 = s.wState.bits ∧ d.getLsbD 19 = false ∧
    (d.extractLsb' 20 8).toNat = ((List.range s.bbN.toNat).map fun i => if s.bb.getD i false then 2 ^ (7 - i) else 0).sum ∧
    d.extractLsb' 28 4 = 0#4 ∧
    (s.bpState ≠ .idle → s.bbN ≠ 0#3 → s.out.length ∉ s.oracle.writeFails →
      ∃ t, exec .bpClose s = .next t ∧ t.out = s.out ++ [d.extractLsb' 20 8])

/-- R212, R213, R102, R113, R132, R158, R159: what the read-back commands respond; nothing else changes. -/
def Obligations.ReadBackData : Prop :=
  ∀ s : State, exec .rdErrCmd s = .next { s with rspCode := 0x00#8, rspData := s.errCmd } ∧
    (s.err = 0x00#8 →
      exec .rdInPos s = .next { s with rspCode := 0x00#8, rspData := BitVec.ofNat 32 s.inPos.toNat } ∧
      (∀ sym, exec (.rdFreq sym) s = .next { s with rspCode := 0x00#8, rspData := s.freqAt sym }) ∧
      (∀ sym, exec (.rdCLen sym) s = .next { s with rspCode := 0x00#8, rspData := (s.codeLenAt sym).setWidth 32 }) ∧
      (∃ d : Word, exec .rdRoot s = .next { s with rspCode := 0x00#8, rspData := d } ∧ d.getLsbD 31 = s.treeValid ∧
        d.extractLsb' 26 5 = 0#5 ∧ d.extractLsb' 16 10 = s.nodeCnt ∧ d.extractLsb' 9 7 = 0#7 ∧ d.extractLsb' 0 9 = s.root) ∧
      (∃ d : Word, exec .rdHdrLen s = .next { s with rspCode := 0x00#8, rspData := d } ∧ d.getLsbD 31 = s.hdrValid ∧
        d.extractLsb' 16 15 = 0#15 ∧ d.extractLsb' 0 16 = s.hdrLen) ∧
      (∀ idx : BitVec 16, idx.toNat < s.hdrLen.toNat →
        exec (.rdHdrB idx) s = .next { s with rspCode := 0x00#8, rspData := (s.hdrAt idx.toNat).setWidth 32 }))

/-- R114: the fields of the word that RD_NODE responds, for every index but NIL, with R23's values of kind. -/
def Obligations.RdNodeFields : Prop :=
  (NodeKind.empty.bits = 0#2 ∧ NodeKind.leaf.bits = 1#2 ∧ NodeKind.internal.bits = 2#2 ∧ NodeKind.placeholder.bits = 3#2) ∧
  ∀ (s : State) (idx : NodeIx), s.err = 0x00#8 → idx ≠ 511#9 →
    ∃ d : Word, exec (.rdNode idx) s = .next { s with rspCode := 0x00#8, rspData := d } ∧
      d.extractLsb' 28 4 = 0#4 ∧ d.extractLsb' 26 2 = (s.nodeAt idx).kind.bits ∧ d.extractLsb' 17 9 = (s.nodeAt idx).zero ∧
      d.extractLsb' 8 9 = (s.nodeAt idx).one ∧ d.extractLsb' 0 8 = (s.nodeAt idx).sym

/-- R115, R58: the two halves of a weight. -/
def Obligations.RdNwtHalves : Prop :=
  ∀ (s : State) (idx : NodeIx), s.err = 0x00#8 → idx ≠ 511#9 →
    ∃ lo hi : Word, exec (.rdNwt false idx) s = .next { s with rspCode := 0x00#8, rspData := lo } ∧
      exec (.rdNwt true idx) s = .next { s with rspCode := 0x00#8, rspData := hi } ∧
      (s.nodeAt idx).weight.toNat = hi.toNat * 2 ^ 32 + lo.toNat

/-- R133: bit 31 - j of the word that RD_CODEW responds is code bit 32w + j, and 0 at or past the length. -/
def Obligations.RdCodeWBits : Prop :=
  ∀ (s : State) (w : BitVec 3) (sym : Byte), s.err = 0x00#8 →
    ∃ d : Word, exec (.rdCodeW w sym) s = .next { s with rspCode := 0x00#8, rspData := d } ∧
      ∀ j < 32, d.getLsbD (31 - j) =
        (decide (32 * w.toNat + j < (s.codeLenAt sym).toNat) && (s.codeBitsAt sym).getD (32 * w.toNat + j) false)

/-! ### Frequency table (40_frequency.md) -/

/-- R100, R101: FRQ_CLR and FRQ_ADD, counter by counter; nothing but FREQ and the response changes. -/
def Obligations.CountingCommands : Prop :=
  ∀ s : State, s.err = 0x00#8 →
    (∃ t, exec .frqClr s = .next t ∧ t = { s with freq := t.freq, rspCode := 0x00#8, rspData := 0#32 } ∧
      ∀ b : Byte, t.freqAt b = if b = 0x03#8 then 1#32 else 0#32) ∧
    (∀ sym : Byte, sym ≠ 0x03#8 → s.freqAt sym ≠ 0xFFFFFFFF#32 →
      ∃ t, exec (.frqAdd sym) s = .next t ∧ t = { s with freq := t.freq, rspCode := 0x00#8, rspData := t.freqAt sym } ∧
        (t.freqAt sym).toNat = (s.freqAt sym).toNat + 1 ∧ ∀ b : Byte, b ≠ sym → t.freqAt b = s.freqAt b)

/-- R103, first point: after SRESET and FRQ_ADD of every byte of x, each counter holds the number of its byte's occurrences, and
the terminator's holds 1. -/
def Obligations.CountsAreOccurrences : Prop :=
  ∀ (s : State) (x : List Byte), (∀ c ∈ x, c ≠ 0x03#8) → (∀ c : Byte, x.count c < 2 ^ 32) →
    ∃ t, issueAll (.sreset :: x.map .frqAdd) s = .success t ∧ t.succeeded = true ∧ t.freqAt 0x03#8 = 1#32 ∧
      ∀ sym : Byte, sym ≠ 0x03#8 → (t.freqAt sym).toNat = x.count sym

/-! ### Tree builder (41_tree_builder.md) -/

/-- R110: K holds exactly the keys with their counts, in ascending order of (FREQ[s], s). -/
def Obligations.KeysSortedByCountAndSymbol : Prop :=
  ∀ freq : Table Word,
    (sortedKeys freq).Pairwise (fun a b => a.1 < b.1 ∨ (a.1 = b.1 ∧ a.2 < b.2)) ∧
    ∀ w b : Nat, (w, b) ∈ sortedKeys freq ↔ b < 256 ∧ w = (Table.get 0#32 freq b).toNat ∧ w ≠ 0

/-- R110: each round of the merge loop removes the two least pairs, the first of them the zero branch, and puts their sum back with
the new record's index. R110's priority structure is a set; that it is a list and stays ascending is the model's form of it (log 14). -/
def Obligations.RoundMergesTwoLeast : Prop :=
  ∀ (fuel : Nat) (q : List (Nat × Nat)) (next : Nat) (t : Table Node), q.Pairwise (fun a b => keyLe a b = true) → 2 ≤ q.length →
    ∃ x y rest q', q.Perm (x :: y :: rest) ∧ keyLe x y = true ∧ (∀ z ∈ rest, keyLe x z = true ∧ keyLe y z = true) ∧
      mergeAll (fuel + 1) q next t =
        mergeAll fuel q' (next + 1)
          (Table.set Node.blank t next
            ⟨.internal, 0#8, BitVec.ofNat 9 x.2, BitVec.ofNat 9 y.2, BitVec.ofNat 64 (x.1 + y.1)⟩) ∧
      q'.Perm ((x.1 + y.1, next) :: rest) ∧ q'.Pairwise (fun a b => keyLe a b = true)

/-- R110, R117: a table with n ≥ 2 keys gives 2n - 1 records, the leaves first in the order of K, and the root last with the sum of all
counts as its weight. Each record from n on is INTERNAL and merges the two that come first, by (weight, index), of the records that are
then in Q: the first is its zero branch, the second its one branch, and its weight is the sum of theirs. Every other record is EMPTY. -/
def Obligations.BuiltTreeShape : Prop :=
  ∀ (freq : Table Word) (n : Nat), n = (sortedKeys freq).length → 2 ≤ n →
    ∃ b, buildTree (sortedKeys freq) = some b ∧ b.cnt = 2 * n - 1 ∧ b.root = 2 * n - 2 ∧ b.cnt ≤ 511 ∧
      (∀ (i : Nat) (w c : Nat), (sortedKeys freq)[i]? = some (w, c) →
        Table.get Node.blank b.arena i = ⟨.leaf, BitVec.ofNat 8 c, 511#9, 511#9, BitVec.ofNat 64 w⟩) ∧
      (∀ m, n ≤ m → m < 2 * n - 1 → ∃ x y, Unmerged b.arena n m x ∧ Unmerged b.arena n m y ∧ KeyBefore b.arena x y ∧
        (∀ z, Unmerged b.arena n m z → z ≠ x → z ≠ y → KeyBefore b.arena y z) ∧
        (Table.get Node.blank b.arena m).kind = .internal ∧ (Table.get Node.blank b.arena m).sym = 0#8 ∧
        (Table.get Node.blank b.arena m).zero = BitVec.ofNat 9 x ∧ (Table.get Node.blank b.arena m).one = BitVec.ofNat 9 y ∧
        (Table.get Node.blank b.arena m).weight.toNat =
          (Table.get Node.blank b.arena x).weight.toNat + (Table.get Node.blank b.arena y).weight.toNat) ∧
      (∀ i, 2 * n - 1 ≤ i → Table.get Node.blank b.arena i = Node.blank) ∧
      (Table.get Node.blank b.arena b.root).weight.toNat = ((sortedKeys freq).map Prod.fst).sum

/-- R111: the degenerate tree, record by record. -/
def Obligations.DegenerateTree : Prop :=
  ∀ w c : Nat, ∃ b, buildTree [(w, c)] = some b ∧ b.cnt = 3 ∧ b.root = 2 ∧
    ∀ i : Nat, Table.get Node.blank b.arena i =
      if i = 0 then ⟨.leaf, BitVec.ofNat 8 c, 511#9, 511#9, BitVec.ofNat 64 w⟩
      else if i = 1 then ⟨.placeholder, 0#8, 511#9, 511#9, 0#64⟩
      else if i = 2 then ⟨.internal, 0#8, 0#9, 1#9, BitVec.ofNat 64 w⟩
      else Node.blank

/-- R112: TB_BUILD outside a session. The terminator's count makes a key, so it always builds. -/
def Obligations.TbBuildResult : Prop :=
  ∀ s : State, s.err = 0x00#8 → s.bpState = .idle → s.TerminatorCounted →
    ∃ b t, buildTree (sortedKeys s.freq) = some b ∧ exec .tbBuild s = .next t ∧
      t.node = b.arena ∧ t.nodeCnt = BitVec.ofNat 10 b.cnt ∧ t.root = BitVec.ofNat 9 b.root ∧ t.treeValid = true ∧
      (∀ sym, t.codeLenAt sym = 0#8 ∧ t.codeBitsAt sym = []) ∧ t.codeValid = false ∧ t.hdrValid = false ∧ t.hdrLen = 0#16 ∧
      t.wState = .atRoot ∧ t.wCur = 511#9 ∧ t.rspCode = 0x00#8 ∧
      t.rspData = ((t.nodeCnt.setWidth 32 <<< 16) ||| t.root.setWidth 32)

/-! ### Code generator (42_code_generator.md) -/

/-- R131: CG_GEN outside a session on a tree that GenCodes walks to its end. -/
def Obligations.CgGenResult : Prop :=
  ∀ (s : State) (c : CodeTable), s.err = 0x00#8 → s.bpState = .idle → s.treeValid = true → genCodes s.node s.root = .ok c →
    ∃ t, exec .cgGen s = .next t ∧ t.codeLen = c.len ∧ t.codeBits = c.bits ∧ t.codeValid = true ∧ t.hdrValid = false ∧
      t.hdrLen = 0#16 ∧ t.rspCode = 0x00#8 ∧
      t.rspData = BitVec.ofNat 32 (symbols.filter fun b => t.codeLenAt b != 0#8).length

/-- R130, R135: the generated codes are exactly the paths from the root to the leaves, at most 255 long, with CODE_LEN their lengths.
Where no record is shared and no symbol is in two leaves, as in every valid tree, the code of a leaf's symbol is the leaf's path. -/
def Obligations.CodesArePaths : Prop :=
  ∀ (arena : Table Node) (root : NodeIx) (c : CodeTable), genCodes arena root = .ok c →
    (∀ sym : Byte, (Table.get 0#8 c.len sym.toNat).toNat = (Table.get [] c.bits sym.toNat).length ∧
      (Table.get [] c.bits sym.toNat ≠ [] →
        ∃ i, follow arena root (Table.get [] c.bits sym.toNat) = some i ∧ i ≠ Config.nil ∧
          (arenaAt arena i).kind = .leaf ∧ (arenaAt arena i).sym = sym)) ∧
    (∀ (p : Bits) (i : NodeIx), p ≠ [] → follow arena root p = some i → i ≠ Config.nil → (arenaAt arena i).kind = .leaf →
      p.length ≤ 255 ∧ Table.get [] c.bits (arenaAt arena i).sym.toNat ≠ [] ∧
      (Unshared arena → SymbolsOnce arena → Table.get [] c.bits (arenaAt arena i).sym.toNat = p))

/-- R134, R27: after a CG_GEN that succeeds the code table is prefix-free, and every step keeps a valid code table prefix-free, HC_LOAD's
commit included. -/
def Obligations.CodesPrefixFree : Prop :=
  (∀ s t : State, exec .cgGen s = .next t → t.rspCode = 0x00#8 → ∀ a b : Byte, a ≠ b → t.codeLenAt a ≠ 0#8 → t.codeLenAt b ≠ 0#8 →
    ¬ t.codeBitsAt a <+: t.codeBitsAt b) ∧
  (∀ s t : State, s.PrefixFree → step s = .next t → t.PrefixFree)

/-! ### Header codec (43_header_codec.md) -/

/-- R150, R151: HC_SER writes the serialized table into HDR byte by byte, and leaves the bytes past it. The bytes are, for each symbol
with a code in ascending order, the symbol, 0x30 or 0x31 per code bit, and 0x1E. R152: HDR_LEN is the sum of CODE_LEN + 2 over them, and
the serialization of a valid code table never exceeds HDR_MAX, in a state that keeps three invariants. -/
def Obligations.HcSerResult : Prop :=
  (∀ s : State, s.err = 0x00#8 → s.bpState = .idle → s.codeValid = true → s.serialize.length ≤ 65535 →
    ∃ t, exec .hcSer s = .next t ∧ t.hdrLen.toNat = s.serialize.length ∧ t.hdrValid = true ∧
      (∀ i < s.serialize.length, t.hdrAt i = s.serialize.getD i 0x00#8) ∧ (∀ i ≥ s.serialize.length, t.hdrAt i = s.hdrAt i) ∧
      (List.range t.hdrLen.toNat).map t.hdrAt = (List.range 256).flatMap (fun n =>
        if s.codeLenAt (BitVec.ofNat 8 n) = 0#8 then []
        else [BitVec.ofNat 8 n] ++ (List.range (s.codeLenAt (BitVec.ofNat 8 n)).toNat).map (fun j =>
          if (s.codeBitsAt (BitVec.ofNat 8 n)).getD j false then 0x31#8 else 0x30#8) ++ [0x1E#8]) ∧
      t.hdrLen.toNat = ((List.range 256).map fun n => if s.codeLenAt (BitVec.ofNat 8 n) = 0#8 then 0
        else (s.codeLenAt (BitVec.ofNat 8 n)).toNat + 2).sum ∧
      t = { s with hdr := t.hdr, hdrLen := t.hdrLen, hdrValid := t.hdrValid, rspCode := 0x00#8, rspData := t.hdrLen.setWidth 32 }) ∧
  (∀ s : State, s.codeValid = true → s.CodesCurrent → s.StagesOrdered → s.ChildrenUnshared → s.serialize.length ≤ 65535)

/-- R57: the length prefix is written least significant byte first and read back as the value. -/
def Obligations.LengthPrefixRoundTrip : Prop :=
  ∀ v : Word, ∃ b0 b1 b2 b3 : Byte, le32 v = [b0, b1, b2, b3] ∧ le32Value b0 b1 b2 b3 = v.toNat ∧
    le32Value b0 b1 b2 b3 = b0.toNat + b1.toNat * 2 ^ 8 + b2.toNat * 2 ^ 16 + b3.toNat * 2 ^ 24 ∧
    b0 = v.extractLsb' 0 8 ∧ b1 = v.extractLsb' 8 8 ∧ b2 = v.extractLsb' 16 8 ∧ b3 = v.extractLsb' 24 8

/-- R153 to R157: HC_LOAD of a prefix and a block that parses and reconstructs, with every read of it Ok. The tree and the code
table it commits belong together: GenCodes of the tree gives the table (R131's corner case, R156). -/
def Obligations.HcLoadCommits : Prop :=
  ∀ (s : State) (block rest : List Byte) (es : List (Byte × Bits)) (arena : Table Node) (cnt : Nat),
    s.err = 0x00#8 → s.bpState = .idle → (∀ j < 4 + block.length, s.inPos.toNat + j ∉ s.oracle.readFails) →
    s.inPos.toNat + 4 + block.length < 2 ^ 64 →
    s.inp.drop s.inPos.toNat = le32 (BitVec.ofNat 32 block.length) ++ block ++ rest →
    0 < block.length → block.length ≤ 65535 → parseEntries block = .ok es → reconstruct es = .ok (arena, cnt) →
    ∃ t, exec .hcLoad s = .next t ∧ t.inPos.toNat = s.inPos.toNat + 4 + block.length ∧
      t.node = arena ∧ t.nodeCnt = BitVec.ofNat 10 cnt ∧ t.root = 0#9 ∧ t.treeValid = true ∧
      t.codeLen = (codesOf es).len ∧ t.codeBits = (codesOf es).bits ∧ t.codeValid = true ∧ t.hdrValid = false ∧ t.hdrLen = 0#16 ∧
      t.wState = .atRoot ∧ t.wCur = 511#9 ∧ t.rspCode = 0x00#8 ∧
      t.rspData = ((BitVec.ofNat 32 es.length <<< 16) ||| BitVec.ofNat 32 block.length) ∧
      (∀ e ∈ es, (t.codeLenAt e.1).toNat = e.2.length ∧ t.codeBitsAt e.1 = e.2) ∧
      (∀ sym, sym ∉ es.map Prod.fst → t.codeLenAt sym = 0#8 ∧ t.codeBitsAt sym = []) ∧
      genCodes t.node t.root = .ok ⟨t.codeLen, t.codeBits⟩

/-- R157, R244: an HC_LOAD that ends in an error leaves everything but IN_POS, which has only grown, and the error's record. R51, R153
to R157, R240: which error it raises, with which info and IN_POS, whichever of its steps meets it; `p + j` below is the position of
its j-th byte. R156: the entry that Reconstruct refuses is the first whose symbol came before, whose code and an earlier one are
prefixes of one another, or for whose new records (one per prefix that no earlier code has) the arena of 511 has no room. An accepted entry adds its records in
creation order from index cnt on, each of weight 0, the leaf last; before the first entry the arena is the bare root. -/
def Obligations.HcLoadErrorKeepsTables : Prop :=
  (∀ s t : State, exec .hcLoad s = .next t → t.rspCode ≠ 0x00#8 →
    t = { s with inPos := t.inPos, rspCode := t.rspCode, rspData := t.rspData, err := t.err, errCmd := t.errCmd } ∧
    s.inPos.toNat ≤ t.inPos.toNat) ∧
  (∀ (s : State) (p n : Nat), s.err = 0x00#8 → s.bpState = .idle → s.inPos.toNat = p →
    -- n bytes are read without an error, and the next one is not there or its read fails
    p + n < 2 ^ 64 → p + n ≤ s.inp.length → (∀ j < n, p + j ∉ s.oracle.readFails) →
    -- inside the prefix
    (n < 4 → s.inp.length = p + n →
      exec .hcLoad s = .next (({ s with inPos := BitVec.ofNat 64 (p + n) } : State).raise .hdrTrunc (BitVec.ofNat 32 n) (encode .hcLoad))) ∧
    (n < 4 → p + n < s.inp.length → p + n ∈ s.oracle.readFails →
      exec .hcLoad s = .next (({ s with inPos := BitVec.ofNat 64 (p + n) } : State).raise .io (BitVec.ofNat 32 (p + n)) (encode .hcLoad))) ∧
    -- inside the block of the length that the prefix gives
    (∀ (len : Nat) (rest : List Byte), 4 ≤ n → n < 4 + len → 0 < len → len ≤ 65535 →
      s.inp.drop p = le32 (BitVec.ofNat 32 len) ++ rest →
      (s.inp.length = p + n →
        exec .hcLoad s = .next (({ s with inPos := BitVec.ofNat 64 (p + n) } : State).raise .hdrTrunc (BitVec.ofNat 32 n) (encode .hcLoad))) ∧
      (p + n < s.inp.length → p + n ∈ s.oracle.readFails →
        exec .hcLoad s = .next (({ s with inPos := BitVec.ofNat 64 (p + n) } : State).raise .io (BitVec.ofNat 32 (p + n)) (encode .hcLoad)))) ∧
    -- a length that is 0 or too large
    (∀ (v : Word) (rest : List Byte), n = 4 → s.inp.drop p = le32 v ++ rest → (v = 0#32 ∨ 65535 < v.toNat) →
      exec .hcLoad s = .next (({ s with inPos := BitVec.ofNat 64 (p + 4) } : State).raise .hdrMalformed v (encode .hcLoad))) ∧
    -- a whole block that does not parse, or does not reconstruct
    (∀ block rest : List Byte, n = 4 + block.length → 0 < block.length → block.length ≤ 65535 →
      s.inp.drop p = le32 (BitVec.ofNat 32 block.length) ++ block ++ rest →
      (∀ e k, parseEntries block = .error (e, k) →
        exec .hcLoad s = .next (({ s with inPos := BitVec.ofNat 64 (p + n) } : State).raise e (BitVec.ofNat 32 k) (encode .hcLoad))) ∧
      (∀ es e k, parseEntries block = .ok es → reconstruct es = .error (e, k) →
        exec .hcLoad s = .next (({ s with inPos := BitVec.ofNat 64 (p + n) } : State).raise e (BitVec.ofNat 32 k) (encode .hcLoad))))) ∧
  (∀ (pre post : List (Byte × Bits)) (sym : Byte) (c : Bits) (arena : Table Node) (cnt new : Nat),
    (∀ e ∈ pre, e.2 ≠ [] ∧ e.2.length ≤ 255) → c ≠ [] → c.length ≤ 255 → reconstruct pre = .ok (arena, cnt) →
    new = ((List.range c.length).filter fun j => pre.all fun e => !(c.take (j + 1)).isPrefixOf e.2).length →
    ((sym ∈ pre.map Prod.fst ∨ (∃ e ∈ pre, e.2 <+: c ∨ c <+: e.2) ∨ 511 < cnt + new) →
      reconstruct (pre ++ (sym, c) :: post) = .error (.hdrTree, pre.length)) ∧
    (¬(sym ∈ pre.map Prod.fst ∨ (∃ e ∈ pre, e.2 <+: c ∨ c <+: e.2) ∨ 511 < cnt + new) →
      0 < new ∧ ∃ arena' i, reconstruct (pre ++ [(sym, c)]) = .ok (arena', cnt + new) ∧
        follow arena 0#9 (c.take (c.length - new)) = some i ∧
        -- record i gets its branch, the new internal records lead to one another, the leaf is the last, and no other record changes
        ∀ k, Table.get Node.blank arena' k =
          if k = i.toNat then
            let r := Table.get Node.blank arena k
            if c.getD (c.length - new) false then { r with one := BitVec.ofNat 9 cnt } else { r with zero := BitVec.ofNat 9 cnt }
          else if cnt ≤ k ∧ k + 1 < cnt + new then
            if c.getD (c.length - new + (k + 1 - cnt)) false then ⟨.internal, 0#8, 511#9, BitVec.ofNat 9 (k + 1), 0#64⟩
            else ⟨.internal, 0#8, BitVec.ofNat 9 (k + 1), 511#9, 0#64⟩
          else if k + 1 = cnt + new then ⟨.leaf, sym, 511#9, 511#9, 0#64⟩
          else Table.get Node.blank arena k)) ∧
  (∃ arena, reconstruct [] = .ok (arena, 1) ∧
    ∀ k, Table.get Node.blank arena k = if k = 0 then ⟨.internal, 0#8, 511#9, 511#9, 0#64⟩ else Node.blank)

/-- R155, R150: what ParseEntries answers. After entries that are well formed, whatever their symbols are, a symbol with no separator
after it is truncated at its offset, and one whose characters are none, more than 255, or not 0x30 and 0x31 is malformed at its
offset. So the serialized table always parses back into its entries. -/
def Obligations.SerializedTableParses : Prop :=
  (∀ s : State, s.CodeLengthsMatch → parseEntries s.serialize = .ok s.entries) ∧
  (∀ (es : List (Byte × Bits)) (good : List Byte), (∀ e ∈ es, e.2 ≠ [] ∧ e.2.length ≤ 255) →
    good = es.flatMap (fun e => [e.1] ++ e.2.map (fun x => if x then 0x31#8 else 0x30#8) ++ [0x1E#8]) →
    parseEntries good = .ok es ∧
    ∀ (sym : Byte) (cs rest : List Byte), (∀ c ∈ cs, c ≠ 0x1E#8) →
      parseEntries (good ++ sym :: cs) = .error (.hdrTrunc, good.length) ∧
      ((cs = [] ∨ 255 < cs.length ∨ ∃ c ∈ cs, c ≠ 0x30#8 ∧ c ≠ 0x31#8) →
        parseEntries (good ++ sym :: cs ++ 0x1E#8 :: rest) = .error (.hdrMalformed, good.length)))

/-- R160: HC_SER, then HC_LOAD of LE32(HDR_LEN) and HDR as IN, succeeds and gives the same code table. The premises on s are invariants
that every step keeps. -/
def Obligations.HeaderRoundTrip : Prop :=
  ∀ (s t : State) (rest : List Byte), s.CodesCurrent → s.StagesOrdered → s.TreeRooted → s.ChildrenUnshared → s.TreeHasLeaf →
    exec .hcSer s = .next t → t.rspCode = 0x00#8 → s.oracle.readFails = [] →
    ∃ u, exec .hcLoad { t with inPos := 0#64, inp :=
        [t.hdrLen.extractLsb' 0 8, t.hdrLen.extractLsb' 8 8, 0x00#8, 0x00#8] ++ (List.range t.hdrLen.toNat).map t.hdrAt ++ rest } = .next u ∧
      u.rspCode = 0x00#8 ∧ ∀ sym, u.codeLenAt sym = s.codeLenAt sym ∧ u.codeBitsAt sym = s.codeBitsAt sym

/-! ### Bit packer (44_bit_packer.md) -/

/-- R174, R59: BP_HDR appends the length prefix and the header bytes, in order, when every write of them is Ok. R244: when the k-th is
the first that fails, the bytes before it stay in OUT, BP_STATE stays OPEN, and ERR_IO's info is the byte. -/
def Obligations.BpHdrWrites : Prop :=
  ∀ (s : State) (file : List Byte), s.err = 0x00#8 → s.bpState = .opened → s.hdrValid = true →
    file = [s.hdrLen.extractLsb' 0 8, s.hdrLen.extractLsb' 8 8, 0x00#8, 0x00#8] ++ (List.range s.hdrLen.toNat).map s.hdrAt →
    ((∀ j < file.length, s.out.length + j ∉ s.oracle.writeFails) →
      exec .bpHdr s = .next { s with out := s.out ++ file, bpState := .hdrDone, rspCode := 0x00#8, rspData := 4#32 + s.hdrLen.setWidth 32 }) ∧
    (∀ (k : Nat) (b : Byte), file[k]? = some b → (∀ j < k, s.out.length + j ∉ s.oracle.writeFails) →
      s.out.length + k ∈ s.oracle.writeFails →
      exec .bpHdr s = .next (({ s with out := s.out ++ file.take k } : State).raise .io (b.setWidth 32) (encode .bpHdr)))

/-- R56, R170, R171, R175, R176, R177, R180: with every write Ok, a payload command appends exactly its bits to what OUT and BB hold,
first bit first, and keeps fewer than 8 pending. R170, R244: when the write of the k-th full byte is the first that fails, the k
bytes before it stay in OUT, its 8 bits are dropped, BB is empty, the bits after it are not pushed, and ERR_IO's info is the byte. -/
def Obligations.PayloadBitsAppended : Prop :=
  ∀ s : State, s.err = 0x00#8 → s.bpState = .hdrDone → s.bb.length = s.bbN.toNat →
    ∀ (i : Instr) (c : Bits) (bits : List Byte → Bits),
      (bits = fun l => l.flatMap fun b => (List.range 8).map fun j => b.getLsbD (7 - j)) →
      ((∃ n v, i = .bpIns n v ∧ i.wellFormed = true ∧ c = (List.range n.toNat).map fun j => v.getLsbD (n.toNat - 1 - j)) ∨
       (∃ sym, i = .encSym sym ∧ sym ≠ 0x03#8 ∧ s.codeValid = true ∧ s.codeLenAt sym ≠ 0#8 ∧ c = s.codeBitsAt sym) ∨
       (i = .encTerm ∧ s.codeValid = true ∧ s.codeLenAt 0x03#8 ≠ 0#8 ∧ c = s.codeBitsAt 0x03#8)) →
      ((∀ j, 8 * (j + 1) ≤ s.bb.length + c.length → s.out.length + j ∉ s.oracle.writeFails) →
        ∃ t, exec i s = .next t ∧ bits t.out ++ t.bb = bits s.out ++ s.bb ++ c ∧ t.bb.length = t.bbN.toNat ∧
          s.out <+: t.out ∧ t.rspCode = 0x00#8 ∧
          t.rspData = ((BitVec.ofNat 32 (t.out.length - s.out.length) <<< 8) ||| t.bbN.setWidth 32) ∧
          t = { s with out := t.out, bb := t.bb, bbN := t.bbN, rspCode := t.rspCode, rspData := t.rspData }) ∧
      (∀ k, (∀ j < k, s.out.length + j ∉ s.oracle.writeFails) → s.out.length + k ∈ s.oracle.writeFails →
        8 * (k + 1) ≤ s.bb.length + c.length →
        ∃ bytes b, bytes.length = k ∧ bits bytes = (s.bb ++ c).take (8 * k) ∧ bits [b] = ((s.bb ++ c).drop (8 * k)).take 8 ∧
          exec i s = .next (({ s with out := s.out ++ bytes, bb := [], bbN := 0#3 } : State).raise .io (b.setWidth 32) (encode i)))

/-- R173, R178, R172, R56: BP_OPEN opens an empty session. BP_CLOSE of one with k pending bits writes one byte, the bits
and zeros, or none when k = 0; it releases the session in every state, FAULT too, whether or not the byte was written. -/
def Obligations.SessionOpensAndCloses : Prop :=
  (∀ s : State, s.err = 0x00#8 → s.bpState = .idle →
    exec .bpOpen s = .next { s with bpState := .opened, bb := [], bbN := 0#3, rspCode := 0x00#8, rspData := 0#32 }) ∧
  (∀ s : State, s.bpState ≠ .idle → ∃ t, exec .bpClose s = .next t ∧ t.bpState = .idle ∧ t.bb = [] ∧ t.bbN = 0#3) ∧
  (∀ s : State, s.bpState ≠ .idle → s.bbN = 0#3 →
    exec .bpClose s = .next { s with bb := [], bbN := 0#3, bpState := .idle, rspCode := 0x00#8, rspData := 0#32 }) ∧
  (∀ s : State, s.bpState ≠ .idle → s.bbN ≠ 0#3 → s.bb.length = s.bbN.toNat →
    ∃ pad : Byte, ((List.range 8).map fun j => pad.getLsbD (7 - j)) = s.bb ++ List.replicate (8 - s.bbN.toNat) false ∧
      (s.out.length ∉ s.oracle.writeFails →
        exec .bpClose s = .next { s with out := s.out ++ [pad], bb := [], bbN := 0#3, bpState := .idle, rspCode := 0x00#8,
                                         rspData := 0x100#32 ||| BitVec.ofNat 32 (8 - s.bbN.toNat) }) ∧
      (s.out.length ∈ s.oracle.writeFails →
        exec .bpClose s = .next (({ s with bb := [], bbN := 0#3, bpState := .idle } : State).raise .io (pad.setWidth 32)
                                  (encode .bpClose))))

/-! ### Bit reader and walker (45_bit_reader_decoder.md) -/

/-- R51, R191: BR_EXT of a byte, at the end of input, and of a byte whose read fails. -/
def Obligations.BrExtResult : Prop :=
  ∀ s : State, s.err = 0x00#8 →
    (∀ b : Byte, s.inp[s.inPos.toNat]? = some b → s.inPos.toNat ∉ s.oracle.readFails → s.inPos.toNat + 1 < 2 ^ 64 →
      exec .brExt s = .next { s with inPos := s.inPos + 1#64, rspCode := 0x00#8, rspData := b.setWidth 32 }) ∧
    (s.inPos.toNat = s.inp.length → exec .brExt s = .next { s with rspCode := 0x00#8, rspData := 0x100#32 }) ∧
    (s.inPos.toNat < s.inp.length → s.inPos.toNat ∈ s.oracle.readFails →
      exec .brExt s = .next (s.raise .io (s.inPos.setWidth 32) (encode .brExt)))

/-- R190, R193: every case of DW_BIT's walk step from the current node, on a valid tree and outside a session. -/
def Obligations.DwBitResult : Prop :=
  ∀ (s : State) (x : Bool) (n c : NodeIx), s.err = 0x00#8 → s.bpState = .idle → s.treeValid = true →
    n = (if s.wState = .atRoot then s.root else s.wCur) → c = (if x then (s.nodeAt n).one else (s.nodeAt n).zero) →
    (s.wState = .terminated → exec (.dwBit x) s = .next { s with rspCode := 0x00#8, rspData := 0x400#32 }) ∧
    (s.wState ≠ .terminated → n ≠ 511#9 →
      (c ≠ 511#9 → (s.nodeAt c).kind = .internal →
        exec (.dwBit x) s = .next { s with wCur := c, wState := .atInternal, rspCode := 0x00#8, rspData := 0x200#32 }) ∧
      (c ≠ 511#9 → (s.nodeAt c).kind = .leaf → (s.nodeAt c).sym = 0x03#8 →
        exec (.dwBit x) s = .next { s with wCur := 511#9, wState := .terminated, rspCode := 0x00#8, rspData := 0x400#32 }) ∧
      (c ≠ 511#9 → (s.nodeAt c).kind = .leaf → (s.nodeAt c).sym ≠ 0x03#8 → s.out.length ∉ s.oracle.writeFails →
        exec (.dwBit x) s = .next { s with wCur := 511#9, wState := .atRoot, out := s.out ++ [(s.nodeAt c).sym],
                                           rspCode := 0x00#8, rspData := 0x100#32 ||| (s.nodeAt c).sym.setWidth 32 }) ∧
      (c ≠ 511#9 → (s.nodeAt c).kind = .leaf → (s.nodeAt c).sym ≠ 0x03#8 → s.out.length ∈ s.oracle.writeFails →
        exec (.dwBit x) s = .next (({ s with wCur := 511#9, wState := .atRoot } : State).raise .io ((s.nodeAt c).sym.setWidth 32)
                                    (encode (.dwBit x)))) ∧
      ((c = 511#9 ∨ (s.nodeAt c).kind = .placeholder ∨ (s.nodeAt c).kind = .empty) →
        exec (.dwBit x) s = .next (s.raise .streamBadPath ((n.setWidth 32 <<< 1) ||| (BitVec.ofBool x).setWidth 32)
                                    (encode (.dwBit x)))))

/-- R194, R192, R190: DEC_BYTE in TERMINATED, at the end of input, on a failing read, on a byte whose bits, bit 7 first, all step,
and on one of whose bits a step raises: the byte stays consumed, and the state is the one the steps before left (R244). A bit moves
the walker as DW_BIT moves it, symbols are counted, and the bits after TERMINATED are ignored, wherever the byte starts or ends in a
code. R195: DEC_END in TERMINATED, whatever BP_STATE is. -/
def Obligations.DecodingCommands : Prop :=
  (∀ s : State, s.err = 0x00#8 → s.bpState = .idle → s.treeValid = true →
    (s.wState = .terminated → exec .decByte s = .next { s with rspCode := 0x00#8, rspData := 0x4000#32 }) ∧
    (s.wState ≠ .terminated → s.inPos.toNat = s.inp.length →
      exec .decByte s = .next { s with rspCode := 0x00#8, rspData := (s.wState.bits.setWidth 32 <<< 13) ||| 0x100#32 }) ∧
    (s.wState ≠ .terminated → s.inPos.toNat < s.inp.length → s.inPos.toNat ∈ s.oracle.readFails →
      exec .decByte s = .next (s.raise .io (s.inPos.setWidth 32) (encode .decByte))) ∧
    (∀ (b : Byte) (k : Nat) (t : State), s.wState ≠ .terminated → s.inp[s.inPos.toNat]? = some b →
      s.inPos.toNat ∉ s.oracle.readFails → s.inPos.toNat + 1 < 2 ^ 64 →
      walkBits [b.getLsbD 7, b.getLsbD 6, b.getLsbD 5, b.getLsbD 4, b.getLsbD 3, b.getLsbD 2, b.getLsbD 1, b.getLsbD 0] 0
        { s with inPos := s.inPos + 1#64 } = .ok k t →
      exec .decByte s = .next { t with rspCode := 0x00#8, rspData :=
        (t.wState.bits.setWidth 32 <<< 13) ||| (BitVec.ofNat 32 k <<< 9) ||| b.setWidth 32 }) ∧
    (∀ (b : Byte) (e : ErrCode) (info : Word) (t : State), s.wState ≠ .terminated → s.inp[s.inPos.toNat]? = some b →
      s.inPos.toNat ∉ s.oracle.readFails → s.inPos.toNat + 1 < 2 ^ 64 →
      walkBits [b.getLsbD 7, b.getLsbD 6, b.getLsbD 5, b.getLsbD 4, b.getLsbD 3, b.getLsbD 2, b.getLsbD 1, b.getLsbD 0] 0
        { s with inPos := s.inPos + 1#64 } = .raise e info t →
      exec .decByte s = .next (t.raise e info (encode .decByte)))) ∧
  -- the bits of a byte, one after the other: nothing more in TERMINATED, and otherwise each as DW_BIT steps it
  (∀ (k : Nat) (s : State), walkBits [] k s = .ok k s) ∧
  (∀ (x : Bool) (xs : Bits) (k : Nat) (s : State), s.wState = .terminated → walkBits (x :: xs) k s = .ok k s) ∧
  (∀ (x : Bool) (xs : Bits) (k : Nat) (s t : State), s.err = 0x00#8 → s.bpState = .idle → s.treeValid = true → s.wState ≠ .terminated →
    exec (.dwBit x) s = .next t →
    (t.rspCode = 0x00#8 → walkBits (x :: xs) k s =
      walkBits xs (if t.rspData.getLsbD 8 then k + 1 else k) { t with rspCode := s.rspCode, rspData := s.rspData }) ∧
    (t.rspCode ≠ 0x00#8 → ∃ e, e.code = t.rspCode ∧ walkBits (x :: xs) k s =
      .raise e t.rspData { t with rspCode := s.rspCode, rspData := s.rspData, err := s.err, errCmd := s.errCmd })) ∧
  (∀ s : State, s.err = 0x00#8 → s.treeValid = true → s.wState = .terminated →
    exec .decEnd s = .next { s with rspCode := 0x00#8, rspData := 0#32 })

/-- R196: the codes of symbols and then the terminator's, fed to the walker from the root, emit exactly the symbols, and
every bit after that is ignored. The codes are those CG_GEN gives the tree. -/
def Obligations.PayloadDecodes : Prop :=
  ∀ (s : State) (c : CodeTable) (xs : List Byte) (after : Bits), s.wState = .atRoot → s.wCur = Config.nil → s.WritesOk →
    genCodes s.node s.root = .ok c →
    (∀ x ∈ xs, x ≠ 0x03#8 ∧ Table.get [] c.bits x.toNat ≠ []) → Table.get [] c.bits 0x03 ≠ [] →
    walkBits (xs.flatMap (fun x => Table.get [] c.bits x.toNat) ++ Table.get [] c.bits 0x03 ++ after) 0 s =
      .ok xs.length { s with wState := .terminated, out := s.out ++ xs }

/-! ### Whole-machine rules -/

/-- R37, R52, R31: no command changes IN, the oracle or what the host does next; OUT is only appended to; IN_POS only
grows, except that SRESET sets it to 0. -/
def Obligations.StreamsOnlyMoveForward : Prop :=
  ∀ (i : Instr) (s t : State), exec i s = .next t →
    t.inp = s.inp ∧ t.oracle = s.oracle ∧ t.port = s.port ∧ s.out <+: t.out ∧
    (i ≠ .sreset → s.inPos.toNat ≤ t.inPos.toNat) ∧
    (i ∉ [Instr.sreset, .hcLoad, .brExt, .decByte] → t.inPos = s.inPos)

/-- R179, R275: which command moves BP_STATE and which sets or clears the three valid flags; no other does. -/
def Obligations.SessionAndFlagMoves : Prop :=
  ∀ (i : Instr) (s t : State), exec i s = .next t →
    (t.bpState ≠ s.bpState → (i = .bpOpen ∧ s.bpState = .idle ∧ t.bpState = .opened) ∨
      (i = .bpHdr ∧ s.bpState = .opened ∧ t.bpState = .hdrDone) ∨ (i = .bpClose ∧ t.bpState = .idle) ∨
      (i = .sreset ∧ t.bpState = .idle)) ∧
    (t.treeValid ≠ s.treeValid → (t.treeValid = true ∧ i ∈ [Instr.tbBuild, .hcLoad]) ∨ (t.treeValid = false ∧ i = .sreset)) ∧
    (t.codeValid ≠ s.codeValid → (t.codeValid = true ∧ i ∈ [Instr.cgGen, .hcLoad]) ∨
      (t.codeValid = false ∧ i ∈ [Instr.tbBuild, .sreset])) ∧
    (t.hdrValid ≠ s.hdrValid → (t.hdrValid = true ∧ i = .hcSer) ∨
      (t.hdrValid = false ∧ i ∈ [Instr.tbBuild, .cgGen, .hcLoad, .sreset]))

/-- In a state that keeps the block's invariants, with an IN of fewer than 2^64 - 1 bytes, every command ends in a next state, and so
does every step while the host keeps its duty: the model never stops or refuses. The stops are the model's own (logs 4, 5, 7, 8, 9, 10);
that a header fits HDR_MAX (log 10) follows from the invariants, as R152 says. -/
def Obligations.NoCommandStops : Prop :=
  ∀ s : State, s.TreeRooted → s.WalkerPlaced → s.TreeGenerates → s.CodesCurrent → s.StagesOrdered → s.ChildrenUnshared → s.InPosInside →
    s.inp.length + 1 < 2 ^ 64 →
    (∀ i : Instr, ∃ t, exec i s = .next t) ∧ (s.HostKeepsDuty → ∃ t, step s = .next t)

/-- R221: after an error the host's error path ends with the session released and the first error still named. -/
def Obligations.ErrorPathReleases : Prop :=
  ∀ s : State, s.err ≠ 0x00#8 → ∃ t, errorPath s = .failure t ∧ t.bpState = .idle ∧ t.err = s.err ∧ t.errCmd = s.errCmd

/-! ### Frames -/

/-- R253, R195: the read-back commands and DEC_END change nothing but the response and, on an error, ERR and ERR_CMD. -/
def Obligations.ReadBackFrame : Prop :=
  ∀ (i : Instr) (s t : State),
    (i ∈ [Instr.rdStat, .rdErrCmd, .rdInPos, .rdRoot, .rdHdrLen, .decEnd] ∨ (∃ sym, i = .rdFreq sym ∨ i = .rdCLen sym) ∨
      (∃ idx, i = .rdNode idx) ∨ (∃ h idx, i = .rdNwt h idx) ∨ (∃ w sym, i = .rdCodeW w sym) ∨ (∃ idx, i = .rdHdrB idx)) →
    exec i s = .next t →
    t = { s with rspCode := t.rspCode, rspData := t.rspData, err := t.err, errCmd := t.errCmd } ∧ ∀ a, t.hdrAt a = s.hdrAt a

/-- R100, R101, R112, R131, R151, R157, R276: what the counting, building, generating, serializing and loading commands
leave unchanged. Only HC_SER stores into HDR, at the addresses below the serialized length. -/
def Obligations.TableCommandFrames : Prop :=
  ∀ s t : State,
    (∀ i : Instr, (i = .frqClr ∨ ∃ sym, i = .frqAdd sym) → exec i s = .next t →
      t = { s with freq := t.freq, rspCode := t.rspCode, rspData := t.rspData, err := t.err, errCmd := t.errCmd } ∧
      ∀ a, t.hdrAt a = s.hdrAt a) ∧
    (exec .tbBuild s = .next t →
      t = { s with node := t.node, nodeCnt := t.nodeCnt, root := t.root, treeValid := t.treeValid, codeLen := t.codeLen,
                   codeBits := t.codeBits, codeValid := t.codeValid, hdrLen := t.hdrLen, hdrValid := t.hdrValid,
                   wState := t.wState, wCur := t.wCur, rspCode := t.rspCode, rspData := t.rspData, err := t.err, errCmd := t.errCmd } ∧
      ∀ a, t.hdrAt a = s.hdrAt a) ∧
    (exec .cgGen s = .next t →
      t = { s with codeLen := t.codeLen, codeBits := t.codeBits, codeValid := t.codeValid, hdrLen := t.hdrLen, hdrValid := t.hdrValid,
                   rspCode := t.rspCode, rspData := t.rspData, err := t.err, errCmd := t.errCmd } ∧
      ∀ a, t.hdrAt a = s.hdrAt a) ∧
    (exec .hcSer s = .next t →
      t = { s with hdr := t.hdr, hdrLen := t.hdrLen, hdrValid := t.hdrValid, rspCode := t.rspCode, rspData := t.rspData,
                   err := t.err, errCmd := t.errCmd } ∧
      ∀ a ≥ s.serialize.length, t.hdrAt a = s.hdrAt a) ∧
    (exec .hcLoad s = .next t →
      t = { s with node := t.node, nodeCnt := t.nodeCnt, root := t.root, treeValid := t.treeValid, codeLen := t.codeLen,
                   codeBits := t.codeBits, codeValid := t.codeValid, hdrLen := t.hdrLen, hdrValid := t.hdrValid,
                   wState := t.wState, wCur := t.wCur, inPos := t.inPos, rspCode := t.rspCode, rspData := t.rspData,
                   err := t.err, errCmd := t.errCmd } ∧
      ∀ a, t.hdrAt a = s.hdrAt a)

/-- R173 to R178: the bit packer's commands change only BP_STATE, BB, BB_N, OUT, the response and, on an error, ERR and
ERR_CMD; the payload commands leave BP_STATE, BP_OPEN leaves OUT, BP_HDR leaves BB. -/
def Obligations.PackerFrames : Prop :=
  ∀ (i : Instr) (s t : State),
    (i ∈ [Instr.bpOpen, .bpHdr, .encTerm, .bpClose] ∨ (∃ n v, i = .bpIns n v) ∨ (∃ sym, i = .encSym sym)) → exec i s = .next t →
    t = { s with bpState := t.bpState, bb := t.bb, bbN := t.bbN, out := t.out, rspCode := t.rspCode, rspData := t.rspData,
                 err := t.err, errCmd := t.errCmd } ∧
    (i ∉ [Instr.bpOpen, .bpHdr, .bpClose] → t.bpState = s.bpState) ∧ (i = .bpOpen → t.out = s.out) ∧
    (i = .bpHdr → t.bb = s.bb ∧ t.bbN = s.bbN) ∧ ∀ a, t.hdrAt a = s.hdrAt a

/-- R191, R193, R194: the reader's and walker's commands change only WSTATE, WCUR, IN_POS, OUT, the response and, on an
error, ERR and ERR_CMD; BR_EXT leaves the walker and OUT, DW_BIT leaves IN_POS. -/
def Obligations.WalkerFrames : Prop :=
  ∀ (i : Instr) (s t : State), (i = .brExt ∨ i = .decByte ∨ ∃ x, i = .dwBit x) → exec i s = .next t →
    t = { s with wState := t.wState, wCur := t.wCur, inPos := t.inPos, out := t.out, rspCode := t.rspCode, rspData := t.rspData,
                 err := t.err, errCmd := t.errCmd } ∧
    (i = .brExt → t.wState = s.wState ∧ t.wCur = s.wCur ∧ t.out = s.out) ∧ ((∃ x, i = .dwBit x) → t.inPos = s.inPos) ∧
    ∀ a, t.hdrAt a = s.hdrAt a

/-! ### Invariants -/

/-- Every invariant below holds in the reset state. -/
def Obligations.ResetMeetsInvariants : Prop :=
  State.reset.TablesCanonical ∧ State.reset.TerminatorCounted ∧ State.reset.PackerConsistent ∧ State.reset.CodeLengthsMatch ∧
  State.reset.StagesOrdered ∧ State.reset.HeaderCurrent ∧ State.reset.WalkerPlaced ∧ State.reset.ErrorsLegal ∧
  State.reset.ArenaCounted ∧ State.reset.RecordsShaped ∧ State.reset.TreeRooted ∧ State.reset.ChildrenUnshared ∧
  State.reset.LeavesDistinct ∧ State.reset.TreeHasLeaf ∧ State.reset.TreeGenerates ∧ State.reset.CodesCurrent ∧
  State.reset.PrefixFree ∧ State.reset.InPosInside

/-- Every step keeps every table, HDR's memory among them, in its canonical form. -/
def Obligations.StepKeepsTablesCanonical : Prop :=
  ∀ s t : State, s.TablesCanonical → step s = .next t → t.TablesCanonical

/-- R22, R28, R29, R31, R32, R275: the register invariants, each kept by every step; IN_POS stays inside IN unless the host
rebinds IN. -/
def Obligations.StepKeepsRegisters : Prop :=
  ∀ s t : State, step s = .next t →
    (s.TerminatorCounted → t.TerminatorCounted) ∧ (s.PackerConsistent → t.PackerConsistent) ∧ (s.StagesOrdered → t.StagesOrdered) ∧
    (s.ErrorsLegal → t.ErrorsLegal) ∧
    (s.InPosInside → (∀ bytes rest, s.port ≠ .bindIn bytes :: rest) → t.InPosInside)

/-- R26: every step keeps CODE_BITS[s] a string of exactly CODE_LEN[s] bits. -/
def Obligations.StepKeepsCodeLengths : Prop :=
  ∀ s t : State, s.CodeLengthsMatch → step s = .next t → t.CodeLengthsMatch

/-- R28, R275: every step keeps a valid header the serialization of the current code table. -/
def Obligations.StepKeepsHeaderCurrent : Prop :=
  ∀ s t : State, s.HeaderCurrent → step s = .next t → t.HeaderCurrent

/-- R23, R24, R25, R30: every step keeps the arena's counts and records, a valid tree rooted, and the walker on it. -/
def Obligations.StepKeepsTree : Prop :=
  ∀ s t : State, s.ArenaCounted → s.RecordsShaped → s.TreeRooted → s.WalkerPlaced → step s = .next t →
    t.ArenaCounted ∧ t.RecordsShaped ∧ t.TreeRooted ∧ t.WalkerPlaced

/-- R25, third point: every step keeps the records of a valid tree unshared. R117, R130: and no symbol of it in two leaves. -/
def Obligations.StepKeepsChildrenUnshared : Prop :=
  ∀ s t : State, step s = .next t → (s.ChildrenUnshared → t.ChildrenUnshared) ∧ (s.LeavesDistinct → t.LeavesDistinct)

/-- R25, R117, R130: every step keeps the code generator able to walk a valid tree to its end, within paths of 255, and a leaf in it.
R27, R131, R157, R275: and a valid code table the one that GenCodes gives the current tree, whether generated or loaded. -/
def Obligations.StepKeepsTreeGenerates : Prop :=
  ∀ s t : State, step s = .next t →
    (s.TreeGenerates → t.TreeGenerates) ∧ (s.TreeHasLeaf → t.TreeHasLeaf) ∧ (s.CodesCurrent → t.CodesCurrent)
end

