-- ==== Sys2Proof/Laws/State.lean ====
section
/-! SUPPORT. One lemma per field per update of State, true by rfl, so that no proof unfolds a record update. -/

namespace Sys2Proof.Machine

/-! ### State.respond -/

@[simp] theorem respond_freq (s : State) (d : Word) : (s.respond d).freq = s.freq := rfl
@[simp] theorem respond_node (s : State) (d : Word) : (s.respond d).node = s.node := rfl
@[simp] theorem respond_nodeCnt (s : State) (d : Word) : (s.respond d).nodeCnt = s.nodeCnt := rfl
@[simp] theorem respond_root (s : State) (d : Word) : (s.respond d).root = s.root := rfl
@[simp] theorem respond_treeValid (s : State) (d : Word) : (s.respond d).treeValid = s.treeValid := rfl
@[simp] theorem respond_codeLen (s : State) (d : Word) : (s.respond d).codeLen = s.codeLen := rfl
@[simp] theorem respond_codeBits (s : State) (d : Word) : (s.respond d).codeBits = s.codeBits := rfl
@[simp] theorem respond_codeValid (s : State) (d : Word) : (s.respond d).codeValid = s.codeValid := rfl
@[simp] theorem respond_hdr (s : State) (d : Word) : (s.respond d).hdr = s.hdr := rfl
@[simp] theorem respond_hdrLen (s : State) (d : Word) : (s.respond d).hdrLen = s.hdrLen := rfl
@[simp] theorem respond_hdrValid (s : State) (d : Word) : (s.respond d).hdrValid = s.hdrValid := rfl
@[simp] theorem respond_bpState (s : State) (d : Word) : (s.respond d).bpState = s.bpState := rfl
@[simp] theorem respond_bbN (s : State) (d : Word) : (s.respond d).bbN = s.bbN := rfl
@[simp] theorem respond_bb (s : State) (d : Word) : (s.respond d).bb = s.bb := rfl
@[simp] theorem respond_wState (s : State) (d : Word) : (s.respond d).wState = s.wState := rfl
@[simp] theorem respond_wCur (s : State) (d : Word) : (s.respond d).wCur = s.wCur := rfl
@[simp] theorem respond_inPos (s : State) (d : Word) : (s.respond d).inPos = s.inPos := rfl
@[simp] theorem respond_err (s : State) (d : Word) : (s.respond d).err = s.err := rfl
@[simp] theorem respond_errCmd (s : State) (d : Word) : (s.respond d).errCmd = s.errCmd := rfl
@[simp] theorem respond_rspCode (s : State) (d : Word) : (s.respond d).rspCode = 0x00#8 := rfl
@[simp] theorem respond_rspData (s : State) (d : Word) : (s.respond d).rspData = d := rfl
@[simp] theorem respond_inp (s : State) (d : Word) : (s.respond d).inp = s.inp := rfl
@[simp] theorem respond_out (s : State) (d : Word) : (s.respond d).out = s.out := rfl
@[simp] theorem respond_oracle (s : State) (d : Word) : (s.respond d).oracle = s.oracle := rfl
@[simp] theorem respond_port (s : State) (d : Word) : (s.respond d).port = s.port := rfl

/-! ### State.ignored -/

@[simp] theorem ignored_freq (s : State) : (s.ignored).freq = s.freq := rfl
@[simp] theorem ignored_node (s : State) : (s.ignored).node = s.node := rfl
@[simp] theorem ignored_nodeCnt (s : State) : (s.ignored).nodeCnt = s.nodeCnt := rfl
@[simp] theorem ignored_root (s : State) : (s.ignored).root = s.root := rfl
@[simp] theorem ignored_treeValid (s : State) : (s.ignored).treeValid = s.treeValid := rfl
@[simp] theorem ignored_codeLen (s : State) : (s.ignored).codeLen = s.codeLen := rfl
@[simp] theorem ignored_codeBits (s : State) : (s.ignored).codeBits = s.codeBits := rfl
@[simp] theorem ignored_codeValid (s : State) : (s.ignored).codeValid = s.codeValid := rfl
@[simp] theorem ignored_hdr (s : State) : (s.ignored).hdr = s.hdr := rfl
@[simp] theorem ignored_hdrLen (s : State) : (s.ignored).hdrLen = s.hdrLen := rfl
@[simp] theorem ignored_hdrValid (s : State) : (s.ignored).hdrValid = s.hdrValid := rfl
@[simp] theorem ignored_bpState (s : State) : (s.ignored).bpState = s.bpState := rfl
@[simp] theorem ignored_bbN (s : State) : (s.ignored).bbN = s.bbN := rfl
@[simp] theorem ignored_bb (s : State) : (s.ignored).bb = s.bb := rfl
@[simp] theorem ignored_wState (s : State) : (s.ignored).wState = s.wState := rfl
@[simp] theorem ignored_wCur (s : State) : (s.ignored).wCur = s.wCur := rfl
@[simp] theorem ignored_inPos (s : State) : (s.ignored).inPos = s.inPos := rfl
@[simp] theorem ignored_err (s : State) : (s.ignored).err = s.err := rfl
@[simp] theorem ignored_errCmd (s : State) : (s.ignored).errCmd = s.errCmd := rfl
@[simp] theorem ignored_rspCode (s : State) : (s.ignored).rspCode = rspIgnored := rfl
@[simp] theorem ignored_rspData (s : State) : (s.ignored).rspData = 0#32 := rfl
@[simp] theorem ignored_inp (s : State) : (s.ignored).inp = s.inp := rfl
@[simp] theorem ignored_out (s : State) : (s.ignored).out = s.out := rfl
@[simp] theorem ignored_oracle (s : State) : (s.ignored).oracle = s.oracle := rfl
@[simp] theorem ignored_port (s : State) : (s.ignored).port = s.port := rfl

/-! ### State.setFreq -/

@[simp] theorem setFreq_freq (s : State) (b : Byte) (v : Word) : (s.setFreq b v).freq = Table.set 0#32 s.freq b.toNat v := rfl
@[simp] theorem setFreq_node (s : State) (b : Byte) (v : Word) : (s.setFreq b v).node = s.node := rfl
@[simp] theorem setFreq_nodeCnt (s : State) (b : Byte) (v : Word) : (s.setFreq b v).nodeCnt = s.nodeCnt := rfl
@[simp] theorem setFreq_root (s : State) (b : Byte) (v : Word) : (s.setFreq b v).root = s.root := rfl
@[simp] theorem setFreq_treeValid (s : State) (b : Byte) (v : Word) : (s.setFreq b v).treeValid = s.treeValid := rfl
@[simp] theorem setFreq_codeLen (s : State) (b : Byte) (v : Word) : (s.setFreq b v).codeLen = s.codeLen := rfl
@[simp] theorem setFreq_codeBits (s : State) (b : Byte) (v : Word) : (s.setFreq b v).codeBits = s.codeBits := rfl
@[simp] theorem setFreq_codeValid (s : State) (b : Byte) (v : Word) : (s.setFreq b v).codeValid = s.codeValid := rfl
@[simp] theorem setFreq_hdr (s : State) (b : Byte) (v : Word) : (s.setFreq b v).hdr = s.hdr := rfl
@[simp] theorem setFreq_hdrLen (s : State) (b : Byte) (v : Word) : (s.setFreq b v).hdrLen = s.hdrLen := rfl
@[simp] theorem setFreq_hdrValid (s : State) (b : Byte) (v : Word) : (s.setFreq b v).hdrValid = s.hdrValid := rfl
@[simp] theorem setFreq_bpState (s : State) (b : Byte) (v : Word) : (s.setFreq b v).bpState = s.bpState := rfl
@[simp] theorem setFreq_bbN (s : State) (b : Byte) (v : Word) : (s.setFreq b v).bbN = s.bbN := rfl
@[simp] theorem setFreq_bb (s : State) (b : Byte) (v : Word) : (s.setFreq b v).bb = s.bb := rfl
@[simp] theorem setFreq_wState (s : State) (b : Byte) (v : Word) : (s.setFreq b v).wState = s.wState := rfl
@[simp] theorem setFreq_wCur (s : State) (b : Byte) (v : Word) : (s.setFreq b v).wCur = s.wCur := rfl
@[simp] theorem setFreq_inPos (s : State) (b : Byte) (v : Word) : (s.setFreq b v).inPos = s.inPos := rfl
@[simp] theorem setFreq_err (s : State) (b : Byte) (v : Word) : (s.setFreq b v).err = s.err := rfl
@[simp] theorem setFreq_errCmd (s : State) (b : Byte) (v : Word) : (s.setFreq b v).errCmd = s.errCmd := rfl
@[simp] theorem setFreq_rspCode (s : State) (b : Byte) (v : Word) : (s.setFreq b v).rspCode = s.rspCode := rfl
@[simp] theorem setFreq_rspData (s : State) (b : Byte) (v : Word) : (s.setFreq b v).rspData = s.rspData := rfl
@[simp] theorem setFreq_inp (s : State) (b : Byte) (v : Word) : (s.setFreq b v).inp = s.inp := rfl
@[simp] theorem setFreq_out (s : State) (b : Byte) (v : Word) : (s.setFreq b v).out = s.out := rfl
@[simp] theorem setFreq_oracle (s : State) (b : Byte) (v : Word) : (s.setFreq b v).oracle = s.oracle := rfl
@[simp] theorem setFreq_port (s : State) (b : Byte) (v : Word) : (s.setFreq b v).port = s.port := rfl

/-! ### State.dropHeader -/

@[simp] theorem dropHeader_freq (s : State) : (s.dropHeader).freq = s.freq := rfl
@[simp] theorem dropHeader_node (s : State) : (s.dropHeader).node = s.node := rfl
@[simp] theorem dropHeader_nodeCnt (s : State) : (s.dropHeader).nodeCnt = s.nodeCnt := rfl
@[simp] theorem dropHeader_root (s : State) : (s.dropHeader).root = s.root := rfl
@[simp] theorem dropHeader_treeValid (s : State) : (s.dropHeader).treeValid = s.treeValid := rfl
@[simp] theorem dropHeader_codeLen (s : State) : (s.dropHeader).codeLen = s.codeLen := rfl
@[simp] theorem dropHeader_codeBits (s : State) : (s.dropHeader).codeBits = s.codeBits := rfl
@[simp] theorem dropHeader_codeValid (s : State) : (s.dropHeader).codeValid = s.codeValid := rfl
@[simp] theorem dropHeader_hdr (s : State) : (s.dropHeader).hdr = s.hdr := rfl
@[simp] theorem dropHeader_hdrLen (s : State) : (s.dropHeader).hdrLen = 0#16 := rfl
@[simp] theorem dropHeader_hdrValid (s : State) : (s.dropHeader).hdrValid = false := rfl
@[simp] theorem dropHeader_bpState (s : State) : (s.dropHeader).bpState = s.bpState := rfl
@[simp] theorem dropHeader_bbN (s : State) : (s.dropHeader).bbN = s.bbN := rfl
@[simp] theorem dropHeader_bb (s : State) : (s.dropHeader).bb = s.bb := rfl
@[simp] theorem dropHeader_wState (s : State) : (s.dropHeader).wState = s.wState := rfl
@[simp] theorem dropHeader_wCur (s : State) : (s.dropHeader).wCur = s.wCur := rfl
@[simp] theorem dropHeader_inPos (s : State) : (s.dropHeader).inPos = s.inPos := rfl
@[simp] theorem dropHeader_err (s : State) : (s.dropHeader).err = s.err := rfl
@[simp] theorem dropHeader_errCmd (s : State) : (s.dropHeader).errCmd = s.errCmd := rfl
@[simp] theorem dropHeader_rspCode (s : State) : (s.dropHeader).rspCode = s.rspCode := rfl
@[simp] theorem dropHeader_rspData (s : State) : (s.dropHeader).rspData = s.rspData := rfl
@[simp] theorem dropHeader_inp (s : State) : (s.dropHeader).inp = s.inp := rfl
@[simp] theorem dropHeader_out (s : State) : (s.dropHeader).out = s.out := rfl
@[simp] theorem dropHeader_oracle (s : State) : (s.dropHeader).oracle = s.oracle := rfl
@[simp] theorem dropHeader_port (s : State) : (s.dropHeader).port = s.port := rfl

/-! ### State.setCodes -/

@[simp] theorem setCodes_freq (s : State) (t : CodeTable) (v : Bool) : (s.setCodes t v).freq = s.freq := rfl
@[simp] theorem setCodes_node (s : State) (t : CodeTable) (v : Bool) : (s.setCodes t v).node = s.node := rfl
@[simp] theorem setCodes_nodeCnt (s : State) (t : CodeTable) (v : Bool) : (s.setCodes t v).nodeCnt = s.nodeCnt := rfl
@[simp] theorem setCodes_root (s : State) (t : CodeTable) (v : Bool) : (s.setCodes t v).root = s.root := rfl
@[simp] theorem setCodes_treeValid (s : State) (t : CodeTable) (v : Bool) : (s.setCodes t v).treeValid = s.treeValid := rfl
@[simp] theorem setCodes_codeLen (s : State) (t : CodeTable) (v : Bool) : (s.setCodes t v).codeLen = t.len := rfl
@[simp] theorem setCodes_codeBits (s : State) (t : CodeTable) (v : Bool) : (s.setCodes t v).codeBits = t.bits := rfl
@[simp] theorem setCodes_codeValid (s : State) (t : CodeTable) (v : Bool) : (s.setCodes t v).codeValid = v := rfl
@[simp] theorem setCodes_hdr (s : State) (t : CodeTable) (v : Bool) : (s.setCodes t v).hdr = s.hdr := rfl
@[simp] theorem setCodes_hdrLen (s : State) (t : CodeTable) (v : Bool) : (s.setCodes t v).hdrLen = s.hdrLen := rfl
@[simp] theorem setCodes_hdrValid (s : State) (t : CodeTable) (v : Bool) : (s.setCodes t v).hdrValid = s.hdrValid := rfl
@[simp] theorem setCodes_bpState (s : State) (t : CodeTable) (v : Bool) : (s.setCodes t v).bpState = s.bpState := rfl
@[simp] theorem setCodes_bbN (s : State) (t : CodeTable) (v : Bool) : (s.setCodes t v).bbN = s.bbN := rfl
@[simp] theorem setCodes_bb (s : State) (t : CodeTable) (v : Bool) : (s.setCodes t v).bb = s.bb := rfl
@[simp] theorem setCodes_wState (s : State) (t : CodeTable) (v : Bool) : (s.setCodes t v).wState = s.wState := rfl
@[simp] theorem setCodes_wCur (s : State) (t : CodeTable) (v : Bool) : (s.setCodes t v).wCur = s.wCur := rfl
@[simp] theorem setCodes_inPos (s : State) (t : CodeTable) (v : Bool) : (s.setCodes t v).inPos = s.inPos := rfl
@[simp] theorem setCodes_err (s : State) (t : CodeTable) (v : Bool) : (s.setCodes t v).err = s.err := rfl
@[simp] theorem setCodes_errCmd (s : State) (t : CodeTable) (v : Bool) : (s.setCodes t v).errCmd = s.errCmd := rfl
@[simp] theorem setCodes_rspCode (s : State) (t : CodeTable) (v : Bool) : (s.setCodes t v).rspCode = s.rspCode := rfl
@[simp] theorem setCodes_rspData (s : State) (t : CodeTable) (v : Bool) : (s.setCodes t v).rspData = s.rspData := rfl
@[simp] theorem setCodes_inp (s : State) (t : CodeTable) (v : Bool) : (s.setCodes t v).inp = s.inp := rfl
@[simp] theorem setCodes_out (s : State) (t : CodeTable) (v : Bool) : (s.setCodes t v).out = s.out := rfl
@[simp] theorem setCodes_oracle (s : State) (t : CodeTable) (v : Bool) : (s.setCodes t v).oracle = s.oracle := rfl
@[simp] theorem setCodes_port (s : State) (t : CodeTable) (v : Bool) : (s.setCodes t v).port = s.port := rfl

/-! ### State.setTree -/

@[simp] theorem setTree_freq (s : State) (t : Table Node) (c r : Nat) : (s.setTree t c r).freq = s.freq := rfl
@[simp] theorem setTree_node (s : State) (t : Table Node) (c r : Nat) : (s.setTree t c r).node = t := rfl
@[simp] theorem setTree_nodeCnt (s : State) (t : Table Node) (c r : Nat) : (s.setTree t c r).nodeCnt = BitVec.ofNat 10 c := rfl
@[simp] theorem setTree_root (s : State) (t : Table Node) (c r : Nat) : (s.setTree t c r).root = BitVec.ofNat 9 r := rfl
@[simp] theorem setTree_treeValid (s : State) (t : Table Node) (c r : Nat) : (s.setTree t c r).treeValid = true := rfl
@[simp] theorem setTree_codeLen (s : State) (t : Table Node) (c r : Nat) : (s.setTree t c r).codeLen = s.codeLen := rfl
@[simp] theorem setTree_codeBits (s : State) (t : Table Node) (c r : Nat) : (s.setTree t c r).codeBits = s.codeBits := rfl
@[simp] theorem setTree_codeValid (s : State) (t : Table Node) (c r : Nat) : (s.setTree t c r).codeValid = s.codeValid := rfl
@[simp] theorem setTree_hdr (s : State) (t : Table Node) (c r : Nat) : (s.setTree t c r).hdr = s.hdr := rfl
@[simp] theorem setTree_hdrLen (s : State) (t : Table Node) (c r : Nat) : (s.setTree t c r).hdrLen = s.hdrLen := rfl
@[simp] theorem setTree_hdrValid (s : State) (t : Table Node) (c r : Nat) : (s.setTree t c r).hdrValid = s.hdrValid := rfl
@[simp] theorem setTree_bpState (s : State) (t : Table Node) (c r : Nat) : (s.setTree t c r).bpState = s.bpState := rfl
@[simp] theorem setTree_bbN (s : State) (t : Table Node) (c r : Nat) : (s.setTree t c r).bbN = s.bbN := rfl
@[simp] theorem setTree_bb (s : State) (t : Table Node) (c r : Nat) : (s.setTree t c r).bb = s.bb := rfl
@[simp] theorem setTree_wState (s : State) (t : Table Node) (c r : Nat) : (s.setTree t c r).wState = s.wState := rfl
@[simp] theorem setTree_wCur (s : State) (t : Table Node) (c r : Nat) : (s.setTree t c r).wCur = s.wCur := rfl
@[simp] theorem setTree_inPos (s : State) (t : Table Node) (c r : Nat) : (s.setTree t c r).inPos = s.inPos := rfl
@[simp] theorem setTree_err (s : State) (t : Table Node) (c r : Nat) : (s.setTree t c r).err = s.err := rfl
@[simp] theorem setTree_errCmd (s : State) (t : Table Node) (c r : Nat) : (s.setTree t c r).errCmd = s.errCmd := rfl
@[simp] theorem setTree_rspCode (s : State) (t : Table Node) (c r : Nat) : (s.setTree t c r).rspCode = s.rspCode := rfl
@[simp] theorem setTree_rspData (s : State) (t : Table Node) (c r : Nat) : (s.setTree t c r).rspData = s.rspData := rfl
@[simp] theorem setTree_inp (s : State) (t : Table Node) (c r : Nat) : (s.setTree t c r).inp = s.inp := rfl
@[simp] theorem setTree_out (s : State) (t : Table Node) (c r : Nat) : (s.setTree t c r).out = s.out := rfl
@[simp] theorem setTree_oracle (s : State) (t : Table Node) (c r : Nat) : (s.setTree t c r).oracle = s.oracle := rfl
@[simp] theorem setTree_port (s : State) (t : Table Node) (c r : Nat) : (s.setTree t c r).port = s.port := rfl

/-! ### State.walkerHome -/

@[simp] theorem walkerHome_freq (s : State) : (s.walkerHome).freq = s.freq := rfl
@[simp] theorem walkerHome_node (s : State) : (s.walkerHome).node = s.node := rfl
@[simp] theorem walkerHome_nodeCnt (s : State) : (s.walkerHome).nodeCnt = s.nodeCnt := rfl
@[simp] theorem walkerHome_root (s : State) : (s.walkerHome).root = s.root := rfl
@[simp] theorem walkerHome_treeValid (s : State) : (s.walkerHome).treeValid = s.treeValid := rfl
@[simp] theorem walkerHome_codeLen (s : State) : (s.walkerHome).codeLen = s.codeLen := rfl
@[simp] theorem walkerHome_codeBits (s : State) : (s.walkerHome).codeBits = s.codeBits := rfl
@[simp] theorem walkerHome_codeValid (s : State) : (s.walkerHome).codeValid = s.codeValid := rfl
@[simp] theorem walkerHome_hdr (s : State) : (s.walkerHome).hdr = s.hdr := rfl
@[simp] theorem walkerHome_hdrLen (s : State) : (s.walkerHome).hdrLen = s.hdrLen := rfl
@[simp] theorem walkerHome_hdrValid (s : State) : (s.walkerHome).hdrValid = s.hdrValid := rfl
@[simp] theorem walkerHome_bpState (s : State) : (s.walkerHome).bpState = s.bpState := rfl
@[simp] theorem walkerHome_bbN (s : State) : (s.walkerHome).bbN = s.bbN := rfl
@[simp] theorem walkerHome_bb (s : State) : (s.walkerHome).bb = s.bb := rfl
@[simp] theorem walkerHome_wState (s : State) : (s.walkerHome).wState = .atRoot := rfl
@[simp] theorem walkerHome_wCur (s : State) : (s.walkerHome).wCur = Config.nil := rfl
@[simp] theorem walkerHome_inPos (s : State) : (s.walkerHome).inPos = s.inPos := rfl
@[simp] theorem walkerHome_err (s : State) : (s.walkerHome).err = s.err := rfl
@[simp] theorem walkerHome_errCmd (s : State) : (s.walkerHome).errCmd = s.errCmd := rfl
@[simp] theorem walkerHome_rspCode (s : State) : (s.walkerHome).rspCode = s.rspCode := rfl
@[simp] theorem walkerHome_rspData (s : State) : (s.walkerHome).rspData = s.rspData := rfl
@[simp] theorem walkerHome_inp (s : State) : (s.walkerHome).inp = s.inp := rfl
@[simp] theorem walkerHome_out (s : State) : (s.walkerHome).out = s.out := rfl
@[simp] theorem walkerHome_oracle (s : State) : (s.walkerHome).oracle = s.oracle := rfl
@[simp] theorem walkerHome_port (s : State) : (s.walkerHome).port = s.port := rfl

/-! ### State.clearBits -/

@[simp] theorem clearBits_freq (s : State) : (s.clearBits).freq = s.freq := rfl
@[simp] theorem clearBits_node (s : State) : (s.clearBits).node = s.node := rfl
@[simp] theorem clearBits_nodeCnt (s : State) : (s.clearBits).nodeCnt = s.nodeCnt := rfl
@[simp] theorem clearBits_root (s : State) : (s.clearBits).root = s.root := rfl
@[simp] theorem clearBits_treeValid (s : State) : (s.clearBits).treeValid = s.treeValid := rfl
@[simp] theorem clearBits_codeLen (s : State) : (s.clearBits).codeLen = s.codeLen := rfl
@[simp] theorem clearBits_codeBits (s : State) : (s.clearBits).codeBits = s.codeBits := rfl
@[simp] theorem clearBits_codeValid (s : State) : (s.clearBits).codeValid = s.codeValid := rfl
@[simp] theorem clearBits_hdr (s : State) : (s.clearBits).hdr = s.hdr := rfl
@[simp] theorem clearBits_hdrLen (s : State) : (s.clearBits).hdrLen = s.hdrLen := rfl
@[simp] theorem clearBits_hdrValid (s : State) : (s.clearBits).hdrValid = s.hdrValid := rfl
@[simp] theorem clearBits_bpState (s : State) : (s.clearBits).bpState = s.bpState := rfl
@[simp] theorem clearBits_bbN (s : State) : (s.clearBits).bbN = 0#3 := rfl
@[simp] theorem clearBits_bb (s : State) : (s.clearBits).bb = [] := rfl
@[simp] theorem clearBits_wState (s : State) : (s.clearBits).wState = s.wState := rfl
@[simp] theorem clearBits_wCur (s : State) : (s.clearBits).wCur = s.wCur := rfl
@[simp] theorem clearBits_inPos (s : State) : (s.clearBits).inPos = s.inPos := rfl
@[simp] theorem clearBits_err (s : State) : (s.clearBits).err = s.err := rfl
@[simp] theorem clearBits_errCmd (s : State) : (s.clearBits).errCmd = s.errCmd := rfl
@[simp] theorem clearBits_rspCode (s : State) : (s.clearBits).rspCode = s.rspCode := rfl
@[simp] theorem clearBits_rspData (s : State) : (s.clearBits).rspData = s.rspData := rfl
@[simp] theorem clearBits_inp (s : State) : (s.clearBits).inp = s.inp := rfl
@[simp] theorem clearBits_out (s : State) : (s.clearBits).out = s.out := rfl
@[simp] theorem clearBits_oracle (s : State) : (s.clearBits).oracle = s.oracle := rfl
@[simp] theorem clearBits_port (s : State) : (s.clearBits).port = s.port := rfl

/-! ### State.setSession -/

@[simp] theorem setSession_freq (s : State) (b : BpState) : (s.setSession b).freq = s.freq := rfl
@[simp] theorem setSession_node (s : State) (b : BpState) : (s.setSession b).node = s.node := rfl
@[simp] theorem setSession_nodeCnt (s : State) (b : BpState) : (s.setSession b).nodeCnt = s.nodeCnt := rfl
@[simp] theorem setSession_root (s : State) (b : BpState) : (s.setSession b).root = s.root := rfl
@[simp] theorem setSession_treeValid (s : State) (b : BpState) : (s.setSession b).treeValid = s.treeValid := rfl
@[simp] theorem setSession_codeLen (s : State) (b : BpState) : (s.setSession b).codeLen = s.codeLen := rfl
@[simp] theorem setSession_codeBits (s : State) (b : BpState) : (s.setSession b).codeBits = s.codeBits := rfl
@[simp] theorem setSession_codeValid (s : State) (b : BpState) : (s.setSession b).codeValid = s.codeValid := rfl
@[simp] theorem setSession_hdr (s : State) (b : BpState) : (s.setSession b).hdr = s.hdr := rfl
@[simp] theorem setSession_hdrLen (s : State) (b : BpState) : (s.setSession b).hdrLen = s.hdrLen := rfl
@[simp] theorem setSession_hdrValid (s : State) (b : BpState) : (s.setSession b).hdrValid = s.hdrValid := rfl
@[simp] theorem setSession_bpState (s : State) (b : BpState) : (s.setSession b).bpState = b := rfl
@[simp] theorem setSession_bbN (s : State) (b : BpState) : (s.setSession b).bbN = s.bbN := rfl
@[simp] theorem setSession_bb (s : State) (b : BpState) : (s.setSession b).bb = s.bb := rfl
@[simp] theorem setSession_wState (s : State) (b : BpState) : (s.setSession b).wState = s.wState := rfl
@[simp] theorem setSession_wCur (s : State) (b : BpState) : (s.setSession b).wCur = s.wCur := rfl
@[simp] theorem setSession_inPos (s : State) (b : BpState) : (s.setSession b).inPos = s.inPos := rfl
@[simp] theorem setSession_err (s : State) (b : BpState) : (s.setSession b).err = s.err := rfl
@[simp] theorem setSession_errCmd (s : State) (b : BpState) : (s.setSession b).errCmd = s.errCmd := rfl
@[simp] theorem setSession_rspCode (s : State) (b : BpState) : (s.setSession b).rspCode = s.rspCode := rfl
@[simp] theorem setSession_rspData (s : State) (b : BpState) : (s.setSession b).rspData = s.rspData := rfl
@[simp] theorem setSession_inp (s : State) (b : BpState) : (s.setSession b).inp = s.inp := rfl
@[simp] theorem setSession_out (s : State) (b : BpState) : (s.setSession b).out = s.out := rfl
@[simp] theorem setSession_oracle (s : State) (b : BpState) : (s.setSession b).oracle = s.oracle := rfl
@[simp] theorem setSession_port (s : State) (b : BpState) : (s.setSession b).port = s.port := rfl

/-! ### State.withHeader -/

@[simp] theorem withHeader_freq (s : State) (h : List Byte) : (s.withHeader h).freq = s.freq := rfl
@[simp] theorem withHeader_node (s : State) (h : List Byte) : (s.withHeader h).node = s.node := rfl
@[simp] theorem withHeader_nodeCnt (s : State) (h : List Byte) : (s.withHeader h).nodeCnt = s.nodeCnt := rfl
@[simp] theorem withHeader_root (s : State) (h : List Byte) : (s.withHeader h).root = s.root := rfl
@[simp] theorem withHeader_treeValid (s : State) (h : List Byte) : (s.withHeader h).treeValid = s.treeValid := rfl
@[simp] theorem withHeader_codeLen (s : State) (h : List Byte) : (s.withHeader h).codeLen = s.codeLen := rfl
@[simp] theorem withHeader_codeBits (s : State) (h : List Byte) : (s.withHeader h).codeBits = s.codeBits := rfl
@[simp] theorem withHeader_codeValid (s : State) (h : List Byte) : (s.withHeader h).codeValid = s.codeValid := rfl
@[simp] theorem withHeader_hdr (s : State) (h : List Byte) : (s.withHeader h).hdr = storeBytes s.hdr 0 h := rfl
@[simp] theorem withHeader_hdrLen (s : State) (h : List Byte) : (s.withHeader h).hdrLen = BitVec.ofNat 16 h.length := rfl
@[simp] theorem withHeader_hdrValid (s : State) (h : List Byte) : (s.withHeader h).hdrValid = true := rfl
@[simp] theorem withHeader_bpState (s : State) (h : List Byte) : (s.withHeader h).bpState = s.bpState := rfl
@[simp] theorem withHeader_bbN (s : State) (h : List Byte) : (s.withHeader h).bbN = s.bbN := rfl
@[simp] theorem withHeader_bb (s : State) (h : List Byte) : (s.withHeader h).bb = s.bb := rfl
@[simp] theorem withHeader_wState (s : State) (h : List Byte) : (s.withHeader h).wState = s.wState := rfl
@[simp] theorem withHeader_wCur (s : State) (h : List Byte) : (s.withHeader h).wCur = s.wCur := rfl
@[simp] theorem withHeader_inPos (s : State) (h : List Byte) : (s.withHeader h).inPos = s.inPos := rfl
@[simp] theorem withHeader_err (s : State) (h : List Byte) : (s.withHeader h).err = s.err := rfl
@[simp] theorem withHeader_errCmd (s : State) (h : List Byte) : (s.withHeader h).errCmd = s.errCmd := rfl
@[simp] theorem withHeader_rspCode (s : State) (h : List Byte) : (s.withHeader h).rspCode = s.rspCode := rfl
@[simp] theorem withHeader_rspData (s : State) (h : List Byte) : (s.withHeader h).rspData = s.rspData := rfl
@[simp] theorem withHeader_inp (s : State) (h : List Byte) : (s.withHeader h).inp = s.inp := rfl
@[simp] theorem withHeader_out (s : State) (h : List Byte) : (s.withHeader h).out = s.out := rfl
@[simp] theorem withHeader_oracle (s : State) (h : List Byte) : (s.withHeader h).oracle = s.oracle := rfl
@[simp] theorem withHeader_port (s : State) (h : List Byte) : (s.withHeader h).port = s.port := rfl

/-! ### State.raise (R241) -/

@[simp] theorem raise_freq (s : State) (e : ErrCode) (i w : Word) : (s.raise e i w).freq = s.freq := by unfold State.raise; split <;> rfl
@[simp] theorem raise_node (s : State) (e : ErrCode) (i w : Word) : (s.raise e i w).node = s.node := by unfold State.raise; split <;> rfl
@[simp] theorem raise_nodeCnt (s : State) (e : ErrCode) (i w : Word) : (s.raise e i w).nodeCnt = s.nodeCnt := by unfold State.raise; split <;> rfl
@[simp] theorem raise_root (s : State) (e : ErrCode) (i w : Word) : (s.raise e i w).root = s.root := by unfold State.raise; split <;> rfl
@[simp] theorem raise_treeValid (s : State) (e : ErrCode) (i w : Word) : (s.raise e i w).treeValid = s.treeValid := by unfold State.raise; split <;> rfl
@[simp] theorem raise_codeLen (s : State) (e : ErrCode) (i w : Word) : (s.raise e i w).codeLen = s.codeLen := by unfold State.raise; split <;> rfl
@[simp] theorem raise_codeBits (s : State) (e : ErrCode) (i w : Word) : (s.raise e i w).codeBits = s.codeBits := by unfold State.raise; split <;> rfl
@[simp] theorem raise_codeValid (s : State) (e : ErrCode) (i w : Word) : (s.raise e i w).codeValid = s.codeValid := by unfold State.raise; split <;> rfl
@[simp] theorem raise_hdr (s : State) (e : ErrCode) (i w : Word) : (s.raise e i w).hdr = s.hdr := by unfold State.raise; split <;> rfl
@[simp] theorem raise_hdrLen (s : State) (e : ErrCode) (i w : Word) : (s.raise e i w).hdrLen = s.hdrLen := by unfold State.raise; split <;> rfl
@[simp] theorem raise_hdrValid (s : State) (e : ErrCode) (i w : Word) : (s.raise e i w).hdrValid = s.hdrValid := by unfold State.raise; split <;> rfl
@[simp] theorem raise_bpState (s : State) (e : ErrCode) (i w : Word) : (s.raise e i w).bpState = s.bpState := by unfold State.raise; split <;> rfl
@[simp] theorem raise_bbN (s : State) (e : ErrCode) (i w : Word) : (s.raise e i w).bbN = s.bbN := by unfold State.raise; split <;> rfl
@[simp] theorem raise_bb (s : State) (e : ErrCode) (i w : Word) : (s.raise e i w).bb = s.bb := by unfold State.raise; split <;> rfl
@[simp] theorem raise_wState (s : State) (e : ErrCode) (i w : Word) : (s.raise e i w).wState = s.wState := by unfold State.raise; split <;> rfl
@[simp] theorem raise_wCur (s : State) (e : ErrCode) (i w : Word) : (s.raise e i w).wCur = s.wCur := by unfold State.raise; split <;> rfl
@[simp] theorem raise_inPos (s : State) (e : ErrCode) (i w : Word) : (s.raise e i w).inPos = s.inPos := by unfold State.raise; split <;> rfl
@[simp] theorem raise_err (s : State) (e : ErrCode) (i w : Word) : (s.raise e i w).err = if s.err = 0x00#8 then e.code else s.err := by unfold State.raise; split <;> simp_all
@[simp] theorem raise_errCmd (s : State) (e : ErrCode) (i w : Word) : (s.raise e i w).errCmd = if s.err = 0x00#8 then w else s.errCmd := by unfold State.raise; split <;> simp_all
@[simp] theorem raise_rspCode (s : State) (e : ErrCode) (i w : Word) : (s.raise e i w).rspCode = e.code := by unfold State.raise; split <;> rfl
@[simp] theorem raise_rspData (s : State) (e : ErrCode) (i w : Word) : (s.raise e i w).rspData = i := by unfold State.raise; split <;> rfl
@[simp] theorem raise_inp (s : State) (e : ErrCode) (i w : Word) : (s.raise e i w).inp = s.inp := by unfold State.raise; split <;> rfl
@[simp] theorem raise_out (s : State) (e : ErrCode) (i w : Word) : (s.raise e i w).out = s.out := by unfold State.raise; split <;> rfl
@[simp] theorem raise_oracle (s : State) (e : ErrCode) (i w : Word) : (s.raise e i w).oracle = s.oracle := by unfold State.raise; split <;> rfl
@[simp] theorem raise_port (s : State) (e : ErrCode) (i w : Word) : (s.raise e i w).port = s.port := by unfold State.raise; split <;> rfl

/-! ### State.resetBlock (R210): the streams, the oracle and the port stay, the rest is reset -/

@[simp] theorem resetBlock_freq (s : State) : s.resetBlock.freq = State.reset.freq := rfl
@[simp] theorem resetBlock_node (s : State) : s.resetBlock.node = State.reset.node := rfl
@[simp] theorem resetBlock_nodeCnt (s : State) : s.resetBlock.nodeCnt = State.reset.nodeCnt := rfl
@[simp] theorem resetBlock_root (s : State) : s.resetBlock.root = State.reset.root := rfl
@[simp] theorem resetBlock_treeValid (s : State) : s.resetBlock.treeValid = State.reset.treeValid := rfl
@[simp] theorem resetBlock_codeLen (s : State) : s.resetBlock.codeLen = State.reset.codeLen := rfl
@[simp] theorem resetBlock_codeBits (s : State) : s.resetBlock.codeBits = State.reset.codeBits := rfl
@[simp] theorem resetBlock_codeValid (s : State) : s.resetBlock.codeValid = State.reset.codeValid := rfl
@[simp] theorem resetBlock_hdr (s : State) : s.resetBlock.hdr = State.reset.hdr := rfl
@[simp] theorem resetBlock_hdrLen (s : State) : s.resetBlock.hdrLen = State.reset.hdrLen := rfl
@[simp] theorem resetBlock_hdrValid (s : State) : s.resetBlock.hdrValid = State.reset.hdrValid := rfl
@[simp] theorem resetBlock_bpState (s : State) : s.resetBlock.bpState = State.reset.bpState := rfl
@[simp] theorem resetBlock_bbN (s : State) : s.resetBlock.bbN = State.reset.bbN := rfl
@[simp] theorem resetBlock_bb (s : State) : s.resetBlock.bb = State.reset.bb := rfl
@[simp] theorem resetBlock_wState (s : State) : s.resetBlock.wState = State.reset.wState := rfl
@[simp] theorem resetBlock_wCur (s : State) : s.resetBlock.wCur = State.reset.wCur := rfl
@[simp] theorem resetBlock_inPos (s : State) : s.resetBlock.inPos = State.reset.inPos := rfl
@[simp] theorem resetBlock_err (s : State) : s.resetBlock.err = State.reset.err := rfl
@[simp] theorem resetBlock_errCmd (s : State) : s.resetBlock.errCmd = State.reset.errCmd := rfl
@[simp] theorem resetBlock_rspCode (s : State) : s.resetBlock.rspCode = State.reset.rspCode := rfl
@[simp] theorem resetBlock_rspData (s : State) : s.resetBlock.rspData = State.reset.rspData := rfl
@[simp] theorem resetBlock_inp (s : State) : s.resetBlock.inp = s.inp := rfl
@[simp] theorem resetBlock_out (s : State) : s.resetBlock.out = s.out := rfl
@[simp] theorem resetBlock_oracle (s : State) : s.resetBlock.oracle = s.oracle := rfl
@[simp] theorem resetBlock_port (s : State) : s.resetBlock.port = s.port := rfl

/-! ### Compound updates -/

theorem withBuilt_eq (s : State) (b : Built) :
    s.withBuilt b = (((s.setTree b.arena b.cnt b.root).setCodes CodeTable.clear false).dropHeader).walkerHome := rfl

theorem withCodes_eq (s : State) (t : CodeTable) : s.withCodes t = (s.setCodes t true).dropHeader := rfl

theorem withLoaded_eq (s : State) (es : List (Byte × Bits)) (t : Table Node) (c : Nat) :
    s.withLoaded es t c = (((s.setTree t c 0).setCodes (codesOf es) true).dropHeader).walkerHome := rfl

theorem released_eq (s : State) : s.released = s.clearBits.setSession .idle := rfl

end Sys2Proof.Machine
end

