-- ==== Sys2Proof/Laws/Table.lean ====
section
/-! SUPPORT. The laws of tables: reads after writes, the canonical form, and HDR's memory laws. -/

namespace Sys2Proof.Machine

variable {α : Type}

@[simp] theorem table_get_nil (d : α) (i : Nat) : Table.get d [] i = d := rfl

theorem table_get_erase (d : α) (t : Table α) (i j : Nat) :
    Table.get d (Table.erase t i) j = if j = i then d else Table.get d t j := by
  induction t with
  | nil => simp [Table.erase]
  | cons e t ih =>
    obtain ⟨k, v⟩ := e
    by_cases hk : k = i
    · subst hk
      have h : Table.erase ((k, v) :: t) k = Table.erase t k := by simp [Table.erase]
      rw [h, ih]
      by_cases hj : j = k
      · simp [hj]
      · simp [hj, Table.get, Ne.symm hj]
    · have h : Table.erase ((k, v) :: t) i = (k, v) :: Table.erase t i := by simp [Table.erase, hk]
      rw [h]
      simp only [Table.get, ih]
      by_cases hj : k = j
      · subst hj; simp [hk]
      · simp [hj]

theorem table_get_insert (d : α) (t : Table α) (i j : Nat) (v : α) (h : ∀ e ∈ t, e.1 ≠ i) :
    Table.get d (Table.insert i v t) j = if j = i then v else Table.get d t j := by
  induction t with
  | nil =>
    by_cases hj : j = i
    · simp [Table.insert, Table.get, hj]
    · simp [Table.insert, Table.get, hj, Ne.symm hj]
  | cons e t ih =>
    obtain ⟨k, u⟩ := e
    have hk : k ≠ i := h (k, u) (by simp)
    have ht := ih fun e he => h e (by simp [he])
    simp only [Table.insert]
    split
    · by_cases hj : j = i
      · simp [Table.get, hj]
      · simp [Table.get, hj, Ne.symm hj]
    · simp only [Table.get, ht]
      by_cases hj : k = j
      · subst hj; simp [hk]
      · simp [hj]

theorem table_erase_ne (t : Table α) (i : Nat) : ∀ e ∈ Table.erase t i, e.1 ≠ i := by
  intro e he
  simpa using (List.mem_filter.1 he).2

/-- Every read after a write, at any index. -/
theorem table_get_set [DecidableEq α] (d : α) (t : Table α) (i j : Nat) (v : α) :
    Table.get d (Table.set d t i v) j = if j = i then v else Table.get d t j := by
  unfold Table.set
  split
  · rename_i h; rw [table_get_erase]; split <;> simp [h]
  · rw [table_get_insert _ _ _ _ _ (table_erase_ne t i), table_get_erase]
    split <;> simp [*]

@[simp] theorem table_get_set_same [DecidableEq α] (d : α) (t : Table α) (i : Nat) (v : α) :
    Table.get d (Table.set d t i v) i = v := by simp [table_get_set]

theorem table_get_set_other [DecidableEq α] (d : α) (t : Table α) (i j : Nat) (v : α) (h : j ≠ i) :
    Table.get d (Table.set d t i v) j = Table.get d t j := by simp [table_get_set, h]

/-! ### The canonical form -/

theorem table_rising_iff (t : Table α) : Table.rising t = true ↔ t.Pairwise (fun e f => e.1 < f.1) := by
  induction t with
  | nil => simp [Table.rising]
  | cons e t ih =>
    cases t with
    | nil => simp [Table.rising]
    | cons f t =>
      simp only [Table.rising, Bool.and_eq_true, decide_eq_true_eq, ih, List.pairwise_cons, List.mem_cons]
      constructor
      · rintro ⟨h1, h2, h3⟩
        refine ⟨?_, h2, h3⟩
        rintro a (rfl | ha)
        · exact h1
        · exact h1.trans (h2 a ha)
      · rintro ⟨h1, h2, h3⟩
        exact ⟨h1 f (.inl rfl), h2, h3⟩

theorem table_mem_insert (i : Nat) (v : α) (t : Table α) (e : Nat × α) :
    e ∈ Table.insert i v t ↔ e = (i, v) ∨ e ∈ t := by
  induction t with
  | nil => simp [Table.insert]
  | cons f t ih =>
    obtain ⟨k, u⟩ := f
    simp only [Table.insert]
    split
    · simp
    · simp only [List.mem_cons, ih]; tauto

theorem table_insert_rising (i : Nat) (v : α) (t : Table α) (ht : t.Pairwise (fun e f => e.1 < f.1))
    (h : ∀ e ∈ t, e.1 ≠ i) : (Table.insert i v t).Pairwise (fun e f => e.1 < f.1) := by
  induction t with
  | nil => simp [Table.insert]
  | cons f t ih =>
    obtain ⟨k, u⟩ := f
    obtain ⟨h1, h2⟩ := List.pairwise_cons.1 ht
    have hk : k ≠ i := h (k, u) (by simp)
    simp only [Table.insert]
    split
    · rename_i hlt
      refine List.pairwise_cons.2 ⟨?_, ht⟩
      intro e he
      rcases List.mem_cons.1 he with rfl | he
      · exact hlt
      · exact hlt.trans (h1 e he)
    · refine List.pairwise_cons.2 ⟨?_, ih h2 fun e he => h e (by simp [he])⟩
      intro e he
      rcases (table_mem_insert i v t e).1 he with rfl | he
      · simp; omega
      · exact h1 e he

/-- A write inside the table keeps the canonical form. -/
theorem table_set_wf [DecidableEq α] {size : Nat} {d : α} {t : Table α} (h : Table.wf size d t = true) {i : Nat} (hi : i < size)
    (v : α) : Table.wf size d (Table.set d t i v) = true := by
  simp only [Table.wf, Bool.and_eq_true, table_rising_iff, List.all_eq_true, decide_eq_true_eq] at h ⊢
  obtain ⟨hr, ha⟩ := h
  have he : (Table.erase t i).Pairwise (fun e f => e.1 < f.1) := hr.filter _
  have hm : ∀ e ∈ Table.erase t i, e ∈ t := fun e he => (List.mem_filter.1 he).1
  unfold Table.set
  split
  · exact ⟨he, fun e h => ha e (hm e h)⟩
  · rename_i hv
    refine ⟨table_insert_rising i v _ he (table_erase_ne t i), ?_⟩
    intro e hmem
    rcases (table_mem_insert i v _ e).1 hmem with rfl | h
    · exact ⟨hi, hv⟩
    · exact ha e (hm e h)

@[simp] theorem table_wf_nil [DecidableEq α] (size : Nat) (d : α) : Table.wf size d [] = true := rfl

/-! ### HDR -/

/-- Every byte of HDR after a store of several bytes (R151). -/
theorem storeBytes_get (m : Memory) (i : Nat) (bs : List Byte) (j : Nat) :
    Table.get 0#8 (storeBytes m i bs) j =
      if i ≤ j ∧ j < i + bs.length then bs.getD (j - i) 0#8 else Table.get 0#8 m j := by
  induction bs generalizing m i with
  | nil =>
    have h : ¬(i ≤ j ∧ j < i + ([] : List Byte).length) := by rintro ⟨_, h⟩; simp only [List.length_nil] at h; omega
    rw [if_neg h]; rfl
  | cons b bs ih =>
    simp only [storeBytes, ih, List.length_cons]
    by_cases h1 : j = i
    · subst h1
      simp
    · by_cases h2 : i + 1 ≤ j ∧ j < i + 1 + bs.length
      · have h3 : i ≤ j ∧ j < i + (bs.length + 1) := by omega
        have h4 : j - i = (j - (i + 1)) + 1 := by omega
        rw [if_pos h2, if_pos h3, h4, List.getD_cons_succ]
      · have h3 : ¬(i ≤ j ∧ j < i + (bs.length + 1)) := by omega
        rw [if_neg h2, if_neg h3, table_get_set_other _ _ _ _ _ h1]

/-- A store inside HDR keeps its canonical form. -/
theorem storeBytes_wf {m : Memory} (h : Memory.wf m = true) {i : Nat} {bs : List Byte} (hb : i + bs.length ≤ Config.hdrMax) :
    Memory.wf (storeBytes m i bs) = true := by
  induction bs generalizing m i with
  | nil => exact h
  | cons b bs ih =>
    simp only [List.length_cons] at hb
    exact ih (table_set_wf h (by omega) b) (by omega)

end Sys2Proof.Machine
end

