-- ==== Sys2Proof/Laws/Ops.lean ====
section
/-! SUPPORT. One lemma per shared operation that says everything it can do: results and their states, the end of a rule, the
FAULT gate, the stream primitives, the bit packer's and the walker's loops. -/

namespace Sys2Proof.Machine

/-! ### What a result's states satisfy -/

/-- The value and state of a success satisfy Q, the state of a raised error satisfies P. -/
def Res.Post {α : Type} (Q : α → State → Prop) (P : State → Prop) : Res α → Prop
  | .ok a s => Q a s
  | .raise _ _ s => P s
  | .stop _ => True

/-- Whichever way a result ends with a state, the state satisfies P. -/
def Res.All {α : Type} (P : State → Prop) (r : Res α) : Prop := r.Post (fun _ => P) P

@[simp] theorem res_post_ok {α : Type} (Q : α → State → Prop) (P : State → Prop) (a : α) (s : State) :
    (Res.ok a s).Post Q P = Q a s := rfl
@[simp] theorem res_post_raise {α : Type} (Q : α → State → Prop) (P : State → Prop) (e : ErrCode) (i : Word) (s : State) :
    (Res.raise e i s : Res α).Post Q P = P s := rfl
@[simp] theorem res_post_stop {α : Type} (Q : α → State → Prop) (P : State → Prop) (f : Fault) :
    (Res.stop f : Res α).Post Q P = True := rfl
@[simp] theorem res_bind_ok {α β : Type} (a : α) (s : State) (f : α → State → Res β) : (Res.ok a s).bind f = f a s := rfl
@[simp] theorem res_bind_raise {α β : Type} (e : ErrCode) (i : Word) (s : State) (f : α → State → Res β) :
    (Res.raise e i s : Res α).bind f = .raise e i s := rfl
@[simp] theorem res_bind_stop {α β : Type} (x : Fault) (f : α → State → Res β) : (Res.stop x : Res α).bind f = .stop x := rfl

theorem Res.Post.bind {α β : Type} {Q : α → State → Prop} {P : State → Prop} {Q' : β → State → Prop} {P' : State → Prop}
    {r : Res α} {f : α → State → Res β} (h : r.Post Q P) (hf : ∀ a s, Q a s → (f a s).Post Q' P') (hp : ∀ s, P s → P' s) :
    (r.bind f).Post Q' P' := by
  cases r with
  | ok a s => exact hf a s h
  | raise e i s => exact hp s h
  | stop x => trivial

theorem Res.Post.imp {α : Type} {Q Q' : α → State → Prop} {P P' : State → Prop} {r : Res α} (h : r.Post Q P)
    (hq : ∀ a s, Q a s → Q' a s) (hp : ∀ s, P s → P' s) : r.Post Q' P' := by
  cases r with
  | ok a s => exact hq a s h
  | raise e i s => exact hp s h
  | stop x => trivial

/-- A command's next state satisfies P. -/
def NextAll (P : State → Prop) : Host.Outcome State Fault Refusal → Prop
  | .next s => P s
  | .fault _ => True
  | .refused _ => True

theorem nextAll_next {P : State → Prop} {o : Host.Outcome State Fault Refusal} {t : State} (h : NextAll P o) (ho : o = .next t) : P t := by
  subst ho; exact h

/-- P does not look at the response, ERR or ERR_CMD beyond what `raise` may do to them. -/
structure Answerable (P : State → Prop) : Prop where
  respond : ∀ s d, P s → P (s.respond d)
  raise : ∀ s e i w, P s → P (s.raise e i w)
  ignored : ∀ s, P s → P s.ignored

theorem finish_all {P : State → Prop} (hP : Answerable P) {w : Word} {r : Res Word} (h : r.All P) : NextAll P (finish w r) := by
  cases r with
  | ok d s => exact hP.respond s d h
  | raise e i s => exact hP.raise s e i w h
  | stop f => trivial

theorem runAlways_all {P : State → Prop} (hP : Answerable P) {i : Instr} {rule : State → Res Word} {s : State}
    (h : (rule s).All P) : NextAll P (runAlways i rule s) := finish_all hP h

theorem runGated_all {P : State → Prop} (hP : Answerable P) {i : Instr} {rule : State → Res Word} {s : State}
    (hs : P s) (h : (rule s).All P) : NextAll P (runGated i rule s) := by
  unfold runGated
  split
  · exact hP.ignored s hs
  · exact finish_all hP h

/-! ### The end of a rule -/

@[simp] theorem finish_ok (w d : Word) (s : State) : finish w (.ok d s) = .next (s.respond d) := rfl
@[simp] theorem finish_raise (w : Word) (e : ErrCode) (i : Word) (s : State) : finish w (.raise e i s) = .next (s.raise e i w) := rfl
@[simp] theorem finish_stop (w : Word) (f : Fault) : finish w (.stop f) = .fault f := rfl

theorem finish_ne_refused (w : Word) (r : Res Word) (x : Refusal) : finish w r ≠ .refused x := by
  cases r <;> simp

theorem runGated_ne_refused (i : Instr) (rule : State → Res Word) (s : State) (x : Refusal) : runGated i rule s ≠ .refused x := by
  unfold runGated
  split
  · simp
  · exact finish_ne_refused _ _ _

theorem inFault_eq_false {s : State} (h : s.err = 0x00#8) : s.inFault = false := by simp [State.inFault, h]

theorem inFault_eq_true {s : State} (h : s.err ≠ 0x00#8) : s.inFault = true := by simp [State.inFault, h]

/-- Outside FAULT a gated command runs its rule (R72). -/
theorem runGated_run {s : State} (h : s.err = 0x00#8) (i : Instr) (rule : State → Res Word) :
    runGated i rule s = finish (encode i) (rule s) := by simp [runGated, inFault_eq_false h]

/-- In FAULT a gated command is ignored (R72, R242). -/
theorem runGated_ignored {s : State} (h : s.err ≠ 0x00#8) (i : Instr) (rule : State → Res Word) :
    runGated i rule s = .next s.ignored := by simp [runGated, inFault_eq_true h]

/-! ### Streams -/

/-- Everything InRead can do (R51). -/
theorem inRead_post (s : State) :
    (inRead s).Post
      (fun b s' => (b = none ∧ s' = s ∧ s.inPos.toNat = s.inp.length) ∨
        ∃ x, b = some x ∧ s.inp[s.inPos.toNat]? = some x ∧ s.inPos.toNat + 1 < 2 ^ 64 ∧ s' = { s with inPos := s.inPos + 1#64 })
      (fun s' => s' = s) := by
  unfold inRead
  split
  · split
    · rename_i h; exact .inl ⟨rfl, rfl, h⟩
    · trivial
  · rename_i b hb
    split
    · rfl
    · split
      · rename_i h; exact .inr ⟨b, rfl, hb, h, rfl⟩
      · trivial

/-- InRead of a byte that is there, at a position that does not fail (R51). -/
theorem inRead_byte {s : State} {b : Byte} (hb : s.inp[s.inPos.toNat]? = some b) (ho : s.inPos.toNat ∉ s.oracle.readFails)
    (hl : s.inPos.toNat + 1 < 2 ^ 64) : inRead s = .ok (some b) { s with inPos := s.inPos + 1#64 } := by
  simp only [inRead, hb, IoOracle.read, if_neg ho, if_pos hl]

/-- InRead at the end of IN (R51). -/
theorem inRead_eof {s : State} (h : s.inPos.toNat = s.inp.length) : inRead s = .ok none s := by
  simp [inRead, h]

/-- Everything OutWrite can do (R52). -/
theorem outWrite_post (b : Byte) (s : State) :
    (outWrite b s).Post (fun _ s' => s' = { s with out := s.out ++ [b] }) (fun s' => s' = s) := by
  unfold outWrite
  split <;> rfl

/-- OutWrite at a length that does not fail (R52). -/
theorem outWrite_done {b : Byte} {s : State} (h : s.out.length ∉ s.oracle.writeFails) :
    outWrite b s = .ok () { s with out := s.out ++ [b] } := by simp [outWrite, IoOracle.write, h]

/-- Everything a sequence of OutWrites can do (R54): all bytes, or the ones before the first that fails. -/
theorem outWrites_post (bs : List Byte) (s : State) :
    (outWrites bs s).Post (fun _ s' => s' = { s with out := s.out ++ bs })
      (fun s' => ∃ k, s' = { s with out := s.out ++ bs.take k }) := by
  induction bs generalizing s with
  | nil => simp [outWrites]
  | cons b bs ih =>
    refine (outWrite_post b s).bind ?_ fun s' h => ⟨0, by simp [h]⟩
    rintro _ s' rfl
    refine (ih _).imp (fun _ s' h => by simp [h]) ?_
    rintro s' ⟨k, h⟩
    exact ⟨k + 1, by simp [h]⟩

/-- OutWrite at a length that fails (R52). -/
theorem outWrite_fail {b : Byte} {s : State} (h : s.out.length ∈ s.oracle.writeFails) :
    outWrite b s = .raise .io (b.setWidth 32) s := by simp [outWrite, IoOracle.write, h]

/-- A sequence of OutWrites, none of which fails (R54). -/
theorem outWrites_done (bs : List Byte) (s : State) (h : ∀ j < bs.length, s.out.length + j ∉ s.oracle.writeFails) :
    outWrites bs s = .ok () { s with out := s.out ++ bs } := by
  induction bs generalizing s with
  | nil => simp [outWrites]
  | cons b bs ih =>
    rw [outWrites, outWrite_done (h 0 (by simp)), res_bind_ok, ih]
    · simp
    · intro j hj
      have := h (j + 1) (by simpa using hj)
      simpa [Nat.add_assoc, Nat.add_comm 1 j] using this

/-- A sequence of OutWrites whose first failing one is the k-th (R54). -/
theorem outWrites_fail {bs : List Byte} {s : State} {k : Nat} {b : Byte} (hb : bs[k]? = some b)
    (h : ∀ j < k, s.out.length + j ∉ s.oracle.writeFails) (hk : s.out.length + k ∈ s.oracle.writeFails) :
    outWrites bs s = .raise .io (b.setWidth 32) { s with out := s.out ++ bs.take k } := by
  induction bs generalizing s k with
  | nil => simp at hb
  | cons a bs ih =>
    cases k with
    | zero =>
      simp only [List.getElem?_cons_zero, Option.some.injEq] at hb
      subst hb
      rw [outWrites, outWrite_fail hk, res_bind_raise]
      simp
    | succ k =>
      rw [outWrites, outWrite_done (h 0 (by simp)), res_bind_ok, ih (k := k) (by simpa using hb)]
      · simp
      · intro j hj
        have := h (j + 1) (by omega)
        simpa [Nat.add_assoc, Nat.add_comm 1 j] using this
      · simpa [Nat.add_assoc, Nat.add_comm 1 k] using hk

/-! ### The bit packer -/

/-- PushBit writes nothing but BB, BB_N and OUT, to which it appends (R170). -/
theorem pushBit_frame (x : Bool) (s : State) :
    (pushBit x s).All fun s' => s' = { s with bb := s'.bb, bbN := s'.bbN, out := s'.out } ∧ s.out <+: s'.out := by
  unfold pushBit
  split
  · refine (outWrite_post _ _).imp ?_ ?_
    · rintro _ s' rfl; simp [State.clearBits]
    · rintro s' rfl; simp [State.clearBits]
  · simp [Res.All]

/-- PushBits writes nothing but BB, BB_N and OUT, to which it appends (R171). -/
theorem pushBits_frame (c : Bits) (s : State) :
    (pushBits c s).All fun s' => s' = { s with bb := s'.bb, bbN := s'.bbN, out := s'.out } ∧ s.out <+: s'.out := by
  induction c generalizing s with
  | nil => simp [pushBits, Res.All]
  | cons x c ih =>
    refine Res.Post.bind (pushBit_frame x s) ?_ fun s' h => h
    rintro _ s' ⟨h1, h2⟩
    refine (ih s').imp ?_ ?_ <;>
    · intros
      rename_i h
      obtain ⟨h3, h4⟩ := h
      refine ⟨?_, h2.trans h4⟩
      rw [h3, h1]

/-- The buffer after PushBit is as long as BB_N says, whichever way it ends (R170). -/
theorem pushBit_length {x : Bool} {s : State} (h : s.bb.length = s.bbN.toNat) :
    (pushBit x s).All fun s' => s'.bb.length = s'.bbN.toNat := by
  unfold pushBit
  split
  · refine (outWrite_post _ _).imp ?_ ?_
    · rintro _ s' rfl; simp
    · rintro s' rfl; simp
  · rename_i h8
    have := s.bbN.isLt
    simp only [Res.All, res_post_ok, List.length_append, List.length_singleton, h, BitVec.toNat_add, BitVec.toNat_ofNat]
    omega

theorem pushBits_length {c : Bits} {s : State} (h : s.bb.length = s.bbN.toNat) :
    (pushBits c s).All fun s' => s'.bb.length = s'.bbN.toNat := by
  induction c generalizing s with
  | nil => simpa [pushBits, Res.All] using h
  | cons x c ih => exact Res.Post.bind (pushBit_length h) (fun _ _ h => ih h) fun _ h => h

/-! ### Packing -/

/-- A byte unpacked is the 8 bits it was packed from (R56, R192). -/
theorem bitsMsb_packMsb (b7 b6 b5 b4 b3 b2 b1 b0 : Bool) :
    bitsMsb (packMsb [b7, b6, b5, b4, b3, b2, b1, b0]) = [b7, b6, b5, b4, b3, b2, b1, b0] := by
  revert b7 b6 b5 b4 b3 b2 b1 b0; decide +kernel

theorem bitsMsb_packMsb_of_length {p : Bits} (h : p.length = 8) : bitsMsb (packMsb p) = p := by
  match p, h with
  | [b7, b6, b5, b4, b3, b2, b1, b0], _ => exact bitsMsb_packMsb b7 b6 b5 b4 b3 b2 b1 b0

theorem packFrom_append_false (w k : Nat) (p : Bits) : packFrom w (p ++ List.replicate k false) = packFrom w p := by
  induction p generalizing w with
  | nil =>
    induction k generalizing w with
    | zero => rfl
    | succ k ih => simpa [packFrom, List.replicate_succ] using ih (w - 1)
  | cons b p ih => simp [packFrom, ih]

/-- The pad byte unpacked: the pending bits, then zeros (R56, R172). -/
theorem bitsMsb_pad {p : Bits} (h : p.length ≤ 8) : bitsMsb (packMsb p) = p ++ List.replicate (8 - p.length) false := by
  have h1 : packMsb p = packMsb (p ++ List.replicate (8 - p.length) false) := by simp [packMsb, packFrom_append_false]
  rw [h1, bitsMsb_packMsb_of_length (by simp; omega)]

theorem streamBits_append (a b : List Byte) : streamBits (a ++ b) = streamBits a ++ streamBits b := by
  induction a with
  | nil => rfl
  | cons x a ih => simp [streamBits, ih]

/-- PushBits loses no bit when no flush fails: what is in OUT and in BB afterwards is what was there, and the bits (R170, R171,
R180). -/
theorem pushBits_stream {c : Bits} {s : State} (hb : s.bb.length = s.bbN.toNat)
    (ho : ∀ j, 8 * (j + 1) ≤ s.bb.length + c.length → s.out.length + j ∉ s.oracle.writeFails) :
    ∃ s', pushBits c s = .ok () s' ∧ streamBits s'.out ++ s'.bb = streamBits s.out ++ s.bb ++ c := by
  induction c generalizing s with
  | nil => exact ⟨s, rfl, by simp⟩
  | cons x c ih =>
    simp only [List.length_cons] at ho
    rw [pushBits, pushBit]
    split
    · rename_i h8
      rw [outWrite_done (by simpa using ho 0 (by omega)), res_bind_ok]
      obtain ⟨s', h1, h2⟩ := ih (s := { s.clearBits with out := s.clearBits.out ++ [packMsb (s.bb ++ [x])] }) rfl (by
        intro j hj
        simp only [clearBits_bb, List.length_nil] at hj
        have := ho (j + 1) (by omega)
        simpa [Nat.add_assoc, Nat.add_comm 1 j] using this)
      refine ⟨s', h1, ?_⟩
      rw [h2]
      simp [streamBits_append, streamBits, bitsMsb_packMsb_of_length, hb, h8]
    · rename_i h8
      rw [res_bind_ok]
      have h7 := s.bbN.isLt
      obtain ⟨s', h1, h2⟩ := ih (s := { s with bb := s.bb ++ [x], bbN := s.bbN + 1#3 }) (by
        simp only [List.length_append, List.length_singleton, hb, BitVec.toNat_add, BitVec.toNat_ofNat]; omega) (by
        intro j hj
        simp only [List.length_append, List.length_singleton] at hj
        exact ho j (by omega))
      exact ⟨s', h1, by rw [h2]; simp⟩

/-- PushBits whose first failing flush is the k-th: k bytes are in OUT, the failed byte's 8 bits are dropped and BB is empty, and the
bits after them are not pushed (R170, R244). -/
theorem pushBits_fail {c : Bits} {s : State} {k : Nat} (hb : s.bb.length = s.bbN.toNat)
    (ho : ∀ j < k, s.out.length + j ∉ s.oracle.writeFails) (hk : s.out.length + k ∈ s.oracle.writeFails)
    (hl : 8 * (k + 1) ≤ s.bb.length + c.length) :
    ∃ bytes b, bytes.length = k ∧ streamBits bytes = (s.bb ++ c).take (8 * k) ∧ bitsMsb b = ((s.bb ++ c).drop (8 * k)).take 8 ∧
      pushBits c s = .raise .io (b.setWidth 32) { s with out := s.out ++ bytes, bb := [], bbN := 0#3 } := by
  have h7 := s.bbN.isLt
  induction c generalizing s k with
  | nil => simp only [List.length_nil, Nat.add_zero] at hl; omega
  | cons x c ih =>
    simp only [List.length_cons] at hl
    have hcons : s.bb ++ x :: c = (s.bb ++ [x]) ++ c := by simp
    rw [pushBits, pushBit]
    split
    · rename_i h8
      have hlen : (s.bb ++ [x]).length = 8 := by simp [hb, h8]
      have hpk := bitsMsb_packMsb_of_length hlen
      cases k with
      | zero =>
        refine ⟨[], packMsb (s.bb ++ [x]), rfl, by simp [streamBits], ?_, ?_⟩
        · rw [hpk, hcons, Nat.mul_zero, List.drop_zero, ← hlen, List.take_left]
        · rw [outWrite_fail (by simpa using hk), res_bind_raise]
          simp [State.clearBits]
      | succ k =>
        rw [outWrite_done (by simpa using ho 0 (by omega)), res_bind_ok]
        obtain ⟨bytes, b, h1, h2, h3, h4⟩ := ih (k := k) (s := { s.clearBits with out := s.clearBits.out ++ [packMsb (s.bb ++ [x])] }) rfl
          (by intro j hj; have := ho (j + 1) (by omega); simpa [Nat.add_assoc, Nat.add_comm 1 j] using this)
          (by simpa [Nat.add_assoc, Nat.add_comm 1 k] using hk) (by simp only [clearBits_bb, List.length_nil]; omega) (by simp)
        simp only [clearBits_bb, List.nil_append] at h2 h3
        have hmul : 8 * (k + 1) = (s.bb ++ [x]).length + 8 * k := by rw [hlen]; omega
        refine ⟨packMsb (s.bb ++ [x]) :: bytes, b, by simp [h1], ?_, ?_, ?_⟩
        · rw [streamBits, hpk, h2, hcons, hmul, List.take_length_add_append]
        · rw [h3, hcons, hmul, List.drop_length_add_append]
        · rw [h4]; simp [State.clearBits]
    · rename_i h8
      rw [res_bind_ok]
      obtain ⟨bytes, b, h1, h2, h3, h4⟩ := ih (k := k) (s := { s with bb := s.bb ++ [x], bbN := s.bbN + 1#3 }) (by
        simp only [List.length_append, List.length_singleton, hb, BitVec.toNat_add, BitVec.toNat_ofNat]; omega) ho hk
        (by simp only [List.length_append, List.length_singleton]; omega) (BitVec.isLt _)
      rw [hcons]
      exact ⟨bytes, b, h1, h2, h3, h4⟩

/-! ### The walker -/

/-- Everything WalkStep can write: WSTATE, WCUR and OUT, to which it appends (R190). -/
theorem walkStep_frame (x : Bool) (s : State) :
    (walkStep x s).All fun s' => s' = { s with wState := s'.wState, wCur := s'.wCur, out := s'.out } ∧ s.out <+: s'.out := by
  unfold walkStep walkInto
  split
  · simp [Res.All]
  · split
    · simp [Res.All]
    · split
      · simp [Res.All]
      · split <;> try simp [Res.All]
        split
        · simp
        · refine Res.Post.bind (outWrite_post _ _) ?_ ?_
          · rintro _ s' rfl; simp [State.walkerHome]
          · rintro s' rfl; simp [State.walkerHome]

/-- The bit loop of DEC_BYTE writes what its steps write (R194). -/
theorem walkBits_frame (c : Bits) (k : Nat) (s : State) :
    (walkBits c k s).All fun s' => s' = { s with wState := s'.wState, wCur := s'.wCur, out := s'.out } ∧ s.out <+: s'.out := by
  induction c generalizing s k with
  | nil => simp [walkBits, Res.All]
  | cons x c ih =>
    unfold walkBits
    split
    · simp [Res.All]
    · refine Res.Post.bind (walkStep_frame x s) ?_ fun s' h => h
      rintro _ s' ⟨h1, h2⟩
      refine (ih _ s').imp ?_ ?_ <;>
      · intros
        rename_i h
        obtain ⟨h3, h4⟩ := h
        refine ⟨?_, h2.trans h4⟩
        rw [h3, h1]

/-! ### Reading the header -/

/-- Reading one header byte moves IN_POS and nothing else (R153, R154). -/
theorem readHeaderByte_frame (k : Nat) (s : State) :
    (readHeaderByte k s).All fun s' => s' = { s with inPos := s'.inPos } ∧ s.inPos.toNat ≤ s'.inPos.toNat ∧
      (s.inPos.toNat ≤ s.inp.length → s'.inPos.toNat ≤ s.inp.length) := by
  refine Res.Post.bind (inRead_post s) ?_ (by rintro s' rfl; simp)
  rintro b s' (⟨rfl, rfl, h⟩ | ⟨x, rfl, hx, hl, rfl⟩)
  · simp [h]
  · have hlt : s.inPos.toNat < s.inp.length := by
      by_contra hc
      rw [List.getElem?_eq_none (by omega)] at hx
      simp at hx
    simp only [res_post_ok, BitVec.toNat_add, BitVec.toNat_ofNat, true_and]
    omega

/-- What a piece of HC_LOAD's reading does to the state: IN_POS grows and nothing else changes. -/
def ReadsOnly (s s' : State) : Prop :=
  s' = { s with inPos := s'.inPos } ∧ s.inPos.toNat ≤ s'.inPos.toNat ∧
    (s.inPos.toNat ≤ s.inp.length → s'.inPos.toNat ≤ s.inp.length)

theorem ReadsOnly.refl (s : State) : ReadsOnly s s := ⟨rfl, le_rfl, id⟩

theorem ReadsOnly.trans {a b c : State} (h : ReadsOnly a b) (h' : ReadsOnly b c) : ReadsOnly a c := by
  obtain ⟨h1, h2, h3⟩ := h
  obtain ⟨h4, h5, h6⟩ := h'
  refine ⟨by rw [h4, h1], h2.trans h5, fun h => ?_⟩
  have hb := h3 h
  rw [h1] at h6
  exact h6 hb

theorem Res.All.bindReads {α β : Type} {s : State} {r : Res α} {f : α → State → Res β} (h : r.All (ReadsOnly s))
    (hf : ∀ a s', ReadsOnly s s' → (f a s').All (ReadsOnly s')) : (r.bind f).All (ReadsOnly s) :=
  Res.Post.bind h (fun a s' h' => (hf a s' h').imp (fun _ _ h'' => h'.trans h'') fun _ h'' => h'.trans h'') fun _ h => h

theorem readLength_frame (s : State) : (readLength s).All (ReadsOnly s) := by
  unfold readLength
  exact Res.All.bindReads (readHeaderByte_frame _ _) fun _ _ _ => Res.All.bindReads (readHeaderByte_frame _ _) fun _ _ _ =>
    Res.All.bindReads (readHeaderByte_frame _ _) fun _ _ _ => Res.All.bindReads (readHeaderByte_frame _ _) fun _ s' _ =>
      ReadsOnly.refl s'

theorem readBytes_post (n k : Nat) (s : State) :
    (readBytes n k s).Post (fun bs s' => ReadsOnly s s' ∧ bs.length = n) (ReadsOnly s) := by
  induction n generalizing k s with
  | zero => exact ⟨ReadsOnly.refl s, rfl⟩
  | succ n ih =>
    refine Res.Post.bind (readHeaderByte_frame _ _) (fun b s1 h1 => ?_) fun _ h => h
    refine Res.Post.bind (ih _ _) (fun bs s2 h2 => ⟨ReadsOnly.trans h1 h2.1, by simp [h2.2]⟩) fun _ h => ReadsOnly.trans h1 h

theorem readBlock_post (len : Nat) (s : State) :
    (readBlock len s).Post (fun bs s' => ReadsOnly s s' ∧ bs.length = len ∧ len ≤ Config.hdrMax ∧ 0 < len) (ReadsOnly s) := by
  unfold readBlock
  split
  · exact ReadsOnly.refl s
  · exact (readBytes_post len 0 s).imp (fun _ _ h => ⟨h.1, h.2, by omega, by omega⟩) fun _ h => h

/-- Everything HC_LOAD can do (R157, R244): on an error only IN_POS has moved, on success the parsed header is committed. -/
theorem hcLoadRule_post (s : State) :
    (hcLoadRule s).Post
      (fun d s' => ∃ s1 block es t cnt, ReadsOnly s s1 ∧ parseEntries block = .ok es ∧ reconstruct es = .ok (t, cnt) ∧
        block.length ≤ Config.hdrMax ∧ s' = s1.withLoaded es t cnt ∧ s.bpState = .idle ∧
        d = (BitVec.ofNat 32 es.length <<< 16) ||| BitVec.ofNat 32 block.length ∧ block ≠ [])
      (ReadsOnly s) := by
  unfold hcLoadRule
  split
  · exact ReadsOnly.refl s
  · rename_i hidle
    refine Res.Post.bind (readLength_frame s) (fun len s1 h1 => ?_) fun _ h => h
    refine Res.Post.bind (readBlock_post len s1) (fun block s2 h2 => ?_) fun _ h => ReadsOnly.trans h1 h
    have hr := ReadsOnly.trans h1 h2.1
    cases hp : parseEntries block with
    | error e => exact hr
    | ok es =>
      cases ht : reconstruct es with
      | error e => simpa [Res.ofHdr, ht] using hr
      | ok tc =>
        simp only [Res.ofHdr, ht, res_bind_ok, res_post_ok]
        exact ⟨s2, block, es, tc.1, tc.2, hr, hp, ht, by rw [h2.2.1]; exact h2.2.2.1, rfl, by simpa using hidle, by rw [h2.2.1],
          List.length_pos_iff.1 (by rw [h2.2.1]; exact h2.2.2.2)⟩

end Sys2Proof.Machine
end

