-- ==== Sys2Proof/Laws/Rules.lean ====
section
/-! SUPPORT. Every command as the end of one rule, and for each rule one lemma that says everything it can do. -/

namespace Sys2Proof.Machine

/-- The rule of an instruction, before the FAULT gate and the response. SRESET has none: it never fails. -/
def ruleOf : Instr → State → Res Word
  | .sreset, s => .ok 0#32 s
  | .rdStat, s => .ok s.status s
  | .rdErrCmd, s => .ok s.errCmd s
  | .rdInPos, s => .ok (s.inPos.extractLsb' 0 32) s
  | .frqClr, s => .ok 0#32 { s with freq := freqCleared }
  | .frqAdd sym, s => frqAddRule sym s
  | .rdFreq sym, s => .ok (s.freqAt sym) s
  | .tbBuild, s => tbBuildRule s
  | .rdRoot, s =>
    .ok (((BitVec.ofBool s.treeValid).setWidth 32 <<< 31) ||| (s.nodeCnt.setWidth 32 <<< 16) ||| s.root.setWidth 32) s
  | .rdNode idx, s => rdNodeRule idx s
  | .rdNwt h idx, s => rdNwtRule h idx s
  | .cgGen, s => cgGenRule s
  | .rdCLen sym, s => .ok ((s.codeLenAt sym).setWidth 32) s
  | .rdCodeW w sym, s => .ok (codeWord (s.codeBitsAt sym) (s.codeLenAt sym).toNat w) s
  | .hcSer, s => hcSerRule s
  | .hcLoad, s => hcLoadRule s
  | .rdHdrLen, s => .ok (((BitVec.ofBool s.hdrValid).setWidth 32 <<< 31) ||| s.hdrLen.setWidth 32) s
  | .rdHdrB idx, s => rdHdrBRule idx s
  | .bpOpen, s => bpOpenRule s
  | .bpHdr, s => bpHdrRule s
  | .bpIns n v, s =>
    if (Instr.bpIns n v).wellFormed then bpInsRule n v s else .raise .illegal (encode (.bpIns n v)) s
  | .encSym sym, s => encSymRule sym s
  | .encTerm, s => encTermRule s
  | .bpClose, s => bpCloseRule s
  | .brExt, s => brExtRule s
  | .dwBit b, s => dwBitRule b s
  | .decByte, s => decByteRule s
  | .decEnd, s => decEndRule s

/-- Whether FAULT keeps an instruction from its rule (R72); a term no word encodes is answered before the gate (R72, log 16). -/
def isGated (i : Instr) : Bool := i != .rdStat && i != .rdErrCmd && i != .bpClose && i.wellFormed

/-- SRESET (R210). -/
theorem exec_sreset (s : State) : exec .sreset s = .next (s.resetBlock.respond 0#32) := rfl

/-- Every other command: ignored in FAULT when gated, else its rule and the answer (R72, R241, R242). -/
theorem exec_eq {i : Instr} (h : i ≠ .sreset) (s : State) :
    exec i s = if isGated i && s.inFault then .next s.ignored else finish (encode i) (ruleOf i s) := by
  cases i <;> first
    | exact absurd rfl h
    | (simp only [exec, isGated, ruleOf]; rfl)
    | (rename_i n v
       by_cases hw : (Instr.bpIns n v).wellFormed = true
       · simp [exec, execBpIns, runGated, isGated, ruleOf, hw]
       · simp [exec, execBpIns, isGated, ruleOf, hw])

/-- Outside FAULT every command but SRESET is its rule and the answer (R72). -/
theorem exec_run {i : Instr} (h : i ≠ .sreset) {s : State} (he : s.err = 0x00#8) : exec i s = finish (encode i) (ruleOf i s) := by
  simp [exec_eq h, inFault_eq_false he]

/-- What a command's next state satisfies, from what its rule's states satisfy. -/
theorem exec_all {P : State → Prop} (hP : Answerable P) {i : Instr} (h : i ≠ .sreset) {s t : State} (hs : P s)
    (hr : (ruleOf i s).All P) (he : exec i s = .next t) : P t := by
  refine nextAll_next (P := P) ?_ he
  rw [exec_eq h]
  split
  · exact hP.ignored s hs
  · exact finish_all hP hr

/-! ### What each rule can do -/

/-- The commands that only read (R253, R195). -/
def isReadBack : Instr → Bool
  | .rdStat | .rdErrCmd | .rdInPos | .rdFreq _ | .rdRoot | .rdNode _ | .rdNwt _ _ | .rdCLen _ | .rdCodeW _ _ | .rdHdrLen
  | .rdHdrB _ | .decEnd => true
  | .sreset | .frqClr | .frqAdd _ | .tbBuild | .cgGen | .hcSer | .hcLoad | .bpOpen | .bpHdr | .bpIns _ _ | .encSym _ | .encTerm
  | .bpClose | .brExt | .dwBit _ | .decByte => false

theorem ruleOf_reads {i : Instr} (h : isReadBack i = true) (s : State) : (ruleOf i s).All (· = s) := by
  cases i <;> first
    | (simp [isReadBack] at h; done)
    | rfl
    | (simp only [ruleOf, rdNodeRule, rdNwtRule, rdHdrBRule, decEndRule]; repeat' split
       all_goals rfl)

/-- FRQ_ADD (R101). -/
theorem frqAddRule_post (sym : Byte) (s : State) :
    (frqAddRule sym s).Post
      (fun _ t => sym ≠ Config.termByte ∧ s.freqAt sym ≠ 0xFFFFFFFF#32 ∧ t = s.setFreq sym (s.freqAt sym + 1#32)) (· = s) := by
  unfold frqAddRule
  split
  · rfl
  · split
    · rfl
    · exact ⟨‹_›, ‹_›, rfl⟩

/-- TB_BUILD (R112). -/
theorem tbBuildRule_post (s : State) :
    (tbBuildRule s).Post
      (fun _ t => s.bpState = .idle ∧ ∃ b, buildTree (sortedKeys s.freq) = some b ∧ t = s.withBuilt b) (· = s) := by
  unfold tbBuildRule
  split
  · rfl
  · rename_i h
    split
    · rfl
    · rename_i b hb
      exact ⟨by simpa using h, b, hb, rfl⟩

/-- CG_GEN (R131). -/
theorem cgGenRule_post (s : State) :
    (cgGenRule s).Post
      (fun _ t => s.bpState = .idle ∧ s.treeValid = true ∧ ∃ c, genCodes s.node s.root = .ok c ∧ t = s.withCodes c) (· = s) := by
  unfold cgGenRule
  split
  · rfl
  · rename_i h
    split
    · rfl
    · rename_i hv
      split
      · trivial
      · rename_i c hc
        exact ⟨by simpa using h, by simpa using hv, c, hc, rfl⟩

/-- HC_SER (R151). -/
theorem hcSerRule_post (s : State) :
    (hcSerRule s).Post
      (fun _ t => s.bpState = .idle ∧ s.codeValid = true ∧ s.serialize.length ≤ Config.hdrMax ∧ t = s.withHeader s.serialize)
      (· = s) := by
  unfold hcSerRule
  split
  · rfl
  · rename_i h
    split
    · rfl
    · rename_i hv
      split
      · trivial
      · exact ⟨by simpa using h, by simpa using hv, by omega, rfl⟩

/-- BP_OPEN (R173). -/
theorem bpOpenRule_post (s : State) :
    (bpOpenRule s).Post (fun _ t => s.bpState = .idle ∧ t = (s.setSession .opened).clearBits) (· = s) := by
  unfold bpOpenRule
  split
  · rfl
  · rename_i h
    exact ⟨by simpa using h, rfl⟩

/-- BP_HDR (R174): all its bytes, or the ones before the first that failed. -/
theorem bpHdrRule_post (s : State) :
    (bpHdrRule s).Post
      (fun _ t => s.bpState = .opened ∧ s.hdrValid = true ∧ t = { s with out := s.out ++ s.hdrFile, bpState := .hdrDone })
      (fun t => ∃ k, t = { s with out := s.out ++ s.hdrFile.take k }) := by
  unfold bpHdrRule
  split
  · exact ⟨0, by simp⟩
  · rename_i h
    split
    · exact ⟨0, by simp⟩
    · rename_i hv
      refine Res.Post.bind (outWrites_post s.hdrFile s) ?_ fun t h => h
      rintro _ t rfl
      exact ⟨by simpa using h, by simpa using hv, rfl⟩

/-- The three payload commands (R175, R176, R177): nothing, or their bits pushed in HDR_DONE. -/
def isPayload : Instr → Bool
  | .bpIns _ _ | .encSym _ | .encTerm => true
  | .sreset | .rdStat | .rdErrCmd | .rdInPos | .frqClr | .frqAdd _ | .rdFreq _ | .tbBuild | .rdRoot | .rdNode _ | .rdNwt _ _
  | .cgGen | .rdCLen _ | .rdCodeW _ _ | .hcSer | .hcLoad | .rdHdrLen | .rdHdrB _ | .bpOpen | .bpHdr | .bpClose | .brExt
  | .dwBit _ | .decByte | .decEnd => false

theorem ruleOf_payload {i : Instr} (h : isPayload i = true) (s : State) :
    (∃ e info, ruleOf i s = .raise e info s) ∨ (s.bpState = .hdrDone ∧ ∃ c, ruleOf i s = pushAndRespond c s) := by
  cases i <;> simp only [isPayload, Bool.false_eq_true] at h
  case bpIns n v =>
    simp only [ruleOf, bpInsRule]
    split
    · split
      · exact .inl ⟨_, _, rfl⟩
      · rename_i h; exact .inr ⟨by simpa using h, _, rfl⟩
    · exact .inl ⟨_, _, rfl⟩
  case encSym sym =>
    simp only [ruleOf, encSymRule]
    split
    · exact .inl ⟨_, _, rfl⟩
    rename_i h
    repeat' split
    all_goals first
      | exact .inl ⟨_, _, rfl⟩
      | exact .inr ⟨by simpa using h, _, rfl⟩
  case encTerm =>
    simp only [ruleOf, encTermRule]
    split
    · exact .inl ⟨_, _, rfl⟩
    rename_i h
    repeat' split
    all_goals first
      | exact .inl ⟨_, _, rfl⟩
      | exact .inr ⟨by simpa using h, _, rfl⟩

/-- What a payload command does to the state, whichever way it ends (R175 to R177). -/
theorem ruleOf_payload_frame {i : Instr} (h : isPayload i = true) (s : State) :
    (ruleOf i s).All fun t => t = { s with bb := t.bb, bbN := t.bbN, out := t.out } ∧ s.out <+: t.out ∧
      (s.bpState ≠ .hdrDone → t = s) ∧ (s.bb.length = s.bbN.toNat → t.bb.length = t.bbN.toNat) := by
  rcases ruleOf_payload h s with ⟨e, info, hr⟩ | ⟨hd, c, hr⟩
  · rw [hr]; exact ⟨rfl, List.prefix_rfl, fun _ => rfl, id⟩
  · rw [hr]
    by_cases hl : s.bb.length = s.bbN.toNat
    · have h1 := pushBits_frame c s
      have h2 := pushBits_length (c := c) hl
      unfold pushAndRespond
      cases hp : pushBits c s with
      | ok a t => rw [hp] at h1 h2; exact ⟨h1.1, h1.2, fun hn => absurd hd hn, fun _ => h2⟩
      | raise e info t => rw [hp] at h1 h2; exact ⟨h1.1, h1.2, fun hn => absurd hd hn, fun _ => h2⟩
      | stop f => trivial
    · have h1 := pushBits_frame c s
      unfold pushAndRespond
      cases hp : pushBits c s with
      | ok a t => rw [hp] at h1; exact ⟨h1.1, h1.2, fun hn => absurd hd hn, fun hl' => absurd hl' hl⟩
      | raise e info t => rw [hp] at h1; exact ⟨h1.1, h1.2, fun hn => absurd hd hn, fun hl' => absurd hl' hl⟩
      | stop f => trivial

/-- BP_CLOSE (R178). -/
theorem bpCloseRule_all (s : State) :
    (bpCloseRule s).All fun t => (s.bpState = .idle ∧ t = s) ∨
      (s.bpState ≠ .idle ∧ (t = s.released ∨ t = { s.released with out := s.out ++ [s.padByte] })) := by
  unfold bpCloseRule
  split
  · exact .inl ⟨‹_›, rfl⟩
  · rename_i h
    split
    · exact .inr ⟨h, .inl rfl⟩
    · refine Res.Post.bind (outWrite_post s.padByte s.released) ?_ ?_
      · rintro _ t rfl; exact .inr ⟨h, .inr rfl⟩
      · rintro t rfl; exact .inr ⟨h, .inl rfl⟩

/-- BR_EXT (R191). -/
theorem brExtRule_all (s : State) :
    (brExtRule s).All fun t => t = s ∨
      (s.inPos.toNat < s.inp.length ∧ s.inPos.toNat + 1 < 2 ^ 64 ∧ t = { s with inPos := s.inPos + 1#64 }) := by
  unfold brExtRule
  refine Res.Post.bind (inRead_post s) ?_ fun t h => .inl h
  rintro b t (⟨rfl, rfl, _⟩ | ⟨x, rfl, hx, hl, rfl⟩)
  · exact .inl rfl
  · exact .inr ⟨(List.getElem?_eq_some_iff.1 hx).1, hl, rfl⟩

/-- DW_BIT (R193): nothing, or one walk step on a valid tree outside a session. -/
theorem dwBitRule_cases (b : Bool) (s : State) :
    (∃ e info, dwBitRule b s = .raise e info s) ∨
      (s.bpState = .idle ∧ s.treeValid = true ∧
        dwBitRule b s = (walkStep b s).bind fun e t => .ok ((t.wState.bits.setWidth 32 <<< 9) ||| emitField e) t) := by
  unfold dwBitRule
  split
  · exact .inl ⟨_, _, rfl⟩
  · rename_i h
    split
    · exact .inl ⟨_, _, rfl⟩
    · rename_i hv
      exact .inr ⟨by simpa using h, by simpa using hv, rfl⟩

/-- DEC_BYTE (R194): nothing, or one byte read and walked, on a valid tree outside a session. -/
theorem decByteRule_post (s : State) :
    (decByteRule s).All fun t => t = s ∨ (s.bpState = .idle ∧ s.treeValid = true ∧ s.wState ≠ .terminated ∧
      ∃ b, s.inp[s.inPos.toNat]? = some b ∧ s.inPos.toNat + 1 < 2 ^ 64 ∧
        ((∃ k, walkBits (bitsMsb b) 0 { s with inPos := s.inPos + 1#64 } = .ok k t) ∨
         (∃ e info, walkBits (bitsMsb b) 0 { s with inPos := s.inPos + 1#64 } = .raise e info t))) := by
  unfold decByteRule
  split
  · exact .inl rfl
  rename_i h
  split
  · exact .inl rfl
  rename_i hv
  split
  · exact .inl rfl
  rename_i hw
  refine Res.Post.bind (inRead_post s) ?_ fun t h => .inl h
  rintro b t (⟨rfl, rfl, _⟩ | ⟨x, rfl, hx, hl, rfl⟩)
  · exact .inl rfl
  · dsimp only
    cases hr : walkBits (bitsMsb x) 0 { s with inPos := s.inPos + 1#64 } with
    | ok k u => exact Or.inr ⟨by simpa using h, by simpa using hv, hw, x, hx, hl, .inl ⟨k, hr⟩⟩
    | raise e info u => exact Or.inr ⟨by simpa using h, by simpa using hv, hw, x, hx, hl, .inr ⟨e, info, hr⟩⟩
    | stop f => trivial

/-- What a walking command does to the state, whichever way it ends (R191, R193, R194). -/
theorem ruleOf_walk_frame {i : Instr} (h : i = .brExt ∨ i = .decByte ∨ ∃ x, i = .dwBit x) (s : State) :
    (ruleOf i s).All fun t =>
      t = { s with wState := t.wState, wCur := t.wCur, inPos := t.inPos, out := t.out } ∧ s.out <+: t.out ∧
      s.inPos.toNat ≤ t.inPos.toNat ∧ (s.inPos.toNat ≤ s.inp.length → t.inPos.toNat ≤ s.inp.length) ∧
      (i = .brExt → t = { s with inPos := t.inPos }) ∧ ((∃ x, i = .dwBit x) → t.inPos = s.inPos) := by
  have self : s = { s with wState := s.wState, wCur := s.wCur, inPos := s.inPos, out := s.out } ∧ s.out <+: s.out ∧
      s.inPos.toNat ≤ s.inPos.toNat ∧ (s.inPos.toNat ≤ s.inp.length → s.inPos.toNat ≤ s.inp.length) ∧
      (i = .brExt → s = { s with inPos := s.inPos }) ∧ ((∃ x, i = .dwBit x) → s.inPos = s.inPos) :=
    ⟨rfl, List.prefix_rfl, le_rfl, id, fun _ => rfl, fun _ => rfl⟩
  rcases h with rfl | rfl | ⟨x, rfl⟩
  · refine (brExtRule_all s).imp ?_ ?_
    all_goals
      intros
      rename_i h
      rcases h with rfl | ⟨h1, h2, rfl⟩
      · exact self
      · simp only [BitVec.toNat_add, BitVec.toNat_ofNat, List.prefix_rfl, reduceCtorEq, exists_false, false_implies, and_true,
          true_and, implies_true]
        omega
  · refine (decByteRule_post s).imp ?_ ?_
    all_goals
      intros
      rename_i t h
      rcases h with rfl | ⟨_, _, _, b, hb, h64, hw⟩
      · exact self
      · have hlt : s.inPos.toNat < s.inp.length := (List.getElem?_eq_some_iff.1 hb).1
        have hf := walkBits_frame (bitsMsb b) 0 { s with inPos := s.inPos + 1#64 }
        have hf' : t = { s with inPos := s.inPos + 1#64, wState := t.wState, wCur := t.wCur, out := t.out } ∧ s.out <+: t.out := by
          rcases hw with ⟨k, hk⟩ | ⟨e, info, hk⟩ <;> · rw [hk] at hf; exact hf
        have hi : t.inPos = s.inPos + 1#64 := by rw [hf'.1]
        have hn : t.inPos.toNat = s.inPos.toNat + 1 := by
          rw [hi]; simp only [BitVec.toNat_add, BitVec.toNat_ofNat]; omega
        refine ⟨?_, hf'.2, by omega, fun _ => by omega, by simp, by simp⟩
        rw [hf'.1]
  · rcases dwBitRule_cases x s with ⟨e, info, hr⟩ | ⟨_, _, hr⟩
    · simp only [ruleOf, hr]
      exact ⟨rfl, List.prefix_rfl, le_rfl, id, by simp, fun _ => rfl⟩
    · simp only [ruleOf, hr]
      refine Res.Post.bind (walkStep_frame x s) ?_ ?_
      all_goals
        intros
        rename_i t h
        obtain ⟨h1, h2⟩ := h
        have hi : t.inPos = s.inPos := by rw [h1]
        refine ⟨?_, h2, by rw [hi], fun h => by rw [hi]; exact h, by simp, fun _ => hi⟩
        rw [hi]; exact h1

/-! ### What every rule keeps -/

/-- What no rule but SRESET's does, whichever way it ends: touch ERR, ERR_CMD, IN, the oracle or the port, take a byte off OUT, or
move IN_POS back or past the end of IN. -/
def RuleKeeps (i : Instr) (s t : State) : Prop :=
  t.err = s.err ∧ t.errCmd = s.errCmd ∧ t.inp = s.inp ∧ t.oracle = s.oracle ∧ t.port = s.port ∧ s.out <+: t.out ∧
    s.inPos.toNat ≤ t.inPos.toNat ∧ (s.inPos.toNat ≤ s.inp.length → t.inPos.toNat ≤ s.inp.length) ∧
    (i ∉ [Instr.hcLoad, .brExt, .decByte] → t.inPos = s.inPos)

theorem ruleOf_keeps (i : Instr) (s : State) : (ruleOf i s).All (RuleKeeps i s) := by
  have self : RuleKeeps i s s := ⟨rfl, rfl, rfl, rfl, rfl, List.prefix_rfl, le_rfl, id, fun _ => rfl⟩
  by_cases hr : isReadBack i = true
  · exact (ruleOf_reads hr s).imp (by rintro _ t rfl; exact self) (by rintro t rfl; exact self)
  by_cases hp : isPayload i = true
  · exact (ruleOf_payload_frame hp s).imp (by rintro _ t ⟨h, h2, -⟩; rw [h]; simp [RuleKeeps, h2]) (by rintro t ⟨h, h2, -⟩; rw [h]; simp [RuleKeeps, h2])
  by_cases hw : i = .brExt ∨ i = .decByte ∨ ∃ x, i = .dwBit x
  · refine (ruleOf_walk_frame hw s).imp ?_ ?_ 
    all_goals
      intros
      rename_i t h
      obtain ⟨h1, h2, h3, h4, h5, h6⟩ := h
      refine ⟨by rw [h1], by rw [h1], by rw [h1], by rw [h1], by rw [h1], h2, h3, h4, ?_⟩
      intro hm
      rcases hw with rfl | rfl | ⟨x, rfl⟩
      · simp at hm
      · simp at hm
      · exact h6 ⟨x, rfl⟩
  cases i <;> simp [isReadBack, isPayload] at hr hp hw
  · exact self
  · simp [ruleOf, Res.All, RuleKeeps]
  · exact (frqAddRule_post _ s).imp (by rintro _ t ⟨_, _, rfl⟩; simp [RuleKeeps]) (by rintro t rfl; exact self)
  · exact (tbBuildRule_post s).imp (by rintro _ t ⟨_, b, _, rfl⟩; simp [RuleKeeps, State.withBuilt]) (by rintro t rfl; exact self)
  · exact (cgGenRule_post s).imp (by rintro _ t ⟨_, _, c, _, rfl⟩; simp [RuleKeeps, State.withCodes]) (by rintro t rfl; exact self)
  · exact (hcSerRule_post s).imp (by rintro _ t ⟨_, _, _, rfl⟩; simp [RuleKeeps]) (by rintro t rfl; exact self)
  · refine (hcLoadRule_post s).imp ?_ ?_
    · rintro _ t ⟨s1, _, _, _, _, ⟨h1, h2, h3⟩, _, _, _, rfl, _⟩
      simp [RuleKeeps, State.withLoaded, h2]
      exact ⟨by rw [h1], by rw [h1], by rw [h1], by rw [h1], by rw [h1], by rw [h1], h3⟩
    · rintro t ⟨h1, h2, h3⟩
      simp [RuleKeeps, h2]
      exact ⟨by rw [h1], by rw [h1], by rw [h1], by rw [h1], by rw [h1], by rw [h1], h3⟩
  · exact (bpOpenRule_post s).imp (by rintro _ t ⟨_, rfl⟩; simp [RuleKeeps]) (by rintro t rfl; exact self)
  · exact (bpHdrRule_post s).imp (by rintro _ t ⟨_, _, rfl⟩; simp [RuleKeeps]) (by rintro t ⟨k, rfl⟩; simp [RuleKeeps])
  · refine (bpCloseRule_all s).imp ?_ ?_
    all_goals
      intros
      rename_i t h
      rcases h with ⟨_, rfl⟩ | ⟨_, rfl | rfl⟩
      · exact self
      · simp [RuleKeeps, State.released]
      · simp [RuleKeeps, State.released]

/-- A property that ERR and ERR_CMD may break only when they change out of ERR = 0 survives every answer. -/
theorem Answerable.of {P : State → Prop}
    (h : ∀ (s : State) rc rd e ec, P s → (s.err ≠ 0#8 → e = s.err ∧ ec = s.errCmd) →
      P { s with rspCode := rc, rspData := rd, err := e, errCmd := ec }) : Answerable P where
  respond s d hs := h s _ _ s.err s.errCmd hs (fun _ => ⟨rfl, rfl⟩)
  ignored s hs := h s _ _ s.err s.errCmd hs (fun _ => ⟨rfl, rfl⟩)
  raise s e i w hs := by
    unfold State.raise
    split
    · rename_i he; exact h s _ _ _ _ hs (fun hn => absurd he hn)
    · exact h s _ _ s.err s.errCmd hs (fun _ => ⟨rfl, rfl⟩)

/-! ### STATUS -/

/-- STATUS bit by bit (R34). -/
theorem status_bit (s : State) (i : Nat) (hi : i < 32) :
    s.status.getLsbD i =
      if i < 8 then s.err.getLsbD i else if i < 9 then s.inFault else if i < 10 then s.treeValid else if i < 11 then s.codeValid
      else if i < 12 then s.hdrValid else if i < 14 then s.bpState.bits.getLsbD (i - 12)
      else if i < 17 then s.bbN.getLsbD (i - 14) else if i < 19 then s.wState.bits.getLsbD (i - 17) else if i < 20 then false
      else if i < 28 then s.padByte.getLsbD (i - 20) else false := by
  have h : s.status.getLsbD i = (0#4 ++ s.padByte ++ 0#1 ++ s.wState.bits ++ s.bbN ++ s.bpState.bits ++ BitVec.ofBool s.hdrValid ++
      BitVec.ofBool s.codeValid ++ BitVec.ofBool s.treeValid ++ BitVec.ofBool s.inFault ++ s.err :
        BitVec (4 + 8 + 1 + 2 + 3 + 2 + 1 + 1 + 1 + 1 + 8)).getLsbD i := rfl
  rw [h]
  simp only [BitVec.getLsbD_append]
  interval_cases i <;> simp

end Sys2Proof.Machine
end

