-- ==== Sys2Proof/Laws/Effects.lean ====
section
/-! SUPPORT. Said once: every change a command's rule can make to the state, everything a step can do, and how a property that
survives each of them is kept by every step. -/

namespace Sys2Proof.Machine

/-! ### The walker stays on the tree -/

theorem walkStep_placed (x : Bool) {s : State} (h : s.WalkerPlaced) : (walkStep x s).All State.WalkerPlaced := by
  unfold walkStep walkInto
  split
  · exact h
  · split
    · trivial
    · split
      · exact h
      · rename_i hc
        split
        · exact h
        · exact h
        · rename_i hk
          simp only [Res.All, res_post_ok, State.WalkerPlaced, if_true]
          exact ⟨hc, hk⟩
        · split
          · exact (rfl : Config.nil = Config.nil)
          · refine Res.Post.bind (outWrite_post _ _) ?_ ?_
            · rintro _ t rfl; exact (rfl : Config.nil = Config.nil)
            · rintro t rfl; exact (rfl : Config.nil = Config.nil)

theorem walkBits_placed (c : Bits) (k : Nat) {s : State} (h : s.WalkerPlaced) : (walkBits c k s).All State.WalkerPlaced := by
  induction c generalizing s k with
  | nil => exact h
  | cons x c ih =>
    unfold walkBits
    split
    · exact h
    · exact Res.Post.bind (walkStep_placed x h) (fun _ _ h' => ih _ h') fun _ h' => h'

theorem ruleOf_walk_placed {i : Instr} (h : i = .brExt ∨ i = .decByte ∨ ∃ x, i = .dwBit x) {s : State} (hs : s.WalkerPlaced) :
    (ruleOf i s).All State.WalkerPlaced := by
  rcases h with rfl | rfl | ⟨x, rfl⟩
  · refine (brExtRule_all s).imp ?_ ?_
    all_goals
      intros
      rename_i h
      rcases h with rfl | ⟨_, _, rfl⟩
      · exact hs
      · exact hs
  · refine (decByteRule_post s).imp ?_ ?_
    all_goals
      intros
      rename_i t h
      rcases h with rfl | ⟨_, _, _, b, _, _, hw⟩
      · exact hs
      · have hp := walkBits_placed (bitsMsb b) 0 (s := { s with inPos := s.inPos + 1#64 }) hs
        rcases hw with ⟨k, hk⟩ | ⟨e, info, hk⟩ <;> · rw [hk] at hp; exact hp
  · rcases dwBitRule_cases x s with ⟨e, info, hr⟩ | ⟨_, _, hr⟩
    · simp only [ruleOf, hr]; exact hs
    · simp only [ruleOf, hr]
      exact Res.Post.bind (walkStep_placed x hs) (fun _ _ h => h) fun _ h => h

/-! ### Every change a rule can make -/

/-- The changes that the rule of an instruction can make to the state, whichever way it ends. -/
inductive Effect (i : Instr) (s : State) : State → Prop where
  | none : Effect i s s
  | clear (hi : i = .frqClr) : Effect i s { s with freq := freqCleared }
  | count (sym : Byte) (hi : i = .frqAdd sym) (h3 : sym ≠ Config.termByte) : Effect i s (s.setFreq sym (s.freqAt sym + 1#32))
  | build (hi : i = .tbBuild) (b : Built) (hb : buildTree (sortedKeys s.freq) = some b) (hidle : s.bpState = .idle) :
      Effect i s (s.withBuilt b)
  | generate (hi : i = .cgGen) (c : CodeTable) (hc : genCodes s.node s.root = .ok c) (hidle : s.bpState = .idle)
      (hv : s.treeValid = true) : Effect i s (s.withCodes c)
  | serialize (hi : i = .hcSer) (hl : s.serialize.length ≤ Config.hdrMax) (hidle : s.bpState = .idle) (hv : s.codeValid = true) :
      Effect i s (s.withHeader s.serialize)
  | read (hi : i = .hcLoad) (t : State) (ht : ReadsOnly s t) : Effect i s t
  | load (hi : i = .hcLoad) (u : State) (hu : ReadsOnly s u) (block : List Byte) (es : List (Byte × Bits)) (arena : Table Node) (cnt : Nat)
      (hp : parseEntries block = .ok es) (hr : reconstruct es = .ok (arena, cnt)) (hidle : s.bpState = .idle) (hb : block ≠ []) :
      Effect i s (u.withLoaded es arena cnt)
  | openSession (hi : i = .bpOpen) (hidle : s.bpState = .idle) : Effect i s (s.setSession .opened).clearBits
  | writeHeader (hi : i = .bpHdr) (ho : s.bpState = .opened) (hv : s.hdrValid = true) :
      Effect i s { s with out := s.out ++ s.hdrFile, bpState := .hdrDone }
  | writePart (hi : i = .bpHdr) (k : Nat) : Effect i s { s with out := s.out ++ s.hdrFile.take k }
  | push (hi : isPayload i = true) (t : State) (hd : s.bpState = .hdrDone) (ht : t = { s with bb := t.bb, bbN := t.bbN, out := t.out })
      (ho : s.out <+: t.out) (hb : s.bb.length = s.bbN.toNat → t.bb.length = t.bbN.toNat) : Effect i s t
  | close (hi : i = .bpClose) (t : State) (ho : s.bpState ≠ .idle)
      (ht : t = s.released ∨ t = { s.released with out := s.out ++ [s.padByte] }) : Effect i s t
  | walk (hi : i = .brExt ∨ i = .decByte ∨ ∃ x, i = .dwBit x) (t : State)
      (ht : t = { s with wState := t.wState, wCur := t.wCur, inPos := t.inPos, out := t.out }) (ho : s.out <+: t.out)
      (hw : s.WalkerPlaced → t.WalkerPlaced) (he : i = .brExt → t = { s with inPos := t.inPos })
      (hd : (∃ x, i = .dwBit x) → t.inPos = s.inPos) : Effect i s t

/-- Every rule's states are effects of it. -/
theorem ruleOf_effect (i : Instr) (s : State) : (ruleOf i s).All (Effect i s) := by
  by_cases hr : isReadBack i = true
  · exact (ruleOf_reads hr s).imp (by rintro _ t rfl; exact .none) (by rintro t rfl; exact .none)
  by_cases hp : isPayload i = true
  · refine (ruleOf_payload_frame hp s).imp ?_ ?_
    all_goals
      intros
      rename_i t h
      obtain ⟨h1, h2, h3, h4⟩ := h
      by_cases hd : s.bpState = .hdrDone
      · exact .push hp t hd h1 h2 h4
      · rw [h3 hd]; exact .none
  by_cases hw : i = .brExt ∨ i = .decByte ∨ ∃ x, i = .dwBit x
  · have h1 := ruleOf_walk_frame hw s
    have h2 : s.WalkerPlaced → (ruleOf i s).All State.WalkerPlaced := ruleOf_walk_placed hw
    cases hx : ruleOf i s with
    | ok a t =>
      rw [hx] at h1 h2
      obtain ⟨f1, f2, -, -, f5, f6⟩ := h1
      exact Effect.walk hw t f1 f2 h2 f5 f6
    | raise e info t =>
      rw [hx] at h1 h2
      obtain ⟨f1, f2, -, -, f5, f6⟩ := h1
      exact Effect.walk hw t f1 f2 h2 f5 f6
    | stop f => trivial
  cases i <;> simp [isReadBack, isPayload] at hr hp hw
  · exact .none
  · exact .clear rfl
  · exact (frqAddRule_post _ s).imp (by rintro _ t ⟨h, _, rfl⟩; exact .count _ rfl h) (by rintro t rfl; exact .none)
  · exact (tbBuildRule_post s).imp (by rintro _ t ⟨h, b, hb, rfl⟩; exact .build rfl b hb h) (by rintro t rfl; exact .none)
  · exact (cgGenRule_post s).imp (by rintro _ t ⟨h, hv, c, hc, rfl⟩; exact .generate rfl c hc h hv) (by rintro t rfl; exact .none)
  · exact (hcSerRule_post s).imp (by rintro _ t ⟨h, hv, hl, rfl⟩; exact .serialize rfl hl h hv) (by rintro t rfl; exact .none)
  · refine (hcLoadRule_post s).imp ?_ fun t h => .read rfl t h
    rintro _ t ⟨u, block, es, arena, cnt, hu, hp, hr, _, rfl, hidle, _, hb⟩
    exact .load rfl u hu block es arena cnt hp hr hidle hb
  · exact (bpOpenRule_post s).imp (by rintro _ t ⟨h, rfl⟩; exact .openSession rfl h) (by rintro t rfl; exact .none)
  · exact (bpHdrRule_post s).imp (by rintro _ t ⟨h, hv, rfl⟩; exact .writeHeader rfl h hv) (by rintro t ⟨k, rfl⟩; exact .writePart rfl k)
  · refine (bpCloseRule_all s).imp ?_ ?_
    all_goals
      intros
      rename_i t h
      rcases h with ⟨_, rfl⟩ | ⟨h, ht⟩
      · exact .none
      · exact .close rfl t h ht

/-- What every command but SRESET keeps, from what each effect keeps. -/
theorem exec_keeps {P : State → Prop} (hA : Answerable P) {i : Instr} (hi : i ≠ .sreset) {s t : State} (hs : P s)
    (hE : ∀ u, Effect i s u → P u) (h : exec i s = .next t) : P t :=
  exec_all hA hi hs ((ruleOf_effect i s).imp (fun _ u hu => hE u hu) fun u hu => hE u hu) h

/-! ### Everything a step can do -/

theorem step_cases {s t : State} (h : step s = .next t) :
    (s.port = [] ∧ t = s) ∨
    ∃ rest, (∃ w i, s.port = .command w :: rest ∧ decode w = .ok i ∧ exec i { s with port := rest } = .next t) ∨
      (∃ w e, s.port = .command w :: rest ∧ decode w = .error e ∧ t = ({ s with port := rest } : State).raise .illegal w w) ∨
      (∃ bytes, s.port = .bindIn bytes :: rest ∧ t = { s with port := rest, inp := bytes }) ∨
      (∃ bytes, s.port = .bindOut bytes :: rest ∧ s.bpState = .idle ∧ t = { s with port := rest, out := bytes }) ∨
      (s.port = .reset :: rest ∧ t = ({ s with port := rest } : State).resetBlock) := by
  unfold step cycle at h
  split at h
  · rename_i hp
    cases h
    exact .inl ⟨hp, rfl⟩
  · rename_i a rest hp
    refine .inr ⟨rest, ?_⟩
    cases a with
    | command w =>
      simp only [hostAct, executeWord] at h
      split at h
      · rename_i i hd; exact .inl ⟨w, i, hp, hd, h⟩
      · rename_i e hd; cases h; exact .inr (.inl ⟨w, e, hp, hd, rfl⟩)
    | bindIn bytes => cases h; exact .inr (.inr (.inl ⟨bytes, hp, rfl⟩))
    | bindOut bytes =>
      simp only [hostAct] at h
      split at h
      · rename_i hb; cases h; exact .inr (.inr (.inr (.inl ⟨bytes, hp, hb, rfl⟩)))
      · cases h
    | reset => cases h; exact .inr (.inr (.inr (.inr ⟨hp, rfl⟩)))

/-- A property of the block's own state (not of the streams and the port) that holds after reset and survives every answer and
every effect is kept by every step. -/
theorem step_keeps {P : State → Prop} (hA : Answerable P)
    (hHost : ∀ (s : State) port inp out, P s → P { s with port := port, inp := inp, out := out })
    (hReset : ∀ s, P s → P s.resetBlock) (hE : ∀ i s t, P s → Effect i s t → P t) {s t : State} (hs : P s) (h : step s = .next t) :
    P t := by
  rcases step_cases h with ⟨_, rfl⟩ | ⟨rest, ⟨w, i, _, _, hx⟩ | ⟨w, e, _, _, rfl⟩ | ⟨b, _, rfl⟩ | ⟨b, _, _, rfl⟩ | ⟨_, rfl⟩⟩
  · exact hs
  · have hs' : P { s with port := rest } := hHost s rest s.inp s.out hs
    by_cases hi : i = .sreset
    · subst hi
      rw [exec_sreset] at hx
      cases hx
      exact hA.respond _ _ (hReset _ hs')
    · exact exec_keeps hA hi hs' (fun u hu => hE i _ u hs' hu) hx
  · exact hA.raise _ _ _ _ (hHost s rest s.inp s.out hs)
  · exact hHost s rest b s.out hs
  · exact hHost s rest s.inp b hs
  · exact hReset _ (hHost s rest s.inp s.out hs)

end Sys2Proof.Machine
end

