-- ==== Sys2Proof/Laws/Codes.lean ====
section
/-! SUPPORT. The code generator's walk: when it ends; and the walker's way along a path (what the walk puts into the code table
is in Laws/Paths.lean). -/

namespace Sys2Proof.Machine

/-- The walk ends when the records have ranks that fall from parent to child, and more fuel than the rank of its start (R130). -/
theorem visit_ends {arena : Table Node} (rank : NodeIx → Nat)
    (hr : ∀ (i : NodeIx) (x : Bool), (arenaAt arena i).kind = .internal → (arenaAt arena i).branch x ≠ Config.nil →
      rank ((arenaAt arena i).branch x) < rank i)
    (fuel : Nat) (i : NodeIx) (p : Bits) (t : CodeTable) (hi : i ≠ Config.nil) (hf : rank i < fuel) :
    ∃ t', visit arena fuel i p t = .ok t' := by
  induction fuel generalizing i p t with
  | zero => omega
  | succ fuel ih =>
    unfold visit
    rw [if_neg hi]
    cases hk : (arenaAt arena i).kind with
    | leaf => exact ⟨_, rfl⟩
    | placeholder => exact ⟨_, rfl⟩
    | empty => exact ⟨_, rfl⟩
    | internal =>
      have h0 := hr i false hk
      have h1 := hr i true hk
      simp only [Node.branch, Bool.false_eq_true, if_false, if_true] at h0 h1
      have hz : ∃ t0, (if (arenaAt arena i).zero = Config.nil then Except.ok t
          else visit arena fuel (arenaAt arena i).zero (p ++ [false]) t) = .ok t0 := by
        split
        · exact ⟨t, rfl⟩
        · rename_i hn
          have := h0 hn
          exact ih _ _ _ hn (by omega)
      obtain ⟨t0, hz⟩ := hz
      simp only [hz]
      split
      · exact ⟨t0, rfl⟩
      · rename_i hn
        have := h1 hn
        exact ih _ _ _ hn (by omega)

/-- The walker along a nonempty path from its record to a leaf that is not the terminator emits the leaf's symbol (R190). -/
theorem walkBits_emit {s : State} {q : Bits} {j : NodeIx} {after : Bits} {k : Nat} (hw : s.wState ≠ .terminated)
    (hq : q ≠ []) (hf : follow s.node s.walkAt q = some j) (hj : j ≠ Config.nil) (hk : (s.nodeAt j).kind = .leaf)
    (hs : (s.nodeAt j).sym ≠ Config.termByte) (ho : s.out.length ∉ s.oracle.writeFails) :
    walkBits (q ++ after) k s = walkBits after (k + 1) { s.walkerHome with out := s.out ++ [(s.nodeAt j).sym] } := by
  induction q generalizing s with
  | nil => exact absurd rfl hq
  | cons x q ih =>
    simp only [follow] at hf
    split at hf
    · simp at hf
    rename_i hi
    split at hf
    swap
    · simp at hf
    rename_i hint
    simp only [List.cons_append, walkBits, if_neg hw, walkStep, if_neg hi]
    cases q with
    | nil =>
      simp only [follow, Option.some.injEq] at hf
      have hb : (s.nodeAt s.walkAt).branch x = j := hf
      simp only [hb, walkInto, if_neg hj, hk, if_neg hs]
      rw [outWrite_done (by simpa [State.walkerHome] using ho)]
      rfl
    | cons y q =>
      have hf' := hf
      simp only [follow] at hf
      split at hf
      · simp at hf
      rename_i hc
      split at hf
      swap
      · simp at hf
      rename_i hck
      have hck' : (s.nodeAt ((s.nodeAt s.walkAt).branch x)).kind = .internal := hck
      have hc' : (s.nodeAt s.walkAt).branch x ≠ Config.nil := hc
      simp only [walkInto, if_neg hc', hck', res_bind_ok, Option.isSome_none, Bool.false_eq_true, if_false]
      have := ih (s := { s with wCur := (s.nodeAt s.walkAt).branch x, wState := .atInternal }) (by simp) (by simp)
        (by simpa [State.walkAt, State.nodeAt] using hf') hk hs ho
      rw [this]
      rfl

/-- The walker along a nonempty path from its record to the terminator's leaf ends, and ignores what follows (R190, R194). -/
theorem walkBits_terminate {s : State} {q : Bits} {j : NodeIx} {after : Bits} {k : Nat} (hw : s.wState ≠ .terminated)
    (hq : q ≠ []) (hf : follow s.node s.walkAt q = some j) (hj : j ≠ Config.nil) (hk : (s.nodeAt j).kind = .leaf)
    (hs : (s.nodeAt j).sym = Config.termByte) :
    walkBits (q ++ after) k s = .ok k { s with wState := .terminated, wCur := Config.nil } := by
  induction q generalizing s with
  | nil => exact absurd rfl hq
  | cons x q ih =>
    simp only [follow] at hf
    split at hf
    · simp at hf
    rename_i hi
    split at hf
    swap
    · simp at hf
    rename_i hint
    simp only [List.cons_append, walkBits, if_neg hw, walkStep, if_neg hi]
    cases q with
    | nil =>
      simp only [follow, Option.some.injEq] at hf
      have hb : (s.nodeAt s.walkAt).branch x = j := hf
      simp only [hb, walkInto, if_neg hj, hk, if_pos hs, res_bind_ok, Option.isSome_none, Bool.false_eq_true, if_false, List.nil_append]
      cases after <;> simp [walkBits]
    | cons y q =>
      have hf' := hf
      simp only [follow] at hf
      split at hf
      · simp at hf
      rename_i hc
      split at hf
      swap
      · simp at hf
      rename_i hck
      have hck' : (s.nodeAt ((s.nodeAt s.walkAt).branch x)).kind = .internal := hck
      have hc' : (s.nodeAt s.walkAt).branch x ≠ Config.nil := hc
      simp only [walkInto, if_neg hc', hck', res_bind_ok, Option.isSome_none, Bool.false_eq_true, if_false]
      exact ih (s := { s with wCur := (s.nodeAt s.walkAt).branch x, wState := .atInternal }) (by simp) (by simp)
        (by simpa [State.walkAt, State.nodeAt] using hf') hk hs

end Sys2Proof.Machine
end

