-- ==== Sys2Proof/Laws/Builder.lean ====
section
/-! SUPPORT. The tree builder: sorting keeps the pairs, what holds of the arena and of the priority structure at every round of the
merge loop, and that each internal record merges the two that come first. -/

namespace Sys2Proof.Machine

/-! ### Sorting -/

theorem insertKey_perm (x : Nat × Nat) (q : List (Nat × Nat)) : (insertKey x q).Perm (x :: q) := by
  induction q with
  | nil => exact List.Perm.refl _
  | cons y q ih =>
    simp only [insertKey]
    split
    · exact List.Perm.refl _
    · exact (ih.cons y).trans (List.Perm.swap x y q)

theorem sortKeys_perm (l : List (Nat × Nat)) : (sortKeys l).Perm l := by
  induction l with
  | nil => exact List.Perm.refl _
  | cons x l ih => exact (insertKey_perm x _).trans (ih.cons x)

theorem keyLe_iff (a b : Nat × Nat) : keyLe a b = true ↔ a.1 < b.1 ∨ (a.1 = b.1 ∧ a.2 ≤ b.2) := by simp [keyLe]

theorem insertKey_ascending {x : Nat × Nat} {q : List (Nat × Nat)} (h : q.Pairwise fun a b => keyLe a b = true) :
    (insertKey x q).Pairwise fun a b => keyLe a b = true := by
  induction q with
  | nil => simp [insertKey]
  | cons y q ih =>
    obtain ⟨h1, h2⟩ := List.pairwise_cons.1 h
    simp only [insertKey]
    split
    · rename_i hxy
      refine List.pairwise_cons.2 ⟨?_, h⟩
      intro z hz
      rcases List.mem_cons.1 hz with rfl | hz
      · exact hxy
      · have hyz := h1 z hz
        rw [keyLe_iff] at hxy hyz ⊢
        omega
    · rename_i hxy
      refine List.pairwise_cons.2 ⟨?_, ih h2⟩
      intro z hz
      rcases List.mem_cons.1 ((insertKey_perm x q).mem_iff.1 hz) with rfl | hz
      · rw [keyLe_iff] at hxy ⊢
        omega
      · exact h1 z hz

theorem sortKeys_ascending (l : List (Nat × Nat)) : (sortKeys l).Pairwise fun a b => keyLe a b = true := by
  induction l with
  | nil => simp [sortKeys]
  | cons x l ih => exact insertKey_ascending ih

theorem freqPairs_length (freq : Table Word) : (freqPairs freq).length ≤ 256 := by
  rw [freqPairs, List.length_map]
  exact (List.length_filter_le _ _).trans (by decide +kernel)

theorem sortedKeys_length (freq : Table Word) : (sortedKeys freq).length ≤ 256 :=
  (sortKeys_perm _).length_eq.trans_le (freqPairs_length freq)

theorem freqPairs_mem {freq : Table Word} {e : Nat × Nat} (h : e ∈ freqPairs freq) : e.2 < 256 := by
  obtain ⟨b, _, rfl⟩ := List.mem_map.1 h
  exact b.isLt

/-- The symbols of the keys are bytes, each once (R110). -/
theorem sortedKeys_lt {freq : Table Word} {e : Nat × Nat} (h : e ∈ sortedKeys freq) : e.2 < 256 :=
  freqPairs_mem ((sortKeys_perm _).mem_iff.1 h)

theorem sortedKeys_nodup (freq : Table Word) : ((sortedKeys freq).map Prod.snd).Nodup := by
  rw [sortedKeys, ((sortKeys_perm _).map _).nodup_iff]
  have : (freqPairs freq).map Prod.snd = (symbols.filter fun b => Table.get 0#32 freq b.toNat != 0#32).map BitVec.toNat := by
    simp [freqPairs, Function.comp_def]
  rw [this]
  exact List.Nodup.map (fun a b h => BitVec.eq_of_toNat_eq h) (List.Nodup.filter _ (by decide +kernel))

/-- The keys' weights are 32-bit counts, so their sum fits a record's weight (R110, R58). -/
theorem sortedKeys_weight {freq : Table Word} {e : Nat × Nat} (h : e ∈ sortedKeys freq) : e.1 < 2 ^ 32 := by
  obtain ⟨b, _, rfl⟩ := List.mem_map.1 ((sortKeys_perm _).mem_iff.1 h)
  exact (Table.get 0#32 freq b.toNat).isLt

theorem sortedKeys_total (freq : Table Word) : ((sortedKeys freq).map Prod.fst).sum < 2 ^ 64 := by
  have hsum : ∀ l : List (Nat × Nat), (∀ p ∈ l, p.1 < 2 ^ 32) → (l.map Prod.fst).sum ≤ l.length * 2 ^ 32 := by
    intro l
    induction l with
    | nil => simp
    | cons a l ih =>
      intro h
      have := h a (by simp)
      have := ih fun p hp => h p (by simp [hp])
      simp only [List.map_cons, List.sum_cons, List.length_cons]
      omega
  have := hsum (sortedKeys freq) fun _ h => sortedKeys_weight h
  have := sortedKeys_length freq
  omega

/-! ### The leaves -/

theorem leafQueue_map (ks : List (Nat × Nat)) (i : Nat) : leafQueue ks i = (ks.zipIdx i).map fun e => (e.1.1, e.2) := by
  induction ks generalizing i with
  | nil => rfl
  | cons k ks ih => simp [leafQueue, ih]

theorem placeLeaves_get (ks : List (Nat × Nat)) (i : Nat) (t : Table Node) (j : Nat) :
    Table.get Node.blank (placeLeaves ks i t) j =
      if i ≤ j ∧ j < i + ks.length then leafNode ((ks[j - i]?).getD (0, 0)).1 ((ks[j - i]?).getD (0, 0)).2
      else Table.get Node.blank t j := by
  induction ks generalizing i t with
  | nil =>
    have h : ¬(i ≤ j ∧ j < i + ([] : List (Nat × Nat)).length) := by rintro ⟨_, h⟩; simp only [List.length_nil] at h; omega
    rw [if_neg h]; rfl
  | cons k ks ih =>
    simp only [placeLeaves, ih, List.length_cons]
    by_cases h1 : j = i
    · subst h1
      simp
    · by_cases h2 : i + 1 ≤ j ∧ j < i + 1 + ks.length
      · have h3 : i ≤ j ∧ j < i + (ks.length + 1) := by omega
        have h4 : j - i = (j - (i + 1)) + 1 := by omega
        rw [if_pos h2, if_pos h3, h4, List.getElem?_cons_succ]
      · have h3 : ¬(i ≤ j ∧ j < i + (ks.length + 1)) := by omega
        rw [if_neg h2, if_neg h3, table_get_set_other _ _ _ _ _ h1]

/-! ### The merge loop -/

/-- What holds before every round of the merge loop, of n leaves, with the leaf records `leaf` and the counts' sum `total`. The
ranks fall from parent to child, and the ranks of the pairs left count the leaves below them. -/
structure Forest (n total : Nat) (leaf : Nat → Node) (q : List (Nat × Nat)) (next : Nat) (t : Table Node) (rank : Nat → Nat) : Prop where
  size : n ≤ 256
  count : next + q.length = 2 * n
  left : q ≠ []
  inside : ∀ e ∈ q, e.2 < next
  once : (q.map Prod.snd).Nodup
  blank : ∀ i, next ≤ i → Table.get Node.blank t i = Node.blank
  leaves : ∀ i, i < n → Table.get Node.blank t i = leaf i
  isLeaf : ∀ i, i < n → (leaf i).kind = .leaf ∧ (leaf i).zero = Config.nil ∧ (leaf i).one = Config.nil
  inner : ∀ i, n ≤ i → i < next → (Table.get Node.blank t i).kind = .internal ∧ (Table.get Node.blank t i).sym = 0#8
  child : ∀ i x, n ≤ i → i < next → ((Table.get Node.blank t i).branch x).toNat < i ∧
    rank ((Table.get Node.blank t i).branch x).toNat < rank i ∧ ((Table.get Node.blank t i).branch x).toNat ∉ q.map Prod.snd
  unshared : ∀ i j x y, n ≤ i → i < next → n ≤ j → j < next →
    (Table.get Node.blank t i).branch x = (Table.get Node.blank t j).branch y → i = j ∧ x = y
  ranks : (q.map fun e => rank e.2 + 1).sum = n
  weights : (q.map Prod.fst).sum = total
  weight : ∀ e ∈ q, (Table.get Node.blank t e.2).weight = BitVec.ofNat 64 e.1
  last : q.length = 1 → ∀ e ∈ q, e.2 + 1 = next ∧ n ≤ e.2

/-- One round of the merge loop keeps it (R110). -/
theorem Forest.round {n total : Nat} {leaf : Nat → Node} {x y : Nat × Nat} {q : List (Nat × Nat)} {next : Nat} {t : Table Node}
    {rank : Nat → Nat} (h : Forest n total leaf (x :: y :: q) next t rank) :
    Forest n total leaf (insertKey (x.1 + y.1, next) q) (next + 1) (Table.set Node.blank t next (internalNode x.2 y.2 (x.1 + y.1)))
      (fun k => if k = next then rank x.2 + rank y.2 + 1 else rank k) := by
  have hp := insertKey_perm (x.1 + y.1, next) q
  have hlen : (insertKey (x.1 + y.1, next) q).length = q.length + 1 := by rw [hp.length_eq]; rfl
  have hc := h.count
  simp only [List.length_cons] at hc
  have hn511 : next < 511 := by have := h.size; omega
  have hx : x.2 < next := h.inside x (by simp)
  have hy : y.2 < next := h.inside y (by simp)
  have hqlt : ∀ e ∈ q, e.2 < next := fun e he => h.inside e (by simp [he])
  have honce := h.once
  simp only [List.map_cons, List.nodup_cons, List.mem_cons, not_or] at honce
  obtain ⟨⟨hxy, hxq⟩, hyq, hnd⟩ := honce
  have hmem : ∀ k, k ∈ (insertKey (x.1 + y.1, next) q).map Prod.snd ↔ k = next ∨ k ∈ q.map Prod.snd := by
    intro k; rw [(hp.map Prod.snd).mem_iff]; simp
  have hnq : ∀ k ∈ q.map Prod.snd, k < next := by
    intro k hk
    obtain ⟨e, he, rfl⟩ := List.mem_map.1 hk
    exact hqlt e he
  have hnle : n ≤ next := by
    have hl := h.size
    have hs : ∀ l : List (Nat × Nat), l.length ≤ (l.map fun e => rank e.2 + 1).sum := by
      intro l; induction l with
      | nil => simp
      | cons a l ih => simp only [List.length_cons, List.map_cons, List.sum_cons]; omega
    have h1 := hs (x :: y :: q)
    rw [h.ranks] at h1
    simp only [List.length_cons] at h1
    omega
  have hb : ∀ b : Bool, ((internalNode x.2 y.2 (x.1 + y.1)).branch b).toNat = if b then y.2 else x.2 := by
    intro b
    cases b <;> simp [Node.branch, internalNode] <;> omega
  have hget : ∀ i, i ≠ next → Table.get Node.blank (Table.set Node.blank t next (internalNode x.2 y.2 (x.1 + y.1))) i = Table.get Node.blank t i :=
    fun i hi => table_get_set_other _ _ _ _ _ hi
  have hold : ∀ (i : Nat) (b : Bool), n ≤ i → i < next → ((Table.get Node.blank t i).branch b).toNat ≠ x.2 ∧
      ((Table.get Node.blank t i).branch b).toNat ≠ y.2 := by
    intro i b h1 h2
    have := (h.child i b h1 h2).2.2
    simp only [List.map_cons, List.mem_cons, not_or] at this
    exact ⟨this.1, this.2.1⟩
  refine
    { size := h.size, count := by rw [hlen]; omega, left := ?_, inside := ?_, once := ?_, blank := ?_, leaves := ?_, isLeaf := h.isLeaf
      inner := ?_, child := ?_, unshared := ?_, ranks := ?_, weights := ?_, weight := ?_, last := ?_ }
  · intro he; rw [he] at hlen; simp at hlen
  · intro e he
    rcases List.mem_cons.1 (hp.mem_iff.1 he) with rfl | he
    · exact Nat.lt_succ_self _
    · exact (hqlt e he).trans (Nat.lt_succ_self _)
  · rw [(hp.map Prod.snd).nodup_iff]
    exact List.nodup_cons.2 ⟨fun hm => Nat.lt_irrefl _ (hnq _ hm), hnd⟩
  · intro i hi; rw [hget i (by omega)]; exact h.blank i (by omega)
  · intro i hi; rw [hget i (by omega)]; exact h.leaves i hi
  · intro i h1 h2
    by_cases hi : i = next
    · subst hi; simp [internalNode]
    · rw [hget i hi]; exact h.inner i h1 (by omega)
  · intro i b h1 h2
    by_cases hi : i = next
    · subst hi
      rw [table_get_set_same, hb b]
      cases b
      · refine ⟨by simpa using hx, ?_, ?_⟩
        · simp [Nat.ne_of_lt hx]
        · simp only [Bool.false_eq_true, if_false]; rw [hmem]; rintro (hh | hh)
          · omega
          · exact hxq hh
      · refine ⟨by simpa using hy, ?_, ?_⟩
        · simp [Nat.ne_of_lt hy]
        · simp only [if_true]; rw [hmem]; rintro (hh | hh)
          · omega
          · exact hyq hh
    · rw [hget i hi]
      obtain ⟨c1, c2, c3⟩ := h.child i b h1 (by omega)
      refine ⟨c1, ?_, ?_⟩
      · rw [if_neg (by omega), if_neg hi]; exact c2
      · rw [hmem]; rintro (hh | hh)
        · omega
        · exact c3 (by simp only [List.map_cons, List.mem_cons]; exact .inr (.inr hh))
  · intro i j a b h1 h2 h3 h4 he
    by_cases hi : i = next <;> by_cases hj : j = next
    · subst hi; subst hj
      rw [table_get_set_same] at he
      have := congrArg BitVec.toNat he
      rw [hb a, hb b] at this
      refine ⟨rfl, ?_⟩
      cases a <;> cases b <;> simp at this ⊢
      · exact hxy this
      · exact hxy this.symm
    · subst hi
      rw [table_get_set_same, hget j hj] at he
      have := congrArg BitVec.toNat he
      rw [hb a] at this
      obtain ⟨o1, o2⟩ := hold j b h3 (by omega)
      cases a
      · exact absurd this.symm (by simpa using o1)
      · exact absurd this.symm (by simpa using o2)
    · subst hj
      rw [table_get_set_same, hget i hi] at he
      have := congrArg BitVec.toNat he
      rw [hb b] at this
      obtain ⟨o1, o2⟩ := hold i a h1 (by omega)
      cases b
      · exact absurd this (by simpa using o1)
      · exact absurd this (by simpa using o2)
    · rw [hget i hi, hget j hj] at he
      exact h.unshared i j a b h1 (by omega) h3 (by omega) he
  · rw [(hp.map _).sum_eq]
    have hr := h.ranks
    simp only [List.map_cons, List.sum_cons, if_true] at hr ⊢
    have : q.map (fun e => (if e.2 = next then rank x.2 + rank y.2 + 1 else rank e.2) + 1) = q.map fun e => rank e.2 + 1 := by
      apply List.map_congr_left
      intro e he
      rw [if_neg (Nat.ne_of_lt (hqlt e he))]
    rw [this]; omega
  · rw [(hp.map _).sum_eq]
    have hw := h.weights
    simp only [List.map_cons, List.sum_cons] at hw ⊢
    omega
  · intro e he
    rcases List.mem_cons.1 (hp.mem_iff.1 he) with rfl | he
    · simp [internalNode]
    · rw [hget e.2 (Nat.ne_of_lt (hqlt e he))]; exact h.weight e (by simp [he])
  · intro h1 e he
    have hq0 : q = [] := by rw [hlen] at h1; exact List.length_eq_zero_iff.1 (by omega)
    subst hq0
    simp only [insertKey, List.mem_singleton] at he
    subst he
    exact ⟨rfl, hnle⟩

/-- The merge loop ends with one pair, the last record (R110). -/
theorem Forest.mergeAll {n total : Nat} {leaf : Nat → Node} (fuel : Nat) {q : List (Nat × Nat)} {next : Nat} {t : Table Node}
    {rank : Nat → Nat} (h : Forest n total leaf q next t rank) (hf : q.length ≤ fuel + 1) :
    ∃ e rank', Forest n total leaf [e] (mergeAll fuel q next t).2 (mergeAll fuel q next t).1 rank' := by
  induction fuel generalizing q next t rank with
  | zero =>
    match q, h.left with
    | [e], _ => exact ⟨e, rank, h⟩
    | _ :: _ :: _, _ => simp at hf
  | succ fuel ih =>
    match q, h.left with
    | [e], _ => exact ⟨e, rank, h⟩
    | x :: y :: q, _ =>
      have hlen := (insertKey_perm (x.1 + y.1, next) q).length_eq
      simp only [List.length_cons] at hf hlen
      exact ih h.round (by omega)

/-- Before the first round (R110). -/
theorem Forest.start {ks : List (Nat × Nat)} (h2 : 2 ≤ ks.length) (hl : ks.length ≤ 256) :
    Forest ks.length (ks.map Prod.fst).sum (fun i => leafNode ((ks[i]?).getD (0, 0)).1 ((ks[i]?).getD (0, 0)).2) (leafQueue ks 0)
      ks.length (placeLeaves ks 0 []) (fun _ => 0) := by
  have hq : ∀ (l : List (Nat × Nat)) (k : Nat), (leafQueue l k).length = l.length ∧ (leafQueue l k).map Prod.fst = l.map Prod.fst ∧
      (leafQueue l k).map Prod.snd = List.range' k l.length := by
    intro l
    induction l with
    | nil => intro k; simp [leafQueue]
    | cons a l ih =>
      intro k
      obtain ⟨i1, i2, i3⟩ := ih (k + 1)
      refine ⟨by simp [leafQueue, i1], by simp [leafQueue, i2], by simp [leafQueue, i3, List.range'_succ]⟩
  obtain ⟨q1, q2, q3⟩ := hq ks 0
  have hmem : ∀ e ∈ leafQueue ks 0, e.2 < ks.length ∧ ks[e.2]?.map Prod.fst = some e.1 := by
    intro e he
    rw [leafQueue_map] at he
    obtain ⟨⟨k, i⟩, hki, rfl⟩ := List.mem_map.1 he
    obtain ⟨h1, h2, h3⟩ := List.mem_zipIdx hki
    simp only [Nat.zero_add, Nat.sub_zero] at h2 h3 ⊢
    exact ⟨h2, by rw [List.getElem?_eq_getElem h2, h3]; rfl⟩
  have hget : ∀ i, i < ks.length → Table.get Node.blank (placeLeaves ks 0 []) i =
      leafNode ((ks[i]?).getD (0, 0)).1 ((ks[i]?).getD (0, 0)).2 := by
    intro i hi; rw [placeLeaves_get, if_pos (by omega)]; rfl
  refine
    { size := hl, count := by rw [q1]; omega, left := ?_, inside := fun e he => (hmem e he).1, once := ?_, blank := ?_, leaves := hget
      isLeaf := fun i _ => ⟨rfl, rfl, rfl⟩, inner := fun i h1 h2 => absurd h1 (by omega), child := fun i _ h1 h2 => absurd h1 (by omega)
      unshared := fun i _ _ _ h1 h2 => absurd h1 (by omega), ranks := ?_, weights := by rw [q2], weight := ?_, last := ?_ }
  · intro h; rw [h] at q1; simp at q1; omega
  · rw [q3]; exact List.nodup_range'
  · intro i hi; rw [placeLeaves_get, if_neg (by omega)]; rfl
  · rw [show (fun e : Nat × Nat => 0 + 1) = fun _ => 1 from rfl, List.map_const', List.sum_replicate, q1]; simp
  · intro e he
    obtain ⟨h1, h2⟩ := hmem e he
    rw [hget _ h1]
    rw [List.getElem?_eq_getElem h1] at h2 ⊢
    simp only [Option.map_some, Option.some.injEq] at h2
    simp [leafNode, h2]
  · intro h; rw [q1] at h; omega

/-! ### The internal records -/

/-- Record m merges the two that come first of the records in Q when it is made (R110). -/
def MergesTwoLeast (t : Table Node) (n m : Nat) : Prop :=
  ∃ x y, Unmerged t n m x ∧ Unmerged t n m y ∧ KeyBefore t x y ∧ (∀ z, Unmerged t n m z → z ≠ x → z ≠ y → KeyBefore t y z) ∧
    (Table.get Node.blank t m).kind = .internal ∧ (Table.get Node.blank t m).sym = 0#8 ∧
    (Table.get Node.blank t m).zero = BitVec.ofNat 9 x ∧ (Table.get Node.blank t m).one = BitVec.ofNat 9 y ∧
    (Table.get Node.blank t m).weight.toNat = (Table.get Node.blank t x).weight.toNat + (Table.get Node.blank t y).weight.toNat

/-- Q at record m depends on the records below m only. -/
theorem unmerged_congr {t u : Table Node} {n m : Nat} (h : ∀ j, j < m → Table.get Node.blank u j = Table.get Node.blank t j) (i : Nat) :
    Unmerged u n m i ↔ Unmerged t n m i :=
  and_congr Iff.rfl (forall_congr' fun j => forall_congr' fun _ => forall_congr' fun hj => by rw [h j hj])

/-- What record m merges depends on the records up to m only. -/
theorem MergesTwoLeast.congr {t u : Table Node} {n m : Nat} (h : ∀ j, j ≤ m → Table.get Node.blank u j = Table.get Node.blank t j)
    (hm : MergesTwoLeast t n m) : MergesTwoLeast u n m := by
  obtain ⟨x, y, hx, hy, hxy, hz, h1⟩ := hm
  have hc := unmerged_congr (n := n) (m := m) fun j hj => h j (Nat.le_of_lt hj)
  have hkey : ∀ i j, i < m → j < m → (KeyBefore u i j ↔ KeyBefore t i j) := by
    intro i j hi hj; rw [KeyBefore, h i hi.le, h j hj.le]; rfl
  refine ⟨x, y, (hc x).2 hx, (hc y).2 hy, (hkey x y hx.1 hy.1).2 hxy, fun z hzm h2 h3 => ?_, ?_⟩
  · have hzm' := (hc z).1 hzm
    exact (hkey y z hy.1 hzm'.1).2 (hz z hzm' h2 h3)
  · rw [h m le_rfl, h x hx.1.le, h y hy.1.le]; exact h1

/-- What holds before every round of the merge loop beside Forest: the list is Q in ascending order, its weights are the records', and
every internal record so far merges the two that came first. -/
structure Merging (n : Nat) (q : List (Nat × Nat)) (next : Nat) (t : Table Node) : Prop where
  ascending : q.Pairwise fun a b => keyLe a b = true
  members : ∀ i, i ∈ q.map Prod.snd ↔ Unmerged t n next i
  weights : ∀ e ∈ q, (Table.get Node.blank t e.2).weight.toNat = e.1
  done : ∀ m, n ≤ m → m < next → MergesTwoLeast t n m

/-- One round of the merge loop keeps it (R110). -/
theorem Merging.round {n total : Nat} {leaf : Nat → Node} {x y : Nat × Nat} {q : List (Nat × Nat)} {next : Nat} {t : Table Node}
    {rank : Nat → Nat} (h : Merging n (x :: y :: q) next t) (hf : Forest n total leaf (x :: y :: q) next t rank) (ht : total < 2 ^ 64) :
    Merging n (insertKey (x.1 + y.1, next) q) (next + 1) (Table.set Node.blank t next (internalNode x.2 y.2 (x.1 + y.1))) := by
  have hp := insertKey_perm (x.1 + y.1, next) q
  have hcnt := hf.count
  have hsz := hf.size
  simp only [List.length_cons] at hcnt
  have hlt : ∀ e ∈ x :: y :: q, e.2 < next := hf.inside
  have hx := hlt x (by simp)
  have hy := hlt y (by simp)
  have honce := hf.once
  simp only [List.map_cons, List.nodup_cons, List.mem_cons, not_or] at honce
  obtain ⟨⟨hxy, hxq⟩, hyq, -⟩ := honce
  have hsum : x.1 + y.1 < 2 ^ 64 := by
    have := hf.weights
    simp only [List.map_cons, List.sum_cons] at this
    omega
  have hget : ∀ j, j < next → Table.get Node.blank (Table.set Node.blank t next (internalNode x.2 y.2 (x.1 + y.1))) j = Table.get Node.blank t j :=
    fun j hj => table_get_set_other _ _ _ _ _ (Nat.ne_of_lt hj)
  have hnew : Table.get Node.blank (Table.set Node.blank t next (internalNode x.2 y.2 (x.1 + y.1))) next = internalNode x.2 y.2 (x.1 + y.1) :=
    table_get_set_same _ _ _ _
  have hzero : (internalNode x.2 y.2 (x.1 + y.1)).zero.toNat = x.2 := by simp [internalNode]; omega
  have hone : (internalNode x.2 y.2 (x.1 + y.1)).one.toNat = y.2 := by simp [internalNode]; omega
  obtain ⟨p1, p2⟩ := List.pairwise_cons.1 h.ascending
  obtain ⟨p3, p4⟩ := List.pairwise_cons.1 p2
  have hbefore : ∀ a b : Nat × Nat, a ∈ x :: y :: q → b ∈ x :: y :: q → keyLe a b = true → a.2 ≠ b.2 → KeyBefore t a.2 b.2 := by
    intro a b ha hb hab hne
    rw [KeyBefore, h.weights a ha, h.weights b hb]
    rw [keyLe_iff] at hab
    omega
  refine { ascending := insertKey_ascending p4, members := ?_, weights := ?_, done := ?_ }
  · intro i
    rw [(hp.map Prod.snd).mem_iff, List.map_cons, List.mem_cons]
    have hm := h.members i
    simp only [List.map_cons, List.mem_cons] at hm
    constructor
    · rintro (hi | hi)
      · have hi' : i = next := hi
        refine ⟨by omega, fun j h1 h2 => ?_⟩
        by_cases hj : j = next
        · rw [hj, hnew, hzero, hone]; omega
        · rw [hget j (by omega)]
          have c0 := (hf.child j false h1 (by omega)).1
          have c1 := (hf.child j true h1 (by omega)).1
          simp only [Node.branch, Bool.false_eq_true, if_false, if_true] at c0 c1
          omega
      · obtain ⟨h1, h2⟩ := hm.1 (.inr (.inr hi))
        refine ⟨by omega, fun j h3 h4 => ?_⟩
        by_cases hj : j = next
        · subst hj; rw [hnew, hzero, hone]
          exact ⟨by rintro rfl; exact hxq hi, by rintro rfl; exact hyq hi⟩
        · rw [hget j (by omega)]; exact h2 j h3 (by omega)
    · rintro ⟨h1, h2⟩
      by_cases hi : i = next
      · exact .inl hi
      · have hn : n ≤ next := by
          by_contra hc
          -- every record below n is a leaf, and Q has them all
          have := hf.leaves next (by omega)
          rw [hf.blank next le_rfl] at this
          have hk := (hf.isLeaf next (by omega)).1
          rw [← this] at hk
          simp [Node.blank] at hk
        have h3 := h2 next hn (Nat.lt_succ_self _)
        rw [hnew, hzero, hone] at h3
        have h4 : Unmerged t n next i := by
          refine ⟨by omega, fun j h5 h6 => ?_⟩
          have := h2 j h5 (by omega)
          rwa [hget j h6] at this
        rcases hm.2 h4 with h5 | h5 | h5
        · exact absurd h5.symm h3.1
        · exact absurd h5.symm h3.2
        · exact .inr h5
  · intro e he
    rcases List.mem_cons.1 (hp.mem_iff.1 he) with rfl | he
    · rw [hnew]; simp only [internalNode, BitVec.toNat_ofNat]; exact Nat.mod_eq_of_lt hsum
    · rw [hget e.2 (hlt e (by simp [he]))]; exact h.weights e (by simp [he])
  · intro m h1 h2
    by_cases hm : m = next
    · subst hm
      have hc := unmerged_congr (n := n) (m := m) hget
      have hkey : ∀ i j, i < m → j < m → KeyBefore t i j →
          KeyBefore (Table.set Node.blank t m (internalNode x.2 y.2 (x.1 + y.1))) i j := by
        intro i j hi hj hb; rw [KeyBefore, hget i hi, hget j hj]; exact hb
      refine ⟨x.2, y.2, (hc _).2 ((h.members _).1 (by simp)), (hc _).2 ((h.members _).1 (by simp)),
        hkey _ _ hx hy (hbefore x y (by simp) (by simp) (p1 y (by simp)) hxy), ?_, ?_⟩
      · intro z hz h3 h4
        have hzm := (h.members z).2 ((hc z).1 hz)
        simp only [List.map_cons, List.mem_cons] at hzm
        rcases hzm with h5 | h5 | h5
        · exact absurd h5 h3
        · exact absurd h5 h4
        · obtain ⟨e, he, rfl⟩ := List.mem_map.1 h5
          exact hkey _ _ hy (hlt e (by simp [he])) (hbefore y e (by simp) (by simp [he]) (p3 e he) (Ne.symm h4))
      · rw [hnew, hget x.2 hx, hget y.2 hy, h.weights x (by simp), h.weights y (by simp)]
        refine ⟨rfl, rfl, rfl, rfl, ?_⟩
        simp only [internalNode, BitVec.toNat_ofNat]; exact Nat.mod_eq_of_lt hsum
    · exact (h.done m h1 (by omega)).congr fun j hj => hget j (by omega)

/-- The merge loop makes every internal record by merging the two that come first (R110). -/
theorem Merging.mergeAll {n total : Nat} {leaf : Nat → Node} (fuel : Nat) {q : List (Nat × Nat)} {next : Nat} {t : Table Node}
    {rank : Nat → Nat} (h : Merging n q next t) (hf : Forest n total leaf q next t rank) (ht : total < 2 ^ 64) :
    ∀ m, n ≤ m → m < (mergeAll fuel q next t).2 → MergesTwoLeast (mergeAll fuel q next t).1 n m := by
  induction fuel generalizing q next t rank with
  | zero => exact h.done
  | succ fuel ih =>
    match q, h, hf with
    | [], h, _ => exact h.done
    | [_], h, _ => exact h.done
    | x :: y :: q, h, hf => exact ih (h.round hf ht) hf.round

/-- Before the first round (R110). -/
theorem Merging.start {ks : List (Nat × Nat)} (ha : ks.Pairwise fun a b => keyLe a b = true) (hw : ∀ e ∈ ks, e.1 < 2 ^ 32) :
    Merging ks.length (leafQueue ks 0) ks.length (placeLeaves ks 0 []) := by
  have hget : ∀ i (hi : i < ks.length), Table.get Node.blank (placeLeaves ks 0 []) i = leafNode ks[i].1 ks[i].2 := by
    intro i hi; rw [placeLeaves_get, if_pos (by omega)]; simp [hi]
  have hmem : ∀ e, e ∈ leafQueue ks 0 ↔ ∃ h : e.2 < ks.length, ks[e.2].1 = e.1 := by
    intro e
    rw [leafQueue_map, List.mem_map]
    constructor
    · rintro ⟨⟨k, i⟩, hki, rfl⟩
      obtain ⟨_, h2, h3⟩ := List.mem_zipIdx hki
      simp only [Nat.zero_add, Nat.sub_zero] at h2 h3 ⊢
      exact ⟨h2, by rw [h3]⟩
    · rintro ⟨h1, h2⟩
      exact ⟨(ks[e.2], e.2), by rw [List.mem_zipIdx_iff_getElem?]; simp [h1], by rw [h2]⟩
  refine { ascending := ?_, members := ?_, weights := ?_, done := fun m h1 h2 => absurd h1 (by omega) }
  · rw [leafQueue_map, List.pairwise_iff_getElem]
    intro i j hi hj hij
    simp only [List.length_map, List.length_zipIdx] at hi hj
    have := List.pairwise_iff_getElem.1 ha i j hi hj hij
    simp only [List.getElem_map, List.getElem_zipIdx]
    rw [keyLe_iff] at this ⊢
    omega
  · intro i
    rw [List.mem_map]
    constructor
    · rintro ⟨e, he, rfl⟩
      obtain ⟨h1, _⟩ := (hmem e).1 he
      exact ⟨h1, fun j h2 h3 => absurd h2 (by omega)⟩
    · rintro ⟨h1, _⟩
      exact ⟨(ks[i].1, i), (hmem _).2 ⟨h1, rfl⟩, rfl⟩
  · intro e he
    obtain ⟨h1, h2⟩ := (hmem e).1 he
    have := hw ks[e.2] (List.getElem_mem h1)
    rw [hget e.2 h1, ← h2]
    simp only [leafNode, BitVec.toNat_ofNat]
    exact Nat.mod_eq_of_lt (by omega)

end Sys2Proof.Machine
end

