-- ==== Sys2Proof/Laws/Header.lean ====
section
/-! SUPPORT. The header codec: reading bytes that are there or are not, and parsing what was serialized. -/

namespace Sys2Proof.Machine

/-! ### Reading -/

/-- InRead of a header byte that is there (R153, R154). -/
theorem readHeaderByte_ok {s : State} {b : Byte} {info : Nat} (hb : s.inp[s.inPos.toNat]? = some b) (ho : s.inPos.toNat ∉ s.oracle.readFails)
    (hl : s.inPos.toNat + 1 < 2 ^ 64) : readHeaderByte info s = .ok b { s with inPos := s.inPos + 1#64 } := by
  simp [readHeaderByte, inRead_byte hb ho hl]

theorem inPos_succ {x : BitVec 64} (h : x.toNat + 1 < 2 ^ 64) : (x + 1#64).toNat = x.toNat + 1 := by
  simp only [BitVec.toNat_add, BitVec.toNat_ofNat]; omega

/-- The state after n more bytes of IN were read. -/
def State.advance (s : State) (n : Nat) : State := { s with inPos := BitVec.ofNat 64 (s.inPos.toNat + n) }

theorem advance_zero (s : State) : s.advance 0 = s := by simp [State.advance]

theorem advance_pos {s : State} {n : Nat} (h : s.inPos.toNat + n < 2 ^ 64) : (s.advance n).inPos.toNat = s.inPos.toNat + n := by
  simp only [State.advance, BitVec.toNat_ofNat]; omega

theorem advance_advance {s : State} {m n : Nat} (h : s.inPos.toNat + m < 2 ^ 64) : (s.advance m).advance n = s.advance (m + n) := by
  have := advance_pos h
  unfold State.advance at this ⊢
  simp only [this, Nat.add_assoc]

/-- InRead of a header byte that is there, the j-th from here (R153, R154). -/
theorem readHeaderByte_at {s : State} {b : Byte} {j info : Nat} (hb : s.inp[s.inPos.toNat + j]? = some b)
    (ho : s.inPos.toNat + j ∉ s.oracle.readFails) (hl : s.inPos.toNat + j + 1 < 2 ^ 64) :
    readHeaderByte info (s.advance j) = .ok b (s.advance (j + 1)) := by
  have hp := advance_pos (s := s) (n := j) (by omega)
  rw [readHeaderByte_ok (b := b) (by rw [hp]; exact hb) (by rw [hp]; exact ho) (by rw [hp]; omega)]
  congr 1
  have hs := inPos_succ (x := (s.advance j).inPos) (by rw [hp]; omega)
  simp only [State.advance, State.mk.injEq, true_and, and_true]
  apply BitVec.eq_of_toNat_eq
  rw [show BitVec.ofNat 64 (s.inPos.toNat + j) = (s.advance j).inPos from rfl, hs, hp, BitVec.toNat_ofNat]
  omega

/-- InRead of a header byte at the end of IN (R153, R154). -/
theorem readHeaderByte_eof {s : State} {info : Nat} (h : s.inPos.toNat = s.inp.length) :
    readHeaderByte info s = .raise .hdrTrunc (BitVec.ofNat 32 info) s := by
  simp [readHeaderByte, inRead_eof h]

/-- InRead of a header byte whose read fails (R51, R153, R154). -/
theorem readHeaderByte_fail {s : State} {info : Nat} (h : s.inPos.toNat < s.inp.length) (ho : s.inPos.toNat ∈ s.oracle.readFails) :
    readHeaderByte info s = .raise .io (s.inPos.setWidth 32) s := by
  simp [readHeaderByte, inRead, List.getElem?_eq_getElem h, IoOracle.read, ho]

theorem drop_getElem? {l bs rest : List Byte} {p j : Nat} (h : l.drop p = bs ++ rest) (hj : j < bs.length) : l[p + j]? = bs[j]? := by
  rw [← List.getElem?_drop, h, List.getElem?_append_left hj]

/-- ReadBlock's loop past bytes that are there (R154). -/
theorem readBytes_skip {s : State} {bs rest : List Byte} (m k : Nat) (hb : s.inp.drop s.inPos.toNat = bs ++ rest)
    (ho : ∀ j < bs.length, s.inPos.toNat + j ∉ s.oracle.readFails) (hl : s.inPos.toNat + bs.length < 2 ^ 64) :
    readBytes (bs.length + m) k s = (readBytes m (k + bs.length) (s.advance bs.length)).bind fun r s' => .ok (bs ++ r) s' := by
  induction bs generalizing s k with
  | nil =>
    simp only [List.length_nil, Nat.zero_add, Nat.add_zero, advance_zero, List.nil_append]
    cases readBytes m k s <;> rfl
  | cons b bs ih =>
    simp only [List.length_cons] at ho hl ⊢
    have h1 := readHeaderByte_at (s := s) (j := 0) (info := 4 + k) (b := b) (by rw [drop_getElem? hb (by simp)]; rfl) (ho 0 (by omega)) (by omega)
    rw [advance_zero] at h1
    have hp := advance_pos (s := s) (n := 0 + 1) (by omega)
    rw [show bs.length + 1 + m = bs.length + m + 1 by omega, readBytes, h1, res_bind_ok, ih (s := s.advance (0 + 1)) (k + 1)]
    · rw [advance_advance (by omega), show k + 1 + bs.length = k + (bs.length + 1) by omega,
        show 0 + 1 + bs.length = bs.length + 1 by omega]
      cases readBytes m (k + (bs.length + 1)) (s.advance (bs.length + 1)) <;> rfl
    · rw [hp]
      show s.inp.drop _ = _
      rw [Nat.zero_add, ← List.drop_drop, hb]
      rfl
    · intro j hj
      rw [hp]
      show _ ∉ s.oracle.readFails
      have := ho (j + 1) (by omega)
      rwa [show s.inPos.toNat + (0 + 1) + j = s.inPos.toNat + (j + 1) by omega]
    · rw [hp]; omega

/-- ReadBlock's loop on bytes that are there (R154). -/
theorem readBytes_ok {s : State} {bs rest : List Byte} (k : Nat) (hb : s.inp.drop s.inPos.toNat = bs ++ rest)
    (ho : ∀ j < bs.length, s.inPos.toNat + j ∉ s.oracle.readFails) (hl : s.inPos.toNat + bs.length < 2 ^ 64) :
    readBytes bs.length k s = .ok bs (s.advance bs.length) := by
  have := readBytes_skip (s := s) (bs := bs) (rest := rest) 0 k hb ho hl
  rw [Nat.add_zero] at this
  rw [this]
  simp [readBytes]

/-- ReadBlock's loop on bytes that end too early, or whose first failing read is the one after `bs` (R154). -/
theorem readBytes_raise {s : State} {bs rest : List Byte} {n : Nat} (k : Nat) (hb : s.inp.drop s.inPos.toNat = bs ++ rest)
    (ho : ∀ j < bs.length, s.inPos.toNat + j ∉ s.oracle.readFails) (hl : s.inPos.toNat + bs.length < 2 ^ 64) (hn : bs.length < n)
    {e : ErrCode} {info : Word} (hr : readHeaderByte (4 + (k + bs.length)) (s.advance bs.length) = .raise e info (s.advance bs.length)) :
    readBytes n k s = .raise e info (s.advance bs.length) := by
  obtain ⟨m, rfl⟩ := Nat.exists_eq_add_of_lt hn
  rw [show bs.length + m + 1 = bs.length + (m + 1) by omega, readBytes_skip (m + 1) k hb ho hl, readBytes, hr]
  rfl

/-- ReadLength on a prefix that is there (R153, R57). -/
theorem readLength_ok {s : State} {v : Word} {rest : List Byte} (hb : s.inp.drop s.inPos.toNat = le32 v ++ rest)
    (ho : ∀ j < 4, s.inPos.toNat + j ∉ s.oracle.readFails) (hl : s.inPos.toNat + 4 < 2 ^ 64) :
    readLength s = .ok v.toNat (s.advance 4) := by
  have step : ∀ j, j < 4 → ∀ b, (le32 v)[j]? = some b → readHeaderByte j (s.advance j) = .ok b (s.advance (j + 1)) := by
    intro j hj b h
    exact readHeaderByte_at (by rw [drop_getElem? hb (by simpa [le32] using hj), h]) (ho j hj) (by omega)
  have h0 := step 0 (by omega) _ rfl
  rw [advance_zero] at h0
  unfold readLength
  rw [h0, res_bind_ok, step 1 (by omega) _ rfl, res_bind_ok, step 2 (by omega) _ rfl, res_bind_ok, step 3 (by omega) _ rfl, res_bind_ok]
  congr 1
  simp [le32Value, Nat.shiftRight_eq_div_pow]; have := v.isLt; omega

/-- ReadLength that ends after j of its bytes (R153). -/
theorem readLength_raise {s : State} {j : Nat} (hj : j < 4) (hb : s.inPos.toNat + j ≤ s.inp.length)
    (ho : ∀ i < j, s.inPos.toNat + i ∉ s.oracle.readFails) (hl : s.inPos.toNat + j < 2 ^ 64) {e : ErrCode} {info : Word}
    (hr : readHeaderByte j (s.advance j) = .raise e info (s.advance j)) : readLength s = .raise e info (s.advance j) := by
  have step : ∀ i, i < j → ∃ b, readHeaderByte i (s.advance i) = .ok b (s.advance (i + 1)) := by
    intro i hi
    exact ⟨_, readHeaderByte_at (b := s.inp[s.inPos.toNat + i]) (List.getElem?_eq_getElem (by omega)) (ho i hi) (by omega)⟩
  have h0 : 0 < j → ∃ b, readHeaderByte 0 s = .ok b (s.advance 1) := by
    intro h; have := step 0 h; rwa [advance_zero] at this
  unfold readLength
  match j, hj with
  | 0, _ => rw [advance_zero] at hr ⊢; rw [hr]; rfl
  | 1, _ =>
    obtain ⟨b0, e0⟩ := h0 (by omega)
    rw [e0, res_bind_ok, hr]; rfl
  | 2, _ =>
    obtain ⟨b0, e0⟩ := h0 (by omega)
    obtain ⟨b1, e1⟩ := step 1 (by omega)
    rw [e0, res_bind_ok, e1, res_bind_ok, hr]; rfl
  | 3, _ =>
    obtain ⟨b0, e0⟩ := h0 (by omega)
    obtain ⟨b1, e1⟩ := step 1 (by omega)
    obtain ⟨b2, e2⟩ := step 2 (by omega)
    rw [e0, res_bind_ok, e1, res_bind_ok, e2, res_bind_ok, hr]; rfl

/-- HC_LOAD of a header that is there: everything after its reads (R157). -/
theorem hcLoadRule_read {s : State} {block rest : List Byte} (hidle : s.bpState = .idle)
    (hb : s.inp.drop s.inPos.toNat = le32 (BitVec.ofNat 32 block.length) ++ block ++ rest) (h0 : 0 < block.length)
    (h1 : block.length ≤ 65535) (ho : ∀ j < 4 + block.length, s.inPos.toNat + j ∉ s.oracle.readFails)
    (hl : s.inPos.toNat + 4 + block.length < 2 ^ 64) :
    hcLoadRule s = (Res.ofHdr (parseEntries block) (s.advance (4 + block.length))).bind fun es s3 =>
      (Res.ofHdr (reconstruct es) s3).bind fun tc s4 =>
        .ok ((BitVec.ofNat 32 es.length <<< 16) ||| BitVec.ofNat 32 block.length) (s4.withLoaded es tc.1 tc.2) := by
  have hv : (BitVec.ofNat 32 block.length).toNat = block.length := by rw [BitVec.toNat_ofNat]; omega
  have hp := advance_pos (s := s) (n := 4) (by omega)
  have hrl := readLength_ok (s := s) (v := BitVec.ofNat 32 block.length) (rest := block ++ rest) (by rw [hb, List.append_assoc])
    (fun j hj => ho j (by omega)) (by omega)
  have hrb := readBytes_ok (s := s.advance 4) (bs := block) (rest := rest) 0
    (by rw [hp]; show s.inp.drop _ = _; rw [← List.drop_drop, hb, List.append_assoc]; rfl)
    (by
      intro j hj; rw [hp]; show _ ∉ s.oracle.readFails
      have := ho (4 + j) (by omega)
      rwa [← Nat.add_assoc] at this)
    (by rw [hp]; omega)
  rw [advance_advance (by omega)] at hrb
  unfold hcLoadRule
  rw [if_neg (by simp [hidle]), hrl, res_bind_ok, hv, readBlock, if_neg (by simp only [Config.hdrMax]; omega), hrb, res_bind_ok]

/-! ### Parsing -/

/-- Between the symbol and the separator the parser collects the characters (R155). -/
theorem parseFrom_chars {p : Nat} {e : OpenEntry} {cs rest : List Byte} (h : ∀ c ∈ cs, c ≠ Config.sepByte) :
    parseFrom p (some e) (cs ++ rest) = parseFrom (p + cs.length) (some { e with chars := e.chars ++ cs }) rest := by
  induction cs generalizing p e with
  | nil => simp
  | cons c cs ih =>
    rw [List.cons_append, parseFrom, if_neg (h c (by simp)), ih fun x hx => h x (by simp [hx])]
    simp [Nat.add_assoc, Nat.add_comm]

theorem codeChar_ne_sep (b : Bool) : codeChar b ≠ Config.sepByte := by cases b <;> decide

/-- The characters of a code are checked back into it (R150, R155). -/
theorem entryCode_chars {p : Nat} {c : Bits} (h0 : c ≠ []) (h1 : c.length ≤ Config.maxCodeLen) :
    entryCode p (c.map codeChar) = .ok c := by
  have ha : (c.map codeChar).any (fun c => c != Config.ch0 && c != Config.ch1) = false := by
    rw [List.any_eq_false]
    intro x hx
    obtain ⟨b, _, rfl⟩ := List.mem_map.1 hx
    cases b <;> decide
  have hm : (c.map codeChar).map (fun c => c == Config.ch1) = c := by
    rw [List.map_map]
    conv_rhs => rw [← List.map_id c]
    apply List.map_congr_left
    intro b _
    cases b <;> decide
  unfold entryCode
  rw [if_neg (by simpa using h0), if_neg (by simpa using h1), if_neg (by simp [ha]), hm]

/-- Parsing past entries that are well formed, whatever their symbols are (R150, R155). -/
theorem parseFrom_entries (es : List (Byte × Bits)) (hl : ∀ e ∈ es, e.2 ≠ [] ∧ e.2.length ≤ 255) (p : Nat) (rest : List Byte) :
    parseFrom p none (es.flatMap (fun e => entryBytes e.1 e.2) ++ rest) =
      match parseFrom (p + (es.flatMap fun e => entryBytes e.1 e.2).length) none rest with
      | .error err => .error err
      | .ok fs => .ok (es ++ fs) := by
  induction es generalizing p with
  | nil =>
    simp only [List.flatMap_nil, List.nil_append, List.length_nil, Nat.add_zero]
    cases parseFrom p none rest <;> rfl
  | cons e es ih =>
    obtain ⟨h0, h1⟩ := hl e (by simp)
    have hs : ∀ x ∈ e.2.map codeChar, x ≠ Config.sepByte := by
      intro x hx
      obtain ⟨b, _, rfl⟩ := List.mem_map.1 hx
      exact codeChar_ne_sep b
    rw [List.flatMap_cons, List.append_assoc, entryBytes]
    simp only [List.cons_append, List.append_assoc, parseFrom]
    rw [parseFrom_chars hs]
    simp only [List.nil_append, List.length_map, parseFrom, if_true, entryCode_chars h0 (show e.2.length ≤ Config.maxCodeLen from h1)]
    rw [ih (fun e he => hl e (by simp [he]))]
    have harith : p + 1 + e.2.length + 1 + (es.flatMap fun e => entryBytes e.1 e.2).length =
        p + (e.1 :: (e.2.map codeChar ++ Config.sepByte :: es.flatMap fun e => entryBytes e.1 e.2)).length := by
      simp only [List.length_cons, List.length_append, List.length_map]; omega
    rw [harith]
    cases parseFrom (p + (e.1 :: (e.2.map codeChar ++ Config.sepByte :: es.flatMap fun e => entryBytes e.1 e.2)).length) none rest <;> rfl

/-- An entry that no separator ends is truncated at its symbol's offset (R155). -/
theorem parseFrom_trunc {p : Nat} {sym : Byte} {cs : List Byte} (h : ∀ c ∈ cs, c ≠ Config.sepByte) :
    parseFrom p none (sym :: cs) = .error (.hdrTrunc, p) := by
  have := parseFrom_chars (p := p + 1) (e := ⟨p, sym, []⟩) (rest := []) h
  rw [List.append_nil] at this
  rw [parseFrom, this]; rfl

/-- An entry whose characters are no code is malformed at its symbol's offset (R155). -/
theorem parseFrom_malformed {p : Nat} {sym : Byte} {cs rest : List Byte} (h : ∀ c ∈ cs, c ≠ Config.sepByte)
    (hb : cs = [] ∨ 255 < cs.length ∨ ∃ c ∈ cs, c ≠ Config.ch0 ∧ c ≠ Config.ch1) :
    parseFrom p none (sym :: cs ++ Config.sepByte :: rest) = .error (.hdrMalformed, p) := by
  have hc : entryCode p cs = .error (.hdrMalformed, p) := by
    unfold entryCode
    split
    · rfl
    · rename_i h0
      split
      · rfl
      · rename_i h1
        rw [if_pos]
        simp only [Config.maxCodeLen] at h1
        rcases hb with hb | hb | ⟨c, hc, hb⟩
        · exact absurd (by rw [hb]; rfl) h0
        · exact absurd hb h1
        · rw [List.any_eq_true]; exact ⟨c, hc, by simpa using hb⟩
  rw [List.cons_append, parseFrom, parseFrom_chars h]
  simp only [List.nil_append, parseFrom, if_true, hc]

end Sys2Proof.Machine
end

