-- ==== Sys2Proof/Laws/Reconstruct.lean ====
section
/-! SUPPORT. The arenas that TB_BUILD and HC_LOAD commit: what holds of the one that Reconstruct grows, entry by entry, and what
both give in the terms of the invariants. -/

namespace Sys2Proof.Machine

/-! ### Reconstruct -/

/-- What holds of the temporary arena of Reconstruct after every record it adds (R156). The depths grow from parent to child, and
no internal record is at depth 255. -/
structure Trie (t : Table Node) (cnt : Nat) (depth : Nat → Nat) : Prop where
  pos : 0 < cnt
  size : cnt ≤ 511
  blank : ∀ i, cnt ≤ i → Table.get Node.blank t i = Node.blank
  root : (Table.get Node.blank t 0).kind = .internal ∧ depth 0 = 0
  kinds : ∀ i, i < cnt → (Table.get Node.blank t i).kind = .internal ∨ (Table.get Node.blank t i).kind = .leaf
  inner : ∀ i, (Table.get Node.blank t i).kind = .internal → (Table.get Node.blank t i).sym = 0#8 ∧ depth i ≤ 254
  leaf : ∀ i, (Table.get Node.blank t i).kind = .leaf →
    (Table.get Node.blank t i).zero = Config.nil ∧ (Table.get Node.blank t i).one = Config.nil
  child : ∀ i x, (Table.get Node.blank t i).kind = .internal → (Table.get Node.blank t i).branch x ≠ Config.nil →
    ((Table.get Node.blank t i).branch x).toNat < cnt ∧ depth ((Table.get Node.blank t i).branch x).toNat = depth i + 1
  unshared : ∀ i j x y, (Table.get Node.blank t i).kind = .internal → (Table.get Node.blank t j).kind = .internal →
    (Table.get Node.blank t i).branch x = (Table.get Node.blank t j).branch y → (Table.get Node.blank t i).branch x ≠ Config.nil →
    i = j ∧ x = y

theorem setBranch_kind (r : Node) (x : Bool) (c : NodeIx) : (r.setBranch x c).kind = r.kind ∧ (r.setBranch x c).sym = r.sym := by
  cases x <;> exact ⟨rfl, rfl⟩

theorem setBranch_branch (r : Node) (x y : Bool) (c : NodeIx) : (r.setBranch x c).branch y = if y = x then c else r.branch y := by
  cases x <;> cases y <;> rfl

/-- Every record after a new one is attached (R156). -/
theorem attach_get {t : Table Node} {cnt : Nat} {i : NodeIx} (x : Bool) (r : Node) (hi : i.toNat ≠ cnt) (k : Nat) :
    Table.get Node.blank (attach t cnt i x r) k =
      if k = i.toNat then (Table.get Node.blank t k).setBranch x (BitVec.ofNat 9 cnt) else if k = cnt then r else Table.get Node.blank t k := by
  simp only [attach, arenaSet, arenaAt, table_get_set]
  by_cases h : k = i.toNat
  · subst h; simp [hi]
  · simp [h]

/-- Attaching a new record below an internal one keeps the trie (R156). -/
theorem Trie.attach {t : Table Node} {cnt : Nat} {depth : Nat → Nat} (h : Trie t cnt depth) {i : NodeIx} {x : Bool} {r : Node}
    (hi : i.toNat < cnt) (hk : (Table.get Node.blank t i.toNat).kind = .internal)
    (hc : cnt ≠ 511)
    (hr : (r.kind = .leaf ∨ (r.kind = .internal ∧ r.sym = 0#8 ∧ depth i.toNat ≤ 253)) ∧ r.zero = Config.nil ∧ r.one = Config.nil) :
    Trie (attach t cnt i x r) (cnt + 1) (fun k => if k = cnt then depth i.toNat + 1 else depth k) := by
  have hcs := h.size
  have hne : i.toNat ≠ cnt := by omega
  have hg := attach_get (t := t) x r hne
  have hcv : (BitVec.ofNat 9 cnt).toNat = cnt := by simp; omega
  have hrb : ∀ b, r.branch b = Config.nil := by intro b; cases b <;> simp [Node.branch, hr.2.1, hr.2.2]
  have hkind : ∀ k, k ≠ cnt → (Table.get Node.blank (Machine.attach t cnt i x r) k).kind = (Table.get Node.blank t k).kind ∧
      (Table.get Node.blank (Machine.attach t cnt i x r) k).sym = (Table.get Node.blank t k).sym := by
    intro k hkc
    rw [hg]
    split
    · exact setBranch_kind _ _ _
    · simp
  have hnew : Table.get Node.blank (Machine.attach t cnt i x r) cnt = r := by
    rw [hg, if_neg (fun e => hne e.symm), if_pos rfl]
  -- the branches that are not nil: the old ones, or the one attached
  have hbr : ∀ k y, (Table.get Node.blank (Machine.attach t cnt i x r) k).branch y ≠ Config.nil →
      (k = i.toNat ∧ y = x ∧ (Table.get Node.blank (Machine.attach t cnt i x r) k).branch y = BitVec.ofNat 9 cnt) ∨
      (k ≠ cnt ∧ (Table.get Node.blank (Machine.attach t cnt i x r) k).branch y = (Table.get Node.blank t k).branch y) := by
    intro k y hn
    rw [hg] at hn ⊢
    by_cases h1 : k = i.toNat
    · subst h1
      rw [if_pos rfl, setBranch_branch] at hn ⊢
      by_cases hy : y = x
      · exact .inl ⟨rfl, hy, by rw [if_pos hy]⟩
      · exact .inr ⟨hne, by rw [if_neg hy]⟩
    · rw [if_neg h1] at hn ⊢
      by_cases h2 : k = cnt
      · rw [if_pos h2, hrb] at hn; exact absurd rfl hn
      · exact .inr ⟨h2, by rw [if_neg h2]⟩
  refine
    { pos := Nat.succ_pos _, size := by omega, blank := ?_, root := ?_, kinds := ?_, inner := ?_, leaf := ?_, child := ?_, unshared := ?_ }
  · intro k hk'
    rw [hg, if_neg (by omega), if_neg (by omega)]
    exact h.blank k (by omega)
  · have hp := h.pos
    exact ⟨by rw [(hkind 0 (by omega)).1]; exact h.root.1, by rw [if_neg (by omega)]; exact h.root.2⟩
  · intro k hk'
    by_cases hkc : k = cnt
    · subst hkc; rw [hnew]
      rcases hr.1 with hl | ⟨hi', _⟩
      · exact .inr hl
      · exact .inl hi'
    · rw [(hkind k hkc).1]; exact h.kinds k (by omega)
  · intro k hk'
    by_cases hkc : k = cnt
    · subst hkc
      rw [hnew] at hk' ⊢
      rcases hr.1 with hl | ⟨_, hs, hd⟩
      · rw [hl] at hk'; simp at hk'
      · exact ⟨hs, by rw [if_pos rfl]; omega⟩
    · rw [(hkind k hkc).1] at hk'
      rw [(hkind k hkc).2, if_neg hkc]
      exact h.inner k hk'
  · intro k hk'
    by_cases hkc : k = cnt
    · subst hkc; rw [hnew]; exact hr.2
    · rw [(hkind k hkc).1] at hk'
      have hki : k ≠ i.toNat := by intro e; subst e; rw [hk] at hk'; simp at hk'
      rw [hg, if_neg hki, if_neg hkc]
      exact h.leaf k hk'
  · intro k y hk' hn
    rcases hbr k y hn with ⟨h1, h2, h3⟩ | ⟨h1, h2⟩
    · rw [h3, hcv]
      exact ⟨by omega, by rw [if_pos rfl, if_neg (by omega), h1]⟩
    · rw [(hkind k h1).1] at hk'
      rw [h2] at hn ⊢
      obtain ⟨c1, c2⟩ := h.child k y hk' hn
      exact ⟨by omega, by rw [if_neg (by omega), if_neg h1]; exact c2⟩
  · intro k l y z hk' hl' he hn
    have hn' := hn
    rw [he] at hn'
    rcases hbr k y hn with ⟨a1, a2, a3⟩ | ⟨a1, a2⟩ <;> rcases hbr l z hn' with ⟨b1, b2, b3⟩ | ⟨b1, b2⟩
    · exact ⟨a1.trans b1.symm, a2.trans b2.symm⟩
    · rw [(hkind l b1).1] at hl'
      have hcl := (h.child l z hl' (by rw [← b2]; exact hn')).1
      rw [← b2, ← he, a3, hcv] at hcl
      omega
    · rw [(hkind k a1).1] at hk'
      have hcl := (h.child k y hk' (by rw [← a2]; exact hn)).1
      rw [← a2, he, b3, hcv] at hcl
      omega
    · rw [(hkind k a1).1] at hk'
      rw [(hkind l b1).1] at hl'
      exact h.unshared k l y z hk' hl' (by rw [← a2, ← b2]; exact he) (by rw [← a2]; exact hn)

/-- The walk of Reconstruct for one code keeps the trie (R156). -/
theorem Trie.insertCode {sym : Byte} {c : Bits} {i : NodeIx} {t t' : Table Node} {cnt cnt' : Nat} {depth : Nat → Nat}
    (h : Trie t cnt depth) (hi : i.toNat < cnt) (hk : (Table.get Node.blank t i.toNat).kind = .internal)
    (hd : depth i.toNat + c.length ≤ 255) (hx : insertCode sym c i t cnt = some (t', cnt')) : ∃ depth', Trie t' cnt' depth' := by
  induction c generalizing i t cnt depth with
  | nil => simp [Machine.insertCode] at hx
  | cons x c ih =>
    cases c with
    | nil =>
      simp only [Machine.insertCode] at hx
      split at hx
      · simp at hx
      split at hx
      · simp at hx
      rename_i hc
      simp only [Option.some.injEq, Prod.mk.injEq] at hx
      obtain ⟨rfl, rfl⟩ := hx
      exact ⟨_, h.attach hi hk hc ⟨.inl rfl, rfl, rfl⟩⟩
    | cons y c =>
      simp only [Machine.insertCode] at hx
      have hcs := h.size
      simp only [List.length_cons] at hd
      split at hx
      · split at hx
        · simp at hx
        rename_i hc
        have hc' : cnt ≠ 511 := hc
        have hcv : (BitVec.ofNat 9 cnt).toNat = cnt := by simp; omega
        have hne : i.toNat ≠ cnt := by omega
        have h' := h.attach (x := x) (r := freshInternal) hi hk hc' ⟨.inr ⟨rfl, rfl, by omega⟩, rfl, rfl⟩
        refine ih h' (by rw [hcv]; omega) ?_ ?_ hx
        · rw [hcv, attach_get x freshInternal hne, if_neg (fun e => hne e.symm), if_pos rfl]; rfl
        · rw [hcv, if_pos rfl]; simp only [List.length_cons]; omega
      · rename_i hb
        split at hx
        · simp at hx
        rename_i hl
        have hb' : (Table.get Node.blank t i.toNat).branch x ≠ Config.nil := hb
        obtain ⟨c1, c2⟩ := h.child i.toNat x hk hb'
        refine ih h c1 ?_ ?_ hx
        · rcases h.kinds _ c1 with hh | hh
          · exact hh
          · exact absurd hh hl
        · show depth ((Table.get Node.blank t i.toNat).branch x).toNat + _ ≤ 255
          rw [c2]; simp only [List.length_cons]; omega

/-- What ParseEntries accepts is a code of 1 to 255 bits per entry (R155). -/
theorem parseFrom_lengths {p : Nat} {o : Option OpenEntry} {bs : List Byte} {es : List (Byte × Bits)} (h : parseFrom p o bs = .ok es) :
    ∀ e ∈ es, e.2 ≠ [] ∧ e.2.length ≤ 255 := by
  induction bs generalizing p o es with
  | nil => cases o <;> simp [parseFrom] at h; subst h; simp
  | cons b bs ih =>
    cases o with
    | none => exact ih h
    | some o =>
      simp only [parseFrom] at h
      split at h
      · cases hc : entryCode o.start o.chars with
        | error e => rw [hc] at h; simp at h
        | ok c =>
          rw [hc] at h
          simp only at h
          cases hp : parseFrom (p + 1) none bs with
          | error e => rw [hp] at h; simp at h
          | ok es' =>
            rw [hp] at h
            simp only [Except.ok.injEq] at h
            subst h
            intro e he
            rcases List.mem_cons.1 he with rfl | he
            · unfold entryCode at hc
              split at hc
              · simp at hc
              rename_i h0
              split at hc
              · simp at hc
              rename_i h1
              split at hc
              · simp at hc
              simp only [Except.ok.injEq] at hc
              subst hc
              simp only [Config.maxCodeLen, Nat.not_lt] at h1
              exact ⟨by simpa using h0, by simpa using h1⟩
            · exact ih hp e he
      · exact ih h

theorem reconstructFrom_trie {es : List (Byte × Bits)} {e : Nat} {seen : List Byte} {t t' : Table Node} {cnt cnt' : Nat}
    {depth : Nat → Nat} (h : Trie t cnt depth) (hl : ∀ e ∈ es, e.2.length ≤ 255)
    (hx : reconstructFrom es e seen t cnt = .ok (t', cnt')) : ∃ depth', Trie t' cnt' depth' := by
  induction es generalizing e seen t cnt depth with
  | nil => simp only [reconstructFrom, Except.ok.injEq, Prod.mk.injEq] at hx; obtain ⟨rfl, rfl⟩ := hx; exact ⟨_, h⟩
  | cons a es ih =>
    obtain ⟨sym, c⟩ := a
    simp only [reconstructFrom] at hx
    split at hx
    · simp at hx
    split at hx
    · simp at hx
    rename_i t1 cnt1 hi
    have h0 : (0#9 : NodeIx).toNat = 0 := rfl
    obtain ⟨d, hd⟩ := h.insertCode (i := 0#9) (by rw [h0]; exact h.pos) (by rw [h0]; exact h.root.1)
      (by rw [h0, h.root.2]; have := hl (sym, c) (by simp); simpa using this) hi
    exact ih hd (fun e he => hl e (by simp [he])) hx

/-- Before the first entry the tree is the bare root (R156). -/
theorem trie_start : Trie (Table.set Node.blank [] 0 freshInternal) 1 fun _ => 0 := by
  have hg : ∀ k, Table.get Node.blank (Table.set Node.blank [] 0 freshInternal) k = if k = 0 then freshInternal else Node.blank := by
    intro k; rw [table_get_set]; rfl
  have hb : ∀ k y, (Table.get Node.blank (Table.set Node.blank [] 0 freshInternal) k).branch y = Config.nil := by
    intro k y; rw [hg]; split <;> cases y <;> rfl
  refine
    { pos := Nat.one_pos, size := by omega, blank := ?_, root := ?_, kinds := ?_, inner := ?_, leaf := ?_, child := ?_, unshared := ?_ }
  · intro k hk; rw [hg, if_neg (by omega)]
  · rw [hg, if_pos rfl]; exact ⟨rfl, rfl⟩
  · intro k hk; rw [hg, if_pos (by omega)]; exact .inl rfl
  · intro k _; rw [hg]; split <;> exact ⟨rfl, by omega⟩
  · intro k _; rw [hg]; split <;> exact ⟨rfl, rfl⟩
  · intro k y _ hn; exact absurd (hb k y) hn
  · intro k l y z _ _ _ hn; exact absurd (hb k y) hn

/-- The arena that Reconstruct answers for parsed entries (R155, R156). -/
theorem reconstruct_trie {block : List Byte} {es : List (Byte × Bits)} {t : Table Node} {cnt : Nat} (hp : parseEntries block = .ok es)
    (hr : reconstruct es = .ok (t, cnt)) : ∃ depth, Trie t cnt depth :=
  reconstructFrom_trie trie_start (fun e he => (parseFrom_lengths hp e he).2) hr

/-! ### The arena of a valid tree, in the terms of the invariants -/

/-- What R23, R24 and R25 say of the arena of a valid tree. -/
structure GoodTree (t : Table Node) (cnt : Nat) (root : NodeIx) : Prop where
  size : cnt ≤ 511
  blank : ∀ i : NodeIx, cnt ≤ i.toNat → arenaAt t i = Node.blank
  shaped : ∀ i : NodeIx, ((arenaAt t i).kind ≠ .leaf → (arenaAt t i).sym = 0#8) ∧
    ((arenaAt t i).kind ≠ .internal → (arenaAt t i).zero = Config.nil ∧ (arenaAt t i).one = Config.nil)
  rooted : root ≠ Config.nil ∧ (arenaAt t root).kind = .internal
  inside : ∀ (i : NodeIx) (x : Bool), (arenaAt t i).kind = .internal →
    (arenaAt t i).branch x = Config.nil ∨ ((arenaAt t i).branch x).toNat < cnt
  unshared : ∀ (i j : NodeIx) (x y : Bool), (arenaAt t i).kind = .internal → (arenaAt t j).kind = .internal →
    (arenaAt t i).branch x = (arenaAt t j).branch y → (arenaAt t i).branch x ≠ Config.nil → i = j ∧ x = y
  generates : ∃ c, genCodes t root = .ok c

theorem Trie.good {t : Table Node} {cnt : Nat} {depth : Nat → Nat} (h : Trie t cnt depth) : GoodTree t cnt 0#9 where
  size := h.size
  blank i hi := h.blank _ hi
  shaped i := by
    by_cases hc : i.toNat < cnt
    · rcases h.kinds _ hc with hk | hk
      · exact ⟨fun _ => (h.inner _ hk).1, fun hn => absurd hk hn⟩
      · exact ⟨fun hn => absurd hk hn, fun _ => h.leaf _ hk⟩
    · have hb : arenaAt t i = Node.blank := h.blank _ (by omega)
      rw [hb]
      exact ⟨fun _ => rfl, fun _ => ⟨rfl, rfl⟩⟩
  rooted := ⟨by decide, h.root.1⟩
  inside i x hk := by
    by_cases hn : (arenaAt t i).branch x = Config.nil
    · exact .inl hn
    · exact .inr (h.child _ x hk hn).1
  unshared i j x y hi hj he hn := by
    obtain ⟨h1, h2⟩ := h.unshared i.toNat j.toNat x y hi hj he hn
    exact ⟨BitVec.eq_of_toNat_eq h1, h2⟩
  generates := by
    refine visit_ends (fun k => 255 - depth k.toNat) ?_ _ _ _ _ (by decide) ?_
    · intro i x hk hn
      have h1 := (h.child i.toNat x hk hn).2
      have h2 := (h.inner _ hk).2
      have h1' : depth ((arenaAt t i).branch x).toNat = depth i.toNat + 1 := h1
      omega
    · simp only [Config.maxCodeLen]; omega

theorem Forest.good {n total : Nat} {leaf : Nat → Node} {e : Nat × Nat} {next : Nat} {t : Table Node} {rank : Nat → Nat}
    (h : Forest n total leaf [e] next t rank) (hn : 2 ≤ n) :
    next = 2 * n - 1 ∧ e.2 = next - 1 ∧ e.1 = total ∧ GoodTree t next (BitVec.ofNat 9 (next - 1)) := by
  have hc := h.count
  simp only [List.length_singleton] at hc
  have hs := h.size
  obtain ⟨hl, hln⟩ := h.last rfl e (by simp)
  have hrt : (BitVec.ofNat 9 (next - 1)).toNat = next - 1 := by simp; omega
  have hint : ∀ k, (Table.get Node.blank t k).kind = .internal → n ≤ k ∧ k < next := by
    intro k hk
    by_cases h1 : k < n
    · rw [h.leaves k h1, (h.isLeaf k h1).1] at hk; simp at hk
    · by_cases h2 : k < next
      · exact ⟨by omega, h2⟩
      · rw [h.blank k (by omega)] at hk; simp [Node.blank] at hk
  refine ⟨by omega, by omega, by simpa using h.weights, ?_⟩
  refine
    { size := by omega, blank := fun i hi => h.blank _ hi, shaped := ?_, rooted := ?_, inside := ?_, unshared := ?_, generates := ?_ }
  · intro i
    unfold arenaAt
    by_cases h1 : i.toNat < n
    · rw [h.leaves _ h1]
      exact ⟨fun hk => absurd (h.isLeaf _ h1).1 hk, fun _ => (h.isLeaf _ h1).2⟩
    · by_cases h2 : i.toNat < next
      · exact ⟨fun _ => (h.inner _ (by omega) h2).2, fun hk => absurd (h.inner _ (by omega) h2).1 hk⟩
      · rw [h.blank _ (by omega)]
        exact ⟨fun _ => rfl, fun _ => ⟨rfl, rfl⟩⟩
  · refine ⟨?_, ?_⟩
    · intro he
      have := congrArg BitVec.toNat he
      rw [hrt] at this
      simp [Config.nil] at this
      omega
    · unfold arenaAt; rw [hrt]; exact (h.inner _ (by omega) (by omega)).1
  · intro i x hk
    obtain ⟨h1, h2⟩ := hint _ hk
    have := (h.child i.toNat x h1 h2).1
    exact .inr (Nat.lt_trans this h2)
  · intro i j x y hi hj he _
    obtain ⟨h1, h2⟩ := hint _ hi
    obtain ⟨h3, h4⟩ := hint _ hj
    obtain ⟨h5, h6⟩ := h.unshared i.toNat j.toNat x y h1 h2 h3 h4 he
    exact ⟨BitVec.eq_of_toNat_eq h5, h6⟩
  · refine visit_ends (fun k => rank k.toNat) ?_ _ _ _ _ ?_ ?_
    · intro i x hk _
      obtain ⟨h1, h2⟩ := hint _ hk
      exact (h.child i.toNat x h1 h2).2.1
    · intro he
      have := congrArg BitVec.toNat he
      rw [hrt] at this
      simp [Config.nil] at this
      omega
    · have hr := h.ranks
      simp only [List.map_cons, List.map_nil, List.sum_cons, List.sum_nil] at hr
      rw [hrt, show next - 1 = e.2 by omega]
      simp only [Config.maxCodeLen]
      omega

/-- The degenerate tree is a good one (R111). -/
theorem buildDegenerate_good (k : Nat × Nat) :
    GoodTree (buildDegenerate k).arena (buildDegenerate k).cnt (BitVec.ofNat 9 (buildDegenerate k).root) := by
  have hg : ∀ i : NodeIx, arenaAt (buildDegenerate k).arena i =
      if i = 2#9 then internalNode 0 1 k.1 else if i = 1#9 then ⟨.placeholder, 0#8, Config.nil, Config.nil, 0#64⟩
      else if i = 0#9 then leafNode k.1 k.2 else Node.blank := by
    intro i
    have e0 : i.toNat = 0 ↔ i = 0#9 := by rw [← BitVec.toNat_inj]; rfl
    have e1 : i.toNat = 1 ↔ i = 1#9 := by rw [← BitVec.toNat_inj]; rfl
    have e2 : i.toNat = 2 ↔ i = 2#9 := by rw [← BitVec.toNat_inj]; rfl
    simp only [arenaAt, buildDegenerate, table_get_set, table_get_nil, e0, e1, e2]
  have hint : ∀ i : NodeIx, (arenaAt (buildDegenerate k).arena i).kind = .internal → i = 2#9 := by
    intro i hk
    rw [hg] at hk
    split at hk
    · assumption
    · split at hk
      · simp at hk
      · split at hk <;> simp [leafNode, Node.blank] at hk
  have h2 : arenaAt (buildDegenerate k).arena 2#9 = internalNode 0 1 k.1 := by rw [hg]; simp
  have hb : ∀ x : Bool, (internalNode 0 1 k.1).branch x = if x then 1#9 else 0#9 := by intro x; cases x <;> rfl
  refine
    { size := (by omega : 3 ≤ 511), blank := ?_, shaped := ?_, rooted := ⟨(by decide : (2#9 : NodeIx) ≠ 511#9), by rw [show BitVec.ofNat 9 (buildDegenerate k).root = 2#9 from rfl, h2]; rfl⟩
      inside := ?_, unshared := ?_, generates := ?_ }
  · intro i hi
    have hi' : 3 ≤ i.toNat := hi
    rw [hg, if_neg (by rintro rfl; simp at hi'), if_neg (by rintro rfl; simp at hi'), if_neg (by rintro rfl; simp at hi')]
  · intro i
    rw [hg]
    split
    · exact ⟨fun _ => rfl, fun h => absurd rfl h⟩
    · split
      · exact ⟨fun _ => rfl, fun _ => ⟨rfl, rfl⟩⟩
      · split
        · exact ⟨fun h => absurd rfl h, fun _ => ⟨rfl, rfl⟩⟩
        · exact ⟨fun _ => rfl, fun _ => ⟨rfl, rfl⟩⟩
  · intro i x hk
    rw [hint i hk, h2, hb]
    right
    show _ < 3
    cases x <;> decide
  · intro i j x y hi hj he _
    rw [hint i hi, hint j hj, h2, hb, hb] at he
    refine ⟨(hint i hi).trans (hint j hj).symm, ?_⟩
    revert he; cases x <;> cases y <;> decide
  · refine visit_ends (fun i => if i = 2#9 then 1 else 0) ?_ _ _ _ _ (by decide : (2#9 : NodeIx) ≠ 511#9)
      (by decide : (if (2#9 : NodeIx) = 2#9 then 1 else 0) < 256)
    intro i x hk _
    rw [hint i hk, h2, hb]
    cases x <;> decide

/-- Every tree that BuildTree answers is a good one (R110, R111, R25). -/
theorem buildTree_good {freq : Table Word} {b : Built} (h : buildTree (sortedKeys freq) = some b) :
    GoodTree b.arena b.cnt (BitVec.ofNat 9 b.root) := by
  have hl := sortedKeys_length freq
  unfold buildTree at h
  split at h
  · simp at h
  · rename_i k _; cases h; exact buildDegenerate_good k
  · rename_i k k' rest hk
    cases h
    rw [hk] at hl
    have hs := Forest.start (ks := k :: k' :: rest) (by simp) hl
    have hq : (leafQueue (k :: k' :: rest) 0).length ≤ (k :: k' :: rest).length + 1 := by
      rw [leafQueue_map]; simp
    obtain ⟨e, rank', hf⟩ := hs.mergeAll (k :: k' :: rest).length hq
    exact (hf.good (by simp)).2.2.2

/-! ### Effects on the tree -/

theorem effect_newTree {i : Instr} {s t : State} (h : Effect i s t)
    (hn : t.node ≠ s.node ∨ t.treeValid ≠ s.treeValid ∨ t.root ≠ s.root ∨ t.nodeCnt ≠ s.nodeCnt) :
    GoodTree t.node t.nodeCnt.toNat t.root ∧ t.wState = .atRoot ∧ t.wCur = Config.nil := by
  have gb : ∀ {arena cnt root}, GoodTree arena cnt root → GoodTree arena (BitVec.ofNat 10 cnt).toNat root := by
    intro a c r hg
    have := hg.size
    rw [BitVec.toNat_ofNat, Nat.mod_eq_of_lt (by omega)]
    exact hg
  cases h with
  | build hi b hb _ => exact ⟨gb (buildTree_good hb), rfl, rfl⟩
  | load hi u hu block es arena cnt hp hr _ =>
    obtain ⟨d, hd⟩ := reconstruct_trie hp hr
    exact ⟨gb hd.good, rfl, rfl⟩
  | read hi t ht =>
    obtain ⟨h1, -⟩ := ht
    rw [h1] at hn
    simp at hn
  | push hi t hd ht => rw [ht] at hn; simp at hn
  | close hi t ho ht => rcases ht with rfl | rfl <;> simp [State.released] at hn
  | walk hi t ht => rw [ht] at hn; simp at hn
  | _ => simp [State.withCodes, State.setSession, State.clearBits] at hn

/-- An effect leaves the arena and its registers, or commits a good tree and sends the walker home (R112, R157). -/
theorem effect_tree {i : Instr} {s t : State} (h : Effect i s t) :
    (t.node = s.node ∧ t.treeValid = s.treeValid ∧ t.root = s.root ∧ t.nodeCnt = s.nodeCnt) ∨
      (GoodTree t.node t.nodeCnt.toNat t.root ∧ t.wState = .atRoot ∧ t.wCur = Config.nil) := by
  by_cases h1 : t.node = s.node ∧ t.treeValid = s.treeValid ∧ t.root = s.root ∧ t.nodeCnt = s.nodeCnt
  · exact .inl h1
  · exact .inr (effect_newTree h (by tauto))

end Sys2Proof.Machine
end

