-- ==== Sys2Proof/Laws/Canonical.lean ====
section
/-! SUPPORT. Every operation that writes a table keeps its canonical form (log 12), and loaded codes have the lengths they are
stored with. -/

namespace Sys2Proof.Machine

/-- A property that looks at no response and no error register survives every answer. -/
theorem Answerable.always {P : State → Prop}
    (h : ∀ (s : State) rc rd e ec, P s → P { s with rspCode := rc, rspData := rd, err := e, errCmd := ec }) : Answerable P :=
  Answerable.of fun s rc rd e ec hs _ => h s rc rd e ec hs

/-! ### The arena -/

theorem attach_wf {t : Table Node} {cnt : Nat} {i : NodeIx} (x : Bool) (r : Node) (h : Table.wf 511 Node.blank t = true)
    (hc : cnt < 511) (hi : i.toNat < 511) : Table.wf 511 Node.blank (attach t cnt i x r) = true :=
  table_set_wf (table_set_wf h hc _) hi _

theorem insertCode_wf {sym : Byte} {c : Bits} {i : NodeIx} {t t' : Table Node} {cnt cnt' : Nat}
    (h : Table.wf 511 Node.blank t = true) (hc : cnt ≤ 511) (hi : i.toNat < 511) (hx : insertCode sym c i t cnt = some (t', cnt')) :
    Table.wf 511 Node.blank t' = true ∧ cnt' ≤ 511 := by
  induction c generalizing i t cnt with
  | nil => simp [insertCode] at hx
  | cons x c ih =>
    cases c with
    | nil =>
      simp only [insertCode] at hx
      split at hx
      · simp at hx
      split at hx
      · simp at hx
      rename_i hn
      simp only [Option.some.injEq, Prod.mk.injEq] at hx
      obtain ⟨rfl, rfl⟩ := hx
      have : cnt ≠ 511 := hn
      exact ⟨attach_wf _ _ h (by omega) hi, by omega⟩
    | cons y c =>
      simp only [insertCode] at hx
      split at hx
      · split at hx
        · simp at hx
        rename_i hn
        have : cnt ≠ 511 := hn
        exact ih (attach_wf _ _ h (by omega) hi) (by omega) (by simp; omega) hx
      · rename_i hb
        split at hx
        · simp at hx
        refine ih h hc ?_ hx
        have := ((arenaAt t i).branch x).isLt
        have : ((arenaAt t i).branch x).toNat ≠ 511 := fun h => hb (BitVec.eq_of_toNat_eq h)
        omega

theorem reconstructFrom_wf {es : List (Byte × Bits)} {e : Nat} {seen : List Byte} {t t' : Table Node} {cnt cnt' : Nat}
    (h : Table.wf 511 Node.blank t = true) (hc : cnt ≤ 511) (hx : reconstructFrom es e seen t cnt = .ok (t', cnt')) :
    Table.wf 511 Node.blank t' = true := by
  induction es generalizing e seen t cnt with
  | nil => simp only [reconstructFrom, Except.ok.injEq, Prod.mk.injEq] at hx; obtain ⟨rfl, rfl⟩ := hx; exact h
  | cons a es ih =>
    obtain ⟨sym, c⟩ := a
    simp only [reconstructFrom] at hx
    split at hx
    · simp at hx
    split at hx
    · simp at hx
    rename_i t1 cnt1 hi
    obtain ⟨h1, h2⟩ := insertCode_wf h hc (by decide) hi
    exact ih h1 h2 hx

theorem mergeAll_wf {n total : Nat} {leaf : Nat → Node} (fuel : Nat) {q : List (Nat × Nat)} {next : Nat} {t : Table Node}
    {rank : Nat → Nat} (h : Forest n total leaf q next t rank) (hw : Table.wf 511 Node.blank t = true) :
    Table.wf 511 Node.blank (mergeAll fuel q next t).1 = true := by
  induction fuel generalizing q next t rank with
  | zero => exact hw
  | succ fuel ih =>
    match q, h.left with
    | [e], _ => exact hw
    | x :: y :: q, _ =>
      have h1 := h.count
      have h2 := h.size
      simp only [List.length_cons] at h1
      exact ih h.round (table_set_wf hw (by omega) _)

theorem placeLeaves_wf {ks : List (Nat × Nat)} {i : Nat} {t : Table Node} (hw : Table.wf 511 Node.blank t = true)
    (h : i + ks.length ≤ 511) : Table.wf 511 Node.blank (placeLeaves ks i t) = true := by
  induction ks generalizing i t with
  | nil => exact hw
  | cons k ks ih =>
    simp only [List.length_cons] at h
    exact ih (table_set_wf hw (by omega) _) (by omega)

theorem buildTree_wf {freq : Table Word} {b : Built} (h : buildTree (sortedKeys freq) = some b) :
    Table.wf 511 Node.blank b.arena = true := by
  have hl := sortedKeys_length freq
  unfold buildTree at h
  split at h
  · simp at h
  · cases h
    have h0 : Table.wf 511 Node.blank [] = true := rfl
    simp only [buildDegenerate]
    exact table_set_wf (table_set_wf (table_set_wf h0 (i := 0) (by omega) _) (i := 1) (by omega) _) (i := 2) (by omega) _
  · rename_i k k' rest hk
    cases h
    rw [hk] at hl
    exact mergeAll_wf _ (Forest.start (by simp) hl) (placeLeaves_wf rfl (by omega))

/-! ### The code table -/

/-- Both tables of a code table are canonical. -/
def CodeTable.Canonical (c : CodeTable) : Prop := Table.wf 256 0#8 c.len = true ∧ Table.wf 256 [] c.bits = true

theorem put_canonical {c : CodeTable} (h : c.Canonical) (sym : Byte) (p : Bits) : (c.put sym p).Canonical :=
  ⟨table_set_wf h.1 sym.isLt _, table_set_wf h.2 sym.isLt _⟩

theorem visit_canonical {arena : Table Node} {fuel : Nat} {i : NodeIx} {p : Bits} {t t' : CodeTable}
    (h : visit arena fuel i p t = .ok t') (hw : t.Canonical) : t'.Canonical := by
  induction fuel generalizing i p t t' with
  | zero => simp [visit] at h
  | succ fuel ih =>
    unfold visit at h
    split at h
    · simp at h
    split at h
    · split at h
      · simp at h
      rename_i t0 hz
      have h0 : t0.Canonical := by
        split at hz
        · cases hz; exact hw
        · exact ih hz hw
      split at h
      · cases h; exact h0
      · exact ih h h0
    · cases h; exact put_canonical hw _ _
    · cases h; exact hw
    · cases h; exact hw

theorem codesFold_canonical (es : List (Byte × Bits)) {t : CodeTable} (h : t.Canonical) :
    (es.foldl (fun t e => t.put e.1 e.2) t).Canonical := by
  induction es generalizing t with
  | nil => exact h
  | cons e es ih => exact ih (put_canonical h _ _)

theorem codesOf_canonical (es : List (Byte × Bits)) : (codesOf es).Canonical := codesFold_canonical es ⟨rfl, rfl⟩

theorem codesFold_lengths {es : List (Byte × Bits)} {t : CodeTable} {sym : Byte} (hl : ∀ e ∈ es, e.2.length ≤ 255)
    (h : (Table.get [] t.bits sym.toNat).length = (Table.get 0#8 t.len sym.toNat).toNat) :
    (Table.get [] (es.foldl (fun t e => t.put e.1 e.2) t).bits sym.toNat).length =
      (Table.get 0#8 (es.foldl (fun t e => t.put e.1 e.2) t).len sym.toNat).toNat := by
  induction es generalizing t with
  | nil => exact h
  | cons e es ih =>
    refine ih (fun e he => hl e (by simp [he])) ?_
    have := hl e (by simp)
    simp only [CodeTable.put, table_get_set]
    split
    · simp; omega
    · exact h

theorem codesOf_lengths (es : List (Byte × Bits)) (h : ∀ e ∈ es, e.2.length ≤ 255) (sym : Byte) :
    (Table.get [] (codesOf es).bits sym.toNat).length = (Table.get 0#8 (codesOf es).len sym.toNat).toNat :=
  codesFold_lengths (t := CodeTable.clear) h rfl

end Sys2Proof.Machine
end

