-- ==== Sys2Proof/Laws/Encoding.lean ====
section
/-! SUPPORT. What the eight formats' words hold: the opcode, zeros in the reserved bits, and each field (30_encoding.md R71). -/

namespace Sys2Proof

/-- Two words are equal when their bits are. -/
theorem word_ext {a b : Word} (h : ∀ i, i < 32 → a.getLsbD i = b.getLsbD i) : a = b := BitVec.eq_of_getLsbD_eq fun i hi => h i hi

/-! ### Format N -/

@[simp] theorem opcodeOf_encN (op : Byte) : opcodeOf (encN op) = op := by
  apply BitVec.eq_of_getLsbD_eq
  intro i hi
  interval_cases i <;> simp [opcodeOf, encN]

@[simp] theorem reserved_encN (op : Byte) : encN op &&& Format.N.reserved = 0#32 := by
  apply word_ext
  intro i hi
  interval_cases i <;> simp [Format.reserved, encN]

theorem mask_encN (op : Byte) : encN op &&& Format.N.mask = op.setWidth 32 <<< 24 := by
  apply word_ext
  intro i hi
  interval_cases i <;> simp [Format.mask, Format.reserved, encN]

/-! ### Format S -/

@[simp] theorem opcodeOf_encS (op : Byte) (sym : Byte) : opcodeOf (encS op sym) = op := by
  apply BitVec.eq_of_getLsbD_eq
  intro i hi
  interval_cases i <;> simp [opcodeOf, encS]

@[simp] theorem reserved_encS (op : Byte) (sym : Byte) : encS op sym &&& Format.S.reserved = 0#32 := by
  apply word_ext
  intro i hi
  interval_cases i <;> simp [Format.reserved, encS]

theorem mask_encS (op : Byte) (sym : Byte) : encS op sym &&& Format.S.mask = op.setWidth 32 <<< 24 := by
  apply word_ext
  intro i hi
  interval_cases i <;> simp [Format.mask, Format.reserved, encS]

@[simp] theorem symOf_encS (op : Byte) (sym : Byte) : symOf (encS op sym) = sym := by
  apply BitVec.eq_of_getLsbD_eq
  intro i hi
  interval_cases i <;> simp [symOf, encS]

/-! ### Format SW -/

@[simp] theorem opcodeOf_encSW (op : Byte) (w : BitVec 3) (sym : Byte) : opcodeOf (encSW op w sym) = op := by
  apply BitVec.eq_of_getLsbD_eq
  intro i hi
  interval_cases i <;> simp [opcodeOf, encSW]

@[simp] theorem reserved_encSW (op : Byte) (w : BitVec 3) (sym : Byte) : encSW op w sym &&& Format.SW.reserved = 0#32 := by
  apply word_ext
  intro i hi
  interval_cases i <;> simp [Format.reserved, encSW]

theorem mask_encSW (op : Byte) (w : BitVec 3) (sym : Byte) : encSW op w sym &&& Format.SW.mask = op.setWidth 32 <<< 24 := by
  apply word_ext
  intro i hi
  interval_cases i <;> simp [Format.mask, Format.reserved, encSW]

@[simp] theorem symOf_encSW (op : Byte) (w : BitVec 3) (sym : Byte) : symOf (encSW op w sym) = sym := by
  apply BitVec.eq_of_getLsbD_eq
  intro i hi
  interval_cases i <;> simp [symOf, encSW]

@[simp] theorem codeWordOf_encSW (op : Byte) (w : BitVec 3) (sym : Byte) : codeWordOf (encSW op w sym) = w := by
  apply BitVec.eq_of_getLsbD_eq
  intro i hi
  interval_cases i <;> simp [codeWordOf, encSW]

/-! ### Format I9 -/

@[simp] theorem opcodeOf_encI9 (op : Byte) (idx : NodeIx) : opcodeOf (encI9 op idx) = op := by
  apply BitVec.eq_of_getLsbD_eq
  intro i hi
  interval_cases i <;> simp [opcodeOf, encI9]

@[simp] theorem reserved_encI9 (op : Byte) (idx : NodeIx) : encI9 op idx &&& Format.I9.reserved = 0#32 := by
  apply word_ext
  intro i hi
  interval_cases i <;> simp [Format.reserved, encI9]

theorem mask_encI9 (op : Byte) (idx : NodeIx) : encI9 op idx &&& Format.I9.mask = op.setWidth 32 <<< 24 := by
  apply word_ext
  intro i hi
  interval_cases i <;> simp [Format.mask, Format.reserved, encI9]

@[simp] theorem idx9Of_encI9 (op : Byte) (idx : NodeIx) : idx9Of (encI9 op idx) = idx := by
  apply BitVec.eq_of_getLsbD_eq
  intro i hi
  interval_cases i <;> simp [idx9Of, encI9]

/-! ### Format I9H -/

@[simp] theorem opcodeOf_encI9H (op : Byte) (h : Bool) (idx : NodeIx) : opcodeOf (encI9H op h idx) = op := by
  apply BitVec.eq_of_getLsbD_eq
  intro i hi
  interval_cases i <;> simp [opcodeOf, encI9H]

@[simp] theorem reserved_encI9H (op : Byte) (h : Bool) (idx : NodeIx) : encI9H op h idx &&& Format.I9H.reserved = 0#32 := by
  apply word_ext
  intro i hi
  interval_cases i <;> simp [Format.reserved, encI9H]

theorem mask_encI9H (op : Byte) (h : Bool) (idx : NodeIx) : encI9H op h idx &&& Format.I9H.mask = op.setWidth 32 <<< 24 := by
  apply word_ext
  intro i hi
  interval_cases i <;> simp [Format.mask, Format.reserved, encI9H]

@[simp] theorem idx9Of_encI9H (op : Byte) (h : Bool) (idx : NodeIx) : idx9Of (encI9H op h idx) = idx := by
  apply BitVec.eq_of_getLsbD_eq
  intro i hi
  interval_cases i <;> simp [idx9Of, encI9H]

@[simp] theorem halfOf_encI9H (op : Byte) (h : Bool) (idx : NodeIx) : halfOf (encI9H op h idx) = h := by
  cases h <;> simp [halfOf, encI9H]

/-! ### Format I16 -/

@[simp] theorem opcodeOf_encI16 (op : Byte) (idx : BitVec 16) : opcodeOf (encI16 op idx) = op := by
  apply BitVec.eq_of_getLsbD_eq
  intro i hi
  interval_cases i <;> simp [opcodeOf, encI16]

@[simp] theorem reserved_encI16 (op : Byte) (idx : BitVec 16) : encI16 op idx &&& Format.I16.reserved = 0#32 := by
  apply word_ext
  intro i hi
  interval_cases i <;> simp [Format.reserved, encI16]

theorem mask_encI16 (op : Byte) (idx : BitVec 16) : encI16 op idx &&& Format.I16.mask = op.setWidth 32 <<< 24 := by
  apply word_ext
  intro i hi
  interval_cases i <;> simp [Format.mask, Format.reserved, encI16]

@[simp] theorem idx16Of_encI16 (op : Byte) (idx : BitVec 16) : idx16Of (encI16 op idx) = idx := by
  apply BitVec.eq_of_getLsbD_eq
  intro i hi
  interval_cases i <;> simp [idx16Of, encI16]

/-! ### Format B -/

@[simp] theorem opcodeOf_encB (op : Byte) (n : BitVec 5) (v : BitVec 16) : opcodeOf (encB op n v) = op := by
  apply BitVec.eq_of_getLsbD_eq
  intro i hi
  interval_cases i <;> simp [opcodeOf, encB]

@[simp] theorem reserved_encB (op : Byte) (n : BitVec 5) (v : BitVec 16) : encB op n v &&& Format.B.reserved = 0#32 := by
  apply word_ext
  intro i hi
  interval_cases i <;> simp [Format.reserved, encB]

theorem mask_encB (op : Byte) (n : BitVec 5) (v : BitVec 16) : encB op n v &&& Format.B.mask = op.setWidth 32 <<< 24 := by
  apply word_ext
  intro i hi
  interval_cases i <;> simp [Format.mask, Format.reserved, encB]

@[simp] theorem countOf_encB (op : Byte) (n : BitVec 5) (v : BitVec 16) : countOf (encB op n v) = n := by
  apply BitVec.eq_of_getLsbD_eq
  intro i hi
  interval_cases i <;> simp [countOf, encB]

@[simp] theorem valueOf_encB (op : Byte) (n : BitVec 5) (v : BitVec 16) : valueOf (encB op n v) = v := by
  apply BitVec.eq_of_getLsbD_eq
  intro i hi
  interval_cases i <;> simp [valueOf, encB]

/-! ### Format W -/

@[simp] theorem opcodeOf_encW (op : Byte) (b : Bool) : opcodeOf (encW op b) = op := by
  apply BitVec.eq_of_getLsbD_eq
  intro i hi
  interval_cases i <;> simp [opcodeOf, encW]

@[simp] theorem reserved_encW (op : Byte) (b : Bool) : encW op b &&& Format.W.reserved = 0#32 := by
  apply word_ext
  intro i hi
  interval_cases i <;> simp [Format.reserved, encW]

theorem mask_encW (op : Byte) (b : Bool) : encW op b &&& Format.W.mask = op.setWidth 32 <<< 24 := by
  apply word_ext
  intro i hi
  interval_cases i <;> simp [Format.mask, Format.reserved, encW]

@[simp] theorem bitOf_encW (op : Byte) (b : Bool) : bitOf (encW op b) = b := by
  cases b <;> simp [bitOf, encW]

/-! ### The other way: a word rebuilt from its parts -/

/-- A word's upper byte is its opcode field (R70). -/
theorem opcode_mask (w : Word) (op : Byte) : w &&& 0xFF000000#32 = op.setWidth 32 <<< 24 ↔ opcodeOf w = op := by
  constructor
  · intro h
    apply BitVec.eq_of_getLsbD_eq
    intro i hi
    have := congrArg (fun y => y.getLsbD (24 + i)) h
    interval_cases i <;> simpa [opcodeOf] using this
  · rintro rfl
    apply word_ext
    intro i hi
    interval_cases i <;> simp [opcodeOf]

/-- The mask test of R79 is the opcode test and the reserved-bits test (R76, R77). -/
theorem mask_test (w : Word) (f : Format) (op : Byte) :
    w &&& f.mask = op.setWidth 32 <<< 24 ↔ opcodeOf w = op ∧ w &&& f.reserved = 0#32 := by
  have hr : f.reserved &&& 0xFF000000#32 = 0#32 := by cases f <;> decide
  have hs : f.mask &&& f.reserved = f.reserved := by cases f <;> decide
  have ho : f.mask &&& 0xFF000000#32 = 0xFF000000#32 := by cases f <;> decide
  have hk : (op.setWidth 32 <<< 24 : Word) &&& 0xFF000000#32 = op.setWidth 32 <<< 24 := by
    apply word_ext; intro i hi; interval_cases i <;> simp
  have hp : (op.setWidth 32 <<< 24 : Word) &&& f.reserved = 0#32 := by
    rw [← hk, BitVec.and_assoc, BitVec.and_comm _ f.reserved, hr]; simp
  rw [← opcode_mask]
  constructor
  · intro h
    constructor
    · have := congrArg (· &&& 0xFF000000#32) h
      simpa only [BitVec.and_assoc, ho, hk] using this
    · have := congrArg (· &&& f.reserved) h
      simpa only [BitVec.and_assoc, hs, hp] using this
  · rintro ⟨h1, h2⟩
    have : f.mask = 0xFF000000#32 ||| f.reserved := rfl
    rw [this, BitVec.and_or_distrib_left, h1, h2]; simp

/-- Two words with one opcode, the same reserved bits and the same other bits are equal. -/
theorem word_rebuild {w x : Word} (m : Word) (h1 : opcodeOf w = opcodeOf x) (hm : w &&& m = x &&& m)
    (h2 : ∀ i, i < 24 → m.getLsbD i = false → w.getLsbD i = x.getLsbD i) : w = x := by
  apply word_ext
  intro i hi
  by_cases h : i < 24
  · by_cases hb : m.getLsbD i = true
    · have := congrArg (fun y => y.getLsbD i) hm
      simpa [hb] using this
    · exact h2 i h (by simpa using hb)
  · have := congrArg (fun y => y.getLsbD (i - 24)) h1
    have h8 : i - 24 < 8 := by omega
    simpa only [opcodeOf, BitVec.getLsbD_extractLsb', h8, decide_true, Bool.true_and, show 24 + (i - 24) = i by omega] using this

/-- What a checked word has passed (R77). -/
theorem checked_ok {f : Format} {w : Word} {i j : Instr} (h : checked f w i = .ok j) : i = j ∧ w &&& f.reserved = 0#32 := by
  unfold checked at h
  split at h
  · simp_all
  · simp at h

/-- What a BP_INS word has passed (R77, R78). -/
theorem checkedBpIns_ok {w : Word} {j : Instr} (h : checkedBpIns w = .ok j) :
    j = .bpIns (countOf w) (valueOf w) ∧ w &&& Format.B.reserved = 0#32 ∧ j.wellFormed = true := by
  unfold checkedBpIns at h
  split at h
  · simp at h
  split at h
  · simp at h
  split at h
  · simp at h
  simp_all
  rw [← h]
  simp_all [Instr.wellFormed]

theorem encN_rebuild {w : Word} {op : Byte} (h1 : opcodeOf w = op) (h2 : w &&& Format.N.reserved = 0#32) :
    encN op = w := by
  refine word_rebuild Format.N.reserved (by simp [h1]) (by simp [h2]) ?_
  intro i hi
  interval_cases i <;> simp [Format.reserved]

theorem encS_rebuild {w : Word} {op : Byte} (h1 : opcodeOf w = op) (h2 : w &&& Format.S.reserved = 0#32) :
    encS op (symOf w) = w := by
  refine word_rebuild Format.S.reserved (by simp [h1]) (by simp [h2]) ?_
  intro i hi
  interval_cases i <;> simp [Format.reserved, encS, symOf]

theorem encSW_rebuild {w : Word} {op : Byte} (h1 : opcodeOf w = op) (h2 : w &&& Format.SW.reserved = 0#32) :
    encSW op (codeWordOf w) (symOf w) = w := by
  refine word_rebuild Format.SW.reserved (by simp [h1]) (by simp [h2]) ?_
  intro i hi
  interval_cases i <;> simp [Format.reserved, encSW, symOf, codeWordOf]

theorem encI9_rebuild {w : Word} {op : Byte} (h1 : opcodeOf w = op) (h2 : w &&& Format.I9.reserved = 0#32) :
    encI9 op (idx9Of w) = w := by
  refine word_rebuild Format.I9.reserved (by simp [h1]) (by simp [h2]) ?_
  intro i hi
  interval_cases i <;> simp [Format.reserved, encI9, idx9Of]

theorem encI9H_rebuild {w : Word} {op : Byte} (h1 : opcodeOf w = op) (h2 : w &&& Format.I9H.reserved = 0#32) :
    encI9H op (halfOf w) (idx9Of w) = w := by
  refine word_rebuild Format.I9H.reserved (by simp [h1]) (by simp [h2]) ?_
  intro i hi
  interval_cases i <;> simp [Format.reserved, encI9H, idx9Of, halfOf]

theorem encI16_rebuild {w : Word} {op : Byte} (h1 : opcodeOf w = op) (h2 : w &&& Format.I16.reserved = 0#32) :
    encI16 op (idx16Of w) = w := by
  refine word_rebuild Format.I16.reserved (by simp [h1]) (by simp [h2]) ?_
  intro i hi
  interval_cases i <;> simp [Format.reserved, encI16, idx16Of]

theorem encB_rebuild {w : Word} {op : Byte} (h1 : opcodeOf w = op) (h2 : w &&& Format.B.reserved = 0#32) :
    encB op (countOf w) (valueOf w) = w := by
  refine word_rebuild Format.B.reserved (by simp [h1]) (by simp [h2]) ?_
  intro i hi
  interval_cases i <;> simp [Format.reserved, encB, countOf, valueOf]

theorem encW_rebuild {w : Word} {op : Byte} (h1 : opcodeOf w = op) (h2 : w &&& Format.W.reserved = 0#32) :
    encW op (bitOf w) = w := by
  refine word_rebuild Format.W.reserved (by simp [h1]) (by simp [h2]) ?_
  intro i hi
  interval_cases i <;> simp [Format.reserved, encW, bitOf]

end Sys2Proof
end

