-- ==== Sys2Proof/Laws/Paths.lean ====
section
/-! SUPPORT. The paths of an arena: the code table that GenCodes answers is exactly the paths from the root to the leaves, whatever
the arena; in an unshared one each record has one path. -/

namespace Sys2Proof.Machine

/-! ### Tables in canonical form -/

theorem table_get_lt {α : Type} {d : α} {t : Table α} {i : Nat} (h : ∀ e ∈ t, i < e.1) : Table.get d t i = d := by
  induction t with
  | nil => rfl
  | cons e t ih =>
    have h1 := h e (by simp)
    rw [Table.get, if_neg (by omega)]
    exact ih fun f hf => h f (by simp [hf])

/-- An index at or past the size is not listed. -/
theorem table_get_out {α : Type} [DecidableEq α] {size : Nat} {d : α} {t : Table α} {i : Nat} (h : Table.wf size d t = true)
    (hi : size ≤ i) : Table.get d t i = d := by
  simp only [Table.wf, Bool.and_eq_true, List.all_eq_true, decide_eq_true_eq] at h
  replace h := h.2
  induction t with
  | nil => rfl
  | cons e t ih =>
    have := (h e (by simp)).1
    rw [Table.get, if_neg (by omega)]
    exact ih fun f hf => h f (by simp [hf])

/-- Canonical tables with equal entries are equal data (log 12). -/
theorem table_ext {α : Type} [DecidableEq α] {size : Nat} {d : α} {t u : Table α} (ht : Table.wf size d t = true)
    (hu : Table.wf size d u = true) (h : ∀ i, Table.get d t i = Table.get d u i) : t = u := by
  simp only [Table.wf, Bool.and_eq_true, table_rising_iff, List.all_eq_true, decide_eq_true_eq] at ht hu
  obtain ⟨ht, ht'⟩ := ht
  obtain ⟨hu, hu'⟩ := hu
  induction t generalizing u with
  | nil =>
    cases u with
    | nil => rfl
    | cons f u =>
      have := h f.1
      simp only [Table.get, if_true] at this
      exact absurd this.symm (hu' f (by simp)).2
  | cons e t ih =>
    obtain ⟨k, v⟩ := e
    obtain ⟨h1, h2⟩ := List.pairwise_cons.1 ht
    cases u with
    | nil =>
      have := h k
      simp only [Table.get, if_true] at this
      exact absurd this (ht' (k, v) (by simp)).2
    | cons f u =>
      obtain ⟨k', v'⟩ := f
      obtain ⟨h3, h4⟩ := List.pairwise_cons.1 hu
      have e1 : Table.get d ((k, v) :: t) k = v := by simp [Table.get]
      have e2 : Table.get d ((k', v') :: u) k' = v' := by simp [Table.get]
      have hv : v ≠ d := (ht' (k, v) (by simp)).2
      have hv' : v' ≠ d := (hu' (k', v') (by simp)).2
      have hk : k = k' := by
        rcases Nat.lt_trichotomy k k' with hlt | he | hlt
        · have := table_get_lt (d := d) (t := (k', v') :: u) (i := k)
            (by rintro e he; rcases List.mem_cons.1 he with rfl | he; · exact hlt
                exact hlt.trans (h3 e he))
          rw [← h k, e1] at this; exact absurd this hv
        · exact he
        · have := table_get_lt (d := d) (t := (k, v) :: t) (i := k')
            (by rintro e he; rcases List.mem_cons.1 he with rfl | he; · exact hlt
                exact hlt.trans (h1 e he))
          rw [h k', e2] at this; exact absurd this hv'
      subst hk
      have hvv : v = v' := by rw [← e1, h k, e2]
      subst hvv
      congr 1
      refine ih (fun i => ?_) h2 (fun e he => ht' e (by simp [he])) h4 (fun e he => hu' e (by simp [he]))
      by_cases hi : i = k
      · subst hi; rw [table_get_lt h1, table_get_lt h3]
      · have := h i; simpa [Table.get, Ne.symm hi] using this

/-! ### Paths -/

theorem follow_append (arena : Table Node) (i : NodeIx) (p q : Bits) :
    follow arena i (p ++ q) = (follow arena i p).bind fun j => follow arena j q := by
  induction p generalizing i with
  | nil => rfl
  | cons x p ih =>
    simp only [List.cons_append, follow]
    split
    · rfl
    · split
      · exact ih _
      · rfl

/-- One more step of a path (R130). -/
theorem follow_snoc {arena : Table Node} {i j : NodeIx} {p : Bits} {x : Bool} :
    follow arena i (p ++ [x]) = some j ↔
      ∃ k, follow arena i p = some k ∧ k ≠ Config.nil ∧ (arenaAt arena k).kind = .internal ∧ (arenaAt arena k).branch x = j := by
  rw [follow_append]
  cases h : follow arena i p with
  | none => simp
  | some k =>
    simp only [Option.bind_some, follow, Option.some.injEq, exists_eq_left']
    split
    · simp_all
    · split <;> simp_all

/-- A path ends at a leaf of a symbol (R130). -/
def LeafAt (arena : Table Node) (i : NodeIx) (p : Bits) (sym : Byte) : Prop :=
  ∃ j, follow arena i p = some j ∧ j ≠ Config.nil ∧ (arenaAt arena j).kind = .leaf ∧ (arenaAt arena j).sym = sym

/-- A path ends at a record. -/
def NodeAt (arena : Table Node) (i : NodeIx) (p : Bits) : Prop := ∃ j, follow arena i p = some j ∧ j ≠ Config.nil

theorem leafAt_nil {arena : Table Node} {i : NodeIx} {sym : Byte} :
    LeafAt arena i [] sym ↔ i ≠ Config.nil ∧ (arenaAt arena i).kind = .leaf ∧ (arenaAt arena i).sym = sym := by
  simp [LeafAt, follow]

theorem leafAt_cons {arena : Table Node} {i : NodeIx} {x : Bool} {p : Bits} {sym : Byte} :
    LeafAt arena i (x :: p) sym ↔ i ≠ Config.nil ∧ (arenaAt arena i).kind = .internal ∧ LeafAt arena ((arenaAt arena i).branch x) p sym := by
  simp only [LeafAt, follow]
  split
  · simp_all
  · split <;> simp_all

theorem not_leafAt_nil (arena : Table Node) (p : Bits) (sym : Byte) : ¬ LeafAt arena Config.nil p sym := by
  cases p with
  | nil => simp [leafAt_nil]
  | cons x p => simp [leafAt_cons]

/-- No leaf lies above a record (R134). -/
theorem LeafAt.maximal {arena : Table Node} {i j : NodeIx} {p q : Bits} {sym : Byte} (h : LeafAt arena i p sym)
    (hq : follow arena i q = some j) (hp : p <+: q) : p = q := by
  obtain ⟨r, rfl⟩ := hp
  obtain ⟨k, h1, _, h2, _⟩ := h
  rw [follow_append, h1] at hq
  cases r with
  | nil => simp
  | cons x r => simp [follow, h2] at hq

/-- A path has one leaf. -/
theorem LeafAt.sym_eq {arena : Table Node} {i : NodeIx} {p : Bits} {a b : Byte} (h : LeafAt arena i p a) (h' : LeafAt arena i p b) :
    a = b := by
  obtain ⟨k, h1, _, _, h2⟩ := h
  obtain ⟨l, h3, _, _, h4⟩ := h'
  rw [h1] at h3
  cases h3
  exact h2.symm.trans h4

/-! ### The code table of a walk -/

/-- The entries that Visit puts, in its order (R130). -/
def leafPaths (arena : Table Node) : Nat → NodeIx → Bits → List (Byte × Bits)
  | 0, _, _ => []
  | fuel + 1, i, p =>
    match (arenaAt arena i).kind with
    | .internal =>
      (if (arenaAt arena i).zero = Config.nil then [] else leafPaths arena fuel (arenaAt arena i).zero (p ++ [false])) ++
        (if (arenaAt arena i).one = Config.nil then [] else leafPaths arena fuel (arenaAt arena i).one (p ++ [true]))
    | .leaf => [((arenaAt arena i).sym, p)]
    | .placeholder => []
    | .empty => []

/-- A walk that ends has put its entries, and every path from its record is shorter than its fuel (R130). -/
theorem visit_eq {arena : Table Node} {fuel : Nat} {i : NodeIx} {p : Bits} {t t' : CodeTable} (h : visit arena fuel i p t = .ok t') :
    i ≠ Config.nil ∧ t' = (leafPaths arena fuel i p).foldl (fun t e => t.put e.1 e.2) t ∧
      (∀ q, NodeAt arena i q → q.length < fuel) ∧
      ∀ sym r, (sym, r) ∈ leafPaths arena fuel i p ↔ ∃ q, r = p ++ q ∧ LeafAt arena i q sym := by
  induction fuel generalizing i p t t' with
  | zero => simp [visit] at h
  | succ fuel ih =>
    unfold visit at h
    split at h
    · simp at h
    rename_i hi
    have hflat : (arenaAt arena i).kind ≠ .internal → (∀ q, NodeAt arena i q → q.length < fuel + 1) ∧
        ∀ q sym, LeafAt arena i q sym → q = [] := by
      intro hk
      refine ⟨?_, ?_⟩
      · rintro q ⟨j, hq, _⟩
        cases q with
        | nil => simp
        | cons x q => simp [follow, hi, hk] at hq
      · intro q sym hq
        cases q with
        | nil => rfl
        | cons x q => exact absurd (leafAt_cons.1 hq).2.1 hk
    have hnone : (arenaAt arena i).kind ≠ .internal → (arenaAt arena i).kind ≠ .leaf → ∀ (sym : Byte) (r : Bits),
        (sym, r) ∈ ([] : List (Byte × Bits)) ↔ ∃ q, r = p ++ q ∧ LeafAt arena i q sym := by
      intro hk hl sym r
      simp only [List.not_mem_nil, false_iff, not_exists, not_and]
      intro q _ hq
      have := (hflat hk).2 q sym hq
      subst this
      exact hl (leafAt_nil.1 hq).2.1
    refine ⟨hi, ?_⟩
    cases hk : (arenaAt arena i).kind with
    | placeholder =>
      simp only [hk] at h; cases h
      simp only [leafPaths, hk]
      exact ⟨rfl, (hflat (by simp [hk])).1, hnone (by simp [hk]) (by simp [hk])⟩
    | empty =>
      simp only [hk] at h; cases h
      simp only [leafPaths, hk]
      exact ⟨rfl, (hflat (by simp [hk])).1, hnone (by simp [hk]) (by simp [hk])⟩
    | leaf =>
      simp only [hk] at h; cases h
      simp only [leafPaths, hk, List.foldl_cons, List.foldl_nil, List.mem_singleton, Prod.mk.injEq, true_and]
      refine ⟨(hflat (by simp [hk])).1, fun sym r => ⟨?_, ?_⟩⟩
      · rintro ⟨rfl, rfl⟩
        exact ⟨[], by simp, leafAt_nil.2 ⟨hi, hk, rfl⟩⟩
      · rintro ⟨q, rfl, hq⟩
        have := (hflat (by simp [hk])).2 q sym hq
        subst this
        exact ⟨(leafAt_nil.1 hq).2.2.symm, by simp⟩
    | internal =>
      simp only [hk] at h
      split at h
      · simp at h
      rename_i t0 hz
      -- what each branch contributes
      have branch : ∀ (x : Bool) (u u' : CodeTable),
          (if (arenaAt arena i).branch x = Config.nil then Except.ok u
            else visit arena fuel ((arenaAt arena i).branch x) (p ++ [x]) u) = .ok u' →
          u' = (if (arenaAt arena i).branch x = Config.nil then []
              else leafPaths arena fuel ((arenaAt arena i).branch x) (p ++ [x])).foldl (fun t e => t.put e.1 e.2) u ∧
            (∀ q, NodeAt arena i (x :: q) → q.length < fuel) ∧
            ∀ sym r, (sym, r) ∈ (if (arenaAt arena i).branch x = Config.nil then []
              else leafPaths arena fuel ((arenaAt arena i).branch x) (p ++ [x])) ↔ ∃ q, r = p ++ x :: q ∧ LeafAt arena i (x :: q) sym := by
        intro x u u' hu
        have hfol : ∀ q, follow arena i (x :: q) = follow arena ((arenaAt arena i).branch x) q := by
          intro q; simp [follow, hi, hk]
        split at hu
        · rename_i hn
          cases hu
          rw [if_pos hn]
          refine ⟨rfl, ?_, ?_⟩
          · rintro q ⟨j, hq, hj⟩
            rw [hfol, hn] at hq
            cases q with
            | nil => simp [follow] at hq; exact absurd hq.symm hj
            | cons y q => simp [follow] at hq
          · intro sym r
            simp only [List.not_mem_nil, false_iff, not_exists, not_and]
            intro q _ hq
            rw [leafAt_cons, hn] at hq
            exact not_leafAt_nil _ _ _ hq.2.2
        · rename_i hn
          rw [if_neg hn]
          obtain ⟨_, h1, h2, h3⟩ := ih hu
          refine ⟨h1, ?_, ?_⟩
          · rintro q ⟨j, hq, hj⟩
            exact h2 q ⟨j, by rw [← hfol]; exact hq, hj⟩
          · intro sym r
            rw [h3]
            refine exists_congr fun q => ?_
            rw [leafAt_cons]
            simp [hi, hk]
      obtain ⟨z1, z2, z3⟩ := branch false t t0 hz
      obtain ⟨o1, o2, o3⟩ := branch true t0 t' h
      have hlp : leafPaths arena (fuel + 1) i p =
          (if (arenaAt arena i).branch false = Config.nil then [] else leafPaths arena fuel ((arenaAt arena i).branch false) (p ++ [false])) ++
            (if (arenaAt arena i).branch true = Config.nil then [] else leafPaths arena fuel ((arenaAt arena i).branch true) (p ++ [true])) := by
        simp only [leafPaths, hk, Node.branch, Bool.false_eq_true, if_false, if_true]
      rw [hlp]
      refine ⟨by rw [List.foldl_append, ← z1, ← o1], ?_, ?_⟩
      · intro q hq
        match q with
        | [] => simp
        | false :: q => have := z2 q hq; simp only [List.length_cons]; omega
        | true :: q => have := o2 q hq; simp only [List.length_cons]; omega
      · intro sym r
        rw [List.mem_append, z3, o3]
        constructor
        · rintro (⟨q, rfl, hq⟩ | ⟨q, rfl, hq⟩) <;> exact ⟨_, rfl, hq⟩
        · rintro ⟨q, rfl, hq⟩
          match q with
          | [] => exact absurd (leafAt_nil.1 hq).2.1 (by simp [hk])
          | false :: q => exact .inl ⟨q, rfl, hq⟩
          | true :: q => exact .inr ⟨q, rfl, hq⟩

/-- After the entries are put, a symbol that has some has one of them as its code, and any other what it had (R130, R157). -/
theorem codesFold_get (es : List (Byte × Bits)) (t : CodeTable) (sym : Byte) :
    ((∀ e ∈ es, e.1 ≠ sym) ∧
      Table.get [] (es.foldl (fun t e => t.put e.1 e.2) t).bits sym.toNat = Table.get [] t.bits sym.toNat ∧
      Table.get 0#8 (es.foldl (fun t e => t.put e.1 e.2) t).len sym.toNat = Table.get 0#8 t.len sym.toNat) ∨
    ∃ c, (sym, c) ∈ es ∧ Table.get [] (es.foldl (fun t e => t.put e.1 e.2) t).bits sym.toNat = c ∧
      Table.get 0#8 (es.foldl (fun t e => t.put e.1 e.2) t).len sym.toNat = BitVec.ofNat 8 c.length := by
  induction es generalizing t with
  | nil => exact .inl ⟨by simp, rfl, rfl⟩
  | cons e es ih =>
    rcases ih (t.put e.1 e.2) with ⟨h0, h1, h2⟩ | ⟨c, hc, h1, h2⟩
    · by_cases he : e.1 = sym
      · subst he
        exact .inr ⟨e.2, by simp, by rw [List.foldl_cons, h1]; simp [CodeTable.put], by rw [List.foldl_cons, h2]; simp [CodeTable.put]⟩
      · have hn : sym.toNat ≠ e.1.toNat := fun h => he (BitVec.eq_of_toNat_eq h).symm
        refine .inl ⟨?_, ?_, ?_⟩
        · intro f hf; rcases List.mem_cons.1 hf with rfl | hf; · exact he
          exact h0 f hf
        · rw [List.foldl_cons, h1]; simp [CodeTable.put, table_get_set_other _ _ _ _ _ hn]
        · rw [List.foldl_cons, h2]; simp [CodeTable.put, table_get_set_other _ _ _ _ _ hn]
    · exact .inr ⟨c, by simp [hc], h1, h2⟩

/-- The code of an entry whose symbol has no other code among the entries. -/
theorem codesOf_get_of_mem {es : List (Byte × Bits)} {sym : Byte} {c : Bits} (hm : (sym, c) ∈ es) (hu : ∀ d, (sym, d) ∈ es → d = c) :
    Table.get [] (codesOf es).bits sym.toNat = c ∧ Table.get 0#8 (codesOf es).len sym.toNat = BitVec.ofNat 8 c.length := by
  rcases codesFold_get es CodeTable.clear sym with ⟨h0, _⟩ | ⟨d, hd, h1, h2⟩
  · exact absurd rfl (h0 _ hm)
  · rw [hu d hd] at h1 h2; exact ⟨h1, h2⟩

theorem codesOf_get_of_none {es : List (Byte × Bits)} {sym : Byte} (h : ∀ e ∈ es, e.1 ≠ sym) :
    Table.get [] (codesOf es).bits sym.toNat = [] ∧ Table.get 0#8 (codesOf es).len sym.toNat = 0#8 := by
  rcases codesFold_get es CodeTable.clear sym with ⟨_, h1, h2⟩ | ⟨d, hd, _⟩
  · exact ⟨h1, h2⟩
  · exact absurd rfl (h _ hd)

/-- Everything a GenCodes that ends says: its paths are at most 255 long, and its table holds the paths to the leaves (R130). -/
theorem genCodes_paths {arena : Table Node} {root : NodeIx} {c : CodeTable} (h : genCodes arena root = .ok c) :
    root ≠ Config.nil ∧ (∀ q, NodeAt arena root q → q.length ≤ 255) ∧
      ∃ es, c = codesOf es ∧ ∀ sym q, (sym, q) ∈ es ↔ LeafAt arena root q sym := by
  obtain ⟨h0, h1, h2, h3⟩ := visit_eq h
  exact ⟨h0, fun q hq => Nat.le_of_lt_succ (h2 q hq), _, h1, fun sym q => by rw [h3]; simp⟩

/-- The code of a coded symbol is a path to a leaf of it (R130). -/
theorem genCodes_leafAt {arena : Table Node} {root : NodeIx} {c : CodeTable} (h : genCodes arena root = .ok c) {sym : Byte}
    (hn : Table.get 0#8 c.len sym.toNat ≠ 0#8) : LeafAt arena root (Table.get [] c.bits sym.toNat) sym := by
  obtain ⟨_, _, es, rfl, he⟩ := genCodes_paths h
  rcases codesFold_get es CodeTable.clear sym with ⟨_, _, h2⟩ | ⟨d, hd, h1, _⟩
  · exact absurd h2 hn
  · rw [codesOf, h1]; exact (he _ _).1 hd

/-- CODE_LEN is the length of the code (R26, R130). -/
theorem genCodes_lengths {arena : Table Node} {root : NodeIx} {c : CodeTable} (h : genCodes arena root = .ok c) (sym : Byte) :
    (Table.get [] c.bits sym.toNat).length = (Table.get 0#8 c.len sym.toNat).toNat := by
  obtain ⟨_, hl, es, rfl, he⟩ := genCodes_paths h
  refine codesOf_lengths es ?_ sym
  rintro ⟨a, q⟩ hq
  obtain ⟨j, h1, h2, _⟩ := (he _ _).1 hq
  exact hl q ⟨j, h1, h2⟩

/-- A generated code table is prefix-free (R134). -/
theorem genCodes_prefixFree {arena : Table Node} {root : NodeIx} {c : CodeTable} (h : genCodes arena root = .ok c) {a b : Byte}
    (hab : a ≠ b) (ha : Table.get 0#8 c.len a.toNat ≠ 0#8) (hb : Table.get 0#8 c.len b.toNat ≠ 0#8) :
    ¬ Table.get [] c.bits a.toNat <+: Table.get [] c.bits b.toNat := by
  intro hp
  have h1 := genCodes_leafAt h ha
  have h2 := genCodes_leafAt h hb
  have h3 := h2
  obtain ⟨j, hj, _⟩ := h2
  rw [← h1.maximal hj hp] at h3
  exact hab (h1.sym_eq h3)

/-- A GenCodes that ends answers the table of any entries that are exactly the paths to its leaves (R130, R131, R156). -/
theorem genCodes_eq_codesOf {arena : Table Node} {root : NodeIx} {c : CodeTable} (h : genCodes arena root = .ok c)
    {es : List (Byte × Bits)} (hm : ∀ sym q, (sym, q) ∈ es ↔ LeafAt arena root q sym)
    (hu : ∀ sym p q, (sym, p) ∈ es → (sym, q) ∈ es → p = q) : genCodes arena root = .ok (codesOf es) := by
  obtain ⟨_, _, fs, hc, hf⟩ := genCodes_paths h
  have hget : ∀ sym : Byte, Table.get [] (codesOf fs).bits sym.toNat = Table.get [] (codesOf es).bits sym.toNat ∧
      Table.get 0#8 (codesOf fs).len sym.toNat = Table.get 0#8 (codesOf es).len sym.toNat := by
    intro sym
    by_cases hs : ∃ q, (sym, q) ∈ es
    · obtain ⟨q, hq⟩ := hs
      have h1 := codesOf_get_of_mem hq fun d hd => hu sym d q hd hq
      have h2 := codesOf_get_of_mem ((hf sym q).2 ((hm sym q).1 hq)) fun d hd => hu sym d q ((hm _ _).2 ((hf _ _).1 hd)) hq
      exact ⟨h2.1.trans h1.1.symm, h2.2.trans h1.2.symm⟩
    · have h1 := codesOf_get_of_none (es := es) (sym := sym) (by rintro ⟨a, q⟩ hq rfl; exact hs ⟨q, hq⟩)
      have h2 := codesOf_get_of_none (es := fs) (sym := sym)
        (by rintro ⟨a, q⟩ hq rfl; exact hs ⟨q, (hm _ _).2 ((hf _ _).1 hq)⟩)
      exact ⟨h2.1.trans h1.1.symm, h2.2.trans h1.2.symm⟩
  have w1 := codesOf_canonical fs
  have w2 := codesOf_canonical es
  have e1 : (codesOf fs).len = (codesOf es).len := by
    refine table_ext w1.1 w2.1 fun i => ?_
    by_cases hi : i < 256
    · have := (hget (BitVec.ofNat 8 i)).2
      rwa [BitVec.toNat_ofNat, Nat.mod_eq_of_lt hi] at this
    · rw [table_get_out w1.1 (by omega), table_get_out w2.1 (by omega)]
  have e2 : (codesOf fs).bits = (codesOf es).bits := by
    refine table_ext w1.2 w2.2 fun i => ?_
    by_cases hi : i < 256
    · have := (hget (BitVec.ofNat 8 i)).1
      rwa [BitVec.toNat_ofNat, Nat.mod_eq_of_lt hi] at this
    · rw [table_get_out w1.2 (by omega), table_get_out w2.2 (by omega)]
  rw [h, hc]
  generalize codesOf fs = x at e1 e2
  generalize codesOf es = y at e1 e2
  cases x; cases y
  simp only at e1 e2
  rw [e1, e2]

/-! ### One path per record -/

theorem follow_loop {arena : Table Node} {i : NodeIx} {q : Bits} (h : follow arena i q = some i) (n : Nat) :
    follow arena i (List.replicate n q).flatten = some i := by
  induction n with
  | zero => rfl
  | succ n ih => rw [List.replicate_succ, List.flatten_cons, follow_append, h]; exact ih

/-- In an unshared arena on which GenCodes ends, a record has one path from the root (R25, R130). -/
theorem follow_unique {arena : Table Node} {root : NodeIx} {c : CodeTable} (hu : Unshared arena) (h : genCodes arena root = .ok c)
    {p q : Bits} {j : NodeIx} (hp : follow arena root p = some j) (hq : follow arena root q = some j) (hj : j ≠ Config.nil) : p = q := by
  obtain ⟨hr, hl, -⟩ := genCodes_paths h
  have noloop : ∀ q, follow arena root q = some root → q = [] := by
    intro q hq
    by_contra hn
    have h1 := hl _ ⟨root, follow_loop hq 256, hr⟩
    have h2 : 0 < q.length := List.length_pos_iff.2 hn
    simp only [List.length_flatten, List.map_replicate, List.sum_replicate, smul_eq_mul] at h1
    omega
  induction p using List.reverseRecOn generalizing q j with
  | nil =>
    simp only [follow, Option.some.injEq] at hp
    subst hp
    exact (noloop q hq).symm
  | append_singleton p x ih =>
    induction q using List.reverseRecOn with
    | nil =>
      simp only [follow, Option.some.injEq] at hq
      subst hq
      exact noloop _ hp
    | append_singleton q y _ =>
      obtain ⟨a, a1, a2, a3, a4⟩ := follow_snoc.1 hp
      obtain ⟨b, b1, b2, b3, b4⟩ := follow_snoc.1 hq
      obtain ⟨rfl, rfl⟩ := hu a b x y a3 b3 (a4.trans b4.symm) (by rw [a4]; exact hj)
      rw [ih a1 b1 a2]

end Sys2Proof.Machine
end

