-- ==== Sys2Proof/Laws/HeaderTree.lean ====
section
/-! SUPPORT. The tree that Reconstruct grows, path by path: its leaves are exactly the entries, its records exactly the prefixes of
their codes, and an entry is refused exactly when it clashes with an earlier one or the arena has no room. -/

namespace Sys2Proof.Machine

/-! ### One record attached -/

theorem Trie.follow_lt {t : Table Node} {cnt : Nat} {depth : Nat → Nat} (h : Trie t cnt depth) {a j : NodeIx} {q : Bits}
    (ha : a.toNat < cnt) (hq : follow t a q = some j) (hj : j ≠ Config.nil) :
    j.toNat < cnt ∧ depth j.toNat = depth a.toNat + q.length := by
  induction q generalizing a with
  | nil => simp only [follow, Option.some.injEq] at hq; subst hq; exact ⟨ha, rfl⟩
  | cons x q ih =>
    simp only [follow] at hq
    split at hq
    · simp at hq
    split at hq
    swap
    · simp at hq
    rename_i hk
    have hn : (arenaAt t a).branch x ≠ Config.nil := by
      intro hn
      rw [hn] at hq
      cases q with
      | nil => simp only [follow, Option.some.injEq] at hq; exact hj hq.symm
      | cons y q => simp [follow] at hq
    obtain ⟨c1, c2⟩ := h.child a.toNat x hk hn
    obtain ⟨d1, d2⟩ := ih c1 hq
    refine ⟨d1, ?_⟩
    rw [d2, c2, List.length_cons]; omega

/-- The only path from the root back to it is the empty one. -/
theorem Trie.follow_root {t : Table Node} {cnt : Nat} {depth : Nat → Nat} (h : Trie t cnt depth) {q : Bits} :
    follow t 0#9 q = some 0#9 ↔ q = [] := by
  constructor
  · intro hq
    have h0 : (0#9 : NodeIx).toNat = 0 := rfl
    have := (h.follow_lt (by rw [h0]; exact h.pos) hq (by decide)).2
    exact List.length_eq_zero_iff.1 (by omega)
  · rintro rfl; rfl

theorem ofNat_toNat_of_lt {cnt : Nat} (h : cnt < 511) : (BitVec.ofNat 9 cnt : NodeIx).toNat = cnt ∧ (BitVec.ofNat 9 cnt : NodeIx) ≠ Config.nil := by
  have h1 : (BitVec.ofNat 9 cnt : NodeIx).toNat = cnt := by rw [BitVec.toNat_ofNat]; omega
  refine ⟨h1, fun he => ?_⟩
  have := congrArg BitVec.toNat he
  rw [h1] at this
  simp [Config.nil] at this
  omega

theorem follow_from_nil {t : Table Node} {q : Bits} {j : NodeIx} (hj : j ≠ Config.nil) : follow t Config.nil q ≠ some j := by
  cases q with
  | nil => simpa [follow] using fun h => hj h.symm
  | cons x q => simp [follow]

/-- Every path after a record without children is attached on a free branch: the old ones, and the one to it (R156). -/
theorem Trie.attach_follow {t : Table Node} {cnt : Nat} {depth : Nat → Nat} (h : Trie t cnt depth) {i : NodeIx} {x : Bool} {r : Node}
    (hi : i.toNat < cnt) (hk : (arenaAt t i).kind = .internal) (hb : (arenaAt t i).branch x = Config.nil) (hc : cnt < 511)
    (hr : r.zero = Config.nil ∧ r.one = Config.nil) {a j : NodeIx} {q : Bits} (ha : a.toNat < cnt) (hj : j ≠ Config.nil) :
    follow (Machine.attach t cnt i x r) a q = some j ↔
      follow t a q = some j ∨ (j = BitVec.ofNat 9 cnt ∧ ∃ p, follow t a p = some i ∧ q = p ++ [x]) := by
  obtain ⟨hcv, hcn⟩ := ofNat_toNat_of_lt hc
  have hne : i.toNat ≠ cnt := by omega
  have hg := attach_get (t := t) x r hne
  have hin : i ≠ Config.nil := by rintro rfl; simp [Config.nil] at hi; omega
  have hrb : ∀ b, r.branch b = Config.nil := by intro b; cases b <;> simp [Node.branch, hr.1, hr.2]
  have hnew : arenaAt (Machine.attach t cnt i x r) (BitVec.ofNat 9 cnt) = r := by
    unfold arenaAt; rw [hcv, hg, if_neg (fun e => hne e.symm), if_pos rfl]
  have hkind : ∀ k : NodeIx, k.toNat < cnt → (arenaAt (Machine.attach t cnt i x r) k).kind = (arenaAt t k).kind := by
    intro k hkc
    unfold arenaAt
    rw [hg]
    split
    · exact (setBranch_kind _ _ _).1
    · rw [if_neg (by omega)]
  have hbr : ∀ (k : NodeIx) (y : Bool), k.toNat < cnt → (arenaAt (Machine.attach t cnt i x r) k).branch y =
      if k = i ∧ y = x then BitVec.ofNat 9 cnt else (arenaAt t k).branch y := by
    intro k y hkc
    unfold arenaAt
    rw [hg]
    by_cases hki : k = i
    · subst hki; rw [if_pos rfl, setBranch_branch]; simp
    · have : k.toNat ≠ i.toNat := fun e => hki (BitVec.eq_of_toNat_eq e)
      rw [if_neg this, if_neg (by omega)]; simp [hki]
  induction q generalizing a with
  | nil => simp [follow]
  | cons y q ih =>
    have han : a ≠ Config.nil := by rintro rfl; simp [Config.nil] at ha; omega
    simp only [follow, if_neg han, hkind a ha]
    by_cases hak : (arenaAt t a).kind = .internal
    swap
    · simp only [if_neg hak]
      constructor
      · simp
      · rintro (hh | ⟨_, p, hp, he⟩)
        · simp at hh
        · cases p with
          | nil => simp only [follow, Option.some.injEq] at hp; subst hp; exact absurd hk hak
          | cons z p => simp [follow, han, hak] at hp
    simp only [if_pos hak, hbr a y ha]
    by_cases hai : a = i ∧ y = x
    · rw [if_pos hai]
      obtain ⟨rfl, rfl⟩ := hai
      rw [hb]
      cases q with
      | nil =>
        simp only [follow, Option.some.injEq]
        constructor
        · rintro rfl; exact .inr ⟨rfl, [], rfl, rfl⟩
        · rintro (hh | ⟨hh, _⟩)
          · exact absurd hh.symm hj
          · exact hh.symm
      | cons z q =>
        simp only [follow, if_neg hcn, hnew, hrb]
        constructor
        · intro hh
          split at hh
          · exact absurd hh (follow_from_nil hj)
          · simp at hh
        · rintro (hh | ⟨_, p, hp, he⟩)
          · simp at hh
          · cases p with
            | nil => simp at he
            | cons w p =>
              simp only [List.cons_append, List.cons.injEq] at he
              obtain ⟨rfl, he⟩ := he
              simp only [follow, if_neg han, if_pos hk, hb] at hp
              exact absurd hp (follow_from_nil hin)
    · rw [if_neg hai]
      by_cases hbn : (arenaAt t a).branch y = Config.nil
      · rw [hbn]
        constructor
        · exact fun hh => absurd hh (follow_from_nil hj)
        · rintro (hh | ⟨_, p, hp, he⟩)
          · exact absurd hh (follow_from_nil hj)
          · cases p with
            | nil =>
              simp only [List.nil_append, List.cons.injEq] at he
              simp only [follow, Option.some.injEq] at hp
              exact absurd ⟨hp, he.1⟩ hai
            | cons w p =>
              simp only [List.cons_append, List.cons.injEq] at he
              obtain ⟨rfl, he⟩ := he
              simp only [follow, if_neg han, if_pos hak, hbn] at hp
              exact absurd hp (follow_from_nil hin)
      · refine (ih (a := (arenaAt t a).branch y) (h.child a.toNat y hak hbn).1).trans ?_
        refine or_congr Iff.rfl (and_congr Iff.rfl ?_)
        constructor
        · rintro ⟨p, hp, rfl⟩
          exact ⟨y :: p, by simpa [follow, han, hak] using hp, rfl⟩
        · rintro ⟨p, hp, he⟩
          cases p with
          | nil =>
            simp only [List.nil_append, List.cons.injEq] at he
            simp only [follow, Option.some.injEq] at hp
            exact absurd ⟨hp, he.1⟩ hai
          | cons w p =>
            simp only [List.cons_append, List.cons.injEq] at he
            obtain ⟨rfl, rfl⟩ := he
            exact ⟨p, by simpa [follow, han, hak] using hp, rfl⟩

/-! ### One code inserted -/

/-- A code meets a leaf on its way, or its end is taken: an earlier code is a prefix of it, or it of one (R156). -/
def Clash (t : Table Node) (i : NodeIx) (c : Bits) : Prop :=
  (∃ d s, d ≠ [] ∧ d <+: c ∧ LeafAt t i d s) ∨ NodeAt t i c

/-- The records that the walk for a code adds when it does not clash (R156). -/
def missing (t : Table Node) : NodeIx → Bits → Nat
  | _, [] => 0
  | i, x :: c => if (arenaAt t i).branch x = Config.nil then c.length + 1 else missing t ((arenaAt t i).branch x) c

theorem nodeAt_cons {arena : Table Node} {i : NodeIx} {x : Bool} {p : Bits} :
    NodeAt arena i (x :: p) ↔ i ≠ Config.nil ∧ (arenaAt arena i).kind = .internal ∧ NodeAt arena ((arenaAt arena i).branch x) p := by
  simp only [NodeAt, follow]
  split
  · simp_all
  · split <;> simp_all

theorem not_nodeAt_nil (arena : Table Node) (p : Bits) : ¬ NodeAt arena Config.nil p := by
  rintro ⟨j, h, hj⟩; exact follow_from_nil hj h

theorem LeafAt.nodeAt {arena : Table Node} {i : NodeIx} {p : Bits} {s : Byte} (h : LeafAt arena i p s) : NodeAt arena i p := by
  obtain ⟨j, h1, h2, _⟩ := h; exact ⟨j, h1, h2⟩

theorem not_clash_of_free {t : Table Node} {i : NodeIx} {x : Bool} {c : Bits} (hb : (arenaAt t i).branch x = Config.nil) :
    ¬ Clash t i (x :: c) := by
  rintro (⟨d, s, hd, hp, hl⟩ | hn)
  · cases d with
    | nil => exact hd rfl
    | cons y d =>
      obtain ⟨rfl, _⟩ := List.cons_prefix_cons.1 hp
      rw [leafAt_cons, hb] at hl
      exact not_leafAt_nil _ _ _ hl.2.2
  · rw [nodeAt_cons, hb] at hn
    exact not_nodeAt_nil _ _ hn.2.2

theorem clash_cons {t : Table Node} {i : NodeIx} {x : Bool} {c : Bits} (hi : i ≠ Config.nil) (hk : (arenaAt t i).kind = .internal)
    (hl : (arenaAt t ((arenaAt t i).branch x)).kind ≠ .leaf) :
    Clash t i (x :: c) ↔ Clash t ((arenaAt t i).branch x) c := by
  unfold Clash
  rw [nodeAt_cons]
  simp only [hi, hk, ne_eq, not_false_eq_true, true_and]
  refine or_congr ⟨?_, ?_⟩ Iff.rfl
  · rintro ⟨d, s, hd, hp, hL⟩
    cases d with
    | nil => exact absurd rfl hd
    | cons y d =>
      obtain ⟨rfl, hp'⟩ := List.cons_prefix_cons.1 hp
      obtain ⟨_, _, hL'⟩ := leafAt_cons.1 hL
      refine ⟨d, s, ?_, hp', hL'⟩
      rintro rfl
      exact hl (leafAt_nil.1 hL').2.1
  · rintro ⟨d, s, hd, hp, hL⟩
    exact ⟨x :: d, s, by simp, List.cons_prefix_cons.2 ⟨rfl, hp⟩, leafAt_cons.2 ⟨hi, hk, hL⟩⟩

/-- What attaching a leaf or an internal record does to the records, the leaves and their reach. -/
theorem Trie.attach_paths {t : Table Node} {cnt : Nat} {depth : Nat → Nat} (h : Trie t cnt depth) {i : NodeIx} {x : Bool} {r : Node}
    (hi : i.toNat < cnt) (hk : (arenaAt t i).kind = .internal) (hb : (arenaAt t i).branch x = Config.nil) (hc : cnt < 511)
    (hr : r.zero = Config.nil ∧ r.one = Config.nil) :
    (∀ q, NodeAt (Machine.attach t cnt i x r) 0#9 q ↔ NodeAt t 0#9 q ∨ ∃ p, follow t 0#9 p = some i ∧ q = p ++ [x]) ∧
    (∀ q s, LeafAt (Machine.attach t cnt i x r) 0#9 q s ↔
      LeafAt t 0#9 q s ∨ (r.kind = .leaf ∧ r.sym = s ∧ ∃ p, follow t 0#9 p = some i ∧ q = p ++ [x])) ∧
    (∀ p, follow (Machine.attach t cnt i x r) 0#9 p = some (BitVec.ofNat 9 cnt) ↔ ∃ p', follow t 0#9 p' = some i ∧ p = p' ++ [x]) ∧
    ∀ (k : NodeIx) (p : Bits), k.toNat < cnt → follow t 0#9 p = some k → follow (Machine.attach t cnt i x r) 0#9 p = some k := by
  obtain ⟨hcv, hcn⟩ := ofNat_toNat_of_lt hc
  have h0 : (0#9 : NodeIx).toNat < cnt := h.pos
  have hf := fun (j : NodeIx) (q : Bits) (hj : j ≠ Config.nil) => h.attach_follow (x := x) (r := r) (q := q) hi hk hb hc hr h0 hj
  have hne : i.toNat ≠ cnt := by omega
  have hg := attach_get (t := t) x r hne
  have hnew : arenaAt (Machine.attach t cnt i x r) (BitVec.ofNat 9 cnt) = r := by
    unfold arenaAt; rw [hcv, hg, if_neg (fun e => hne e.symm), if_pos rfl]
  have hold : ∀ k : NodeIx, k.toNat < cnt → (arenaAt (Machine.attach t cnt i x r) k).kind = (arenaAt t k).kind ∧
      (arenaAt (Machine.attach t cnt i x r) k).sym = (arenaAt t k).sym := by
    intro k hkc
    unfold arenaAt
    rw [hg]
    split
    · exact setBranch_kind _ _ _
    · rw [if_neg (by omega)]; exact ⟨rfl, rfl⟩
  have hlt : ∀ {q j}, follow t 0#9 q = some j → j ≠ Config.nil → j.toNat < cnt := fun hq hj => (h.follow_lt h0 hq hj).1
  refine ⟨?_, ?_, ?_, ?_⟩
  · intro q
    constructor
    · rintro ⟨j, hq, hj⟩
      rcases (hf j q hj).1 hq with hq | ⟨_, hq⟩
      · exact .inl ⟨j, hq, hj⟩
      · exact .inr hq
    · rintro (⟨j, hq, hj⟩ | hq)
      · exact ⟨j, (hf j q hj).2 (.inl hq), hj⟩
      · exact ⟨_, (hf _ q hcn).2 (.inr ⟨rfl, hq⟩), hcn⟩
  · intro q s
    constructor
    · rintro ⟨j, hq, hj, hkj, hsj⟩
      rcases (hf j q hj).1 hq with hq' | ⟨hjc, hq'⟩
      · obtain ⟨e1, e2⟩ := hold j (hlt hq' hj)
        exact .inl ⟨j, hq', hj, by rw [← e1]; exact hkj, by rw [← e2]; exact hsj⟩
      · rw [hjc, hnew] at hkj hsj
        exact .inr ⟨hkj, hsj, hq'⟩
    · rintro (⟨j, hq, hj, hkj, hsj⟩ | ⟨hkr, hsr, hq⟩)
      · obtain ⟨e1, e2⟩ := hold j (hlt hq hj)
        exact ⟨j, (hf j q hj).2 (.inl hq), hj, e1.trans hkj, e2.trans hsj⟩
      · exact ⟨_, (hf _ q hcn).2 (.inr ⟨rfl, hq⟩), hcn, by rw [hnew]; exact hkr, by rw [hnew]; exact hsr⟩
  · intro p
    rw [hf _ p hcn]
    constructor
    · rintro (hp | ⟨_, hp⟩)
      · have := hlt hp hcn; omega
      · exact hp
    · exact fun hp => .inr ⟨rfl, hp⟩
  · intro k p hkc hp
    have hkn : k ≠ Config.nil := by rintro rfl; simp [Config.nil] at hkc; omega
    exact (hf k p hkn).2 (.inl hp)

/-- Everything the walk for one code can do from a record: it is refused exactly on a clash or for want of room, and otherwise
adds one leaf and the records on the way to it (R156). -/
theorem Trie.insertCode_spec {sym : Byte} {c : Bits} {i : NodeIx} {t : Table Node} {cnt : Nat} {depth : Nat → Nat}
    (h : Trie t cnt depth) (hi : i.toNat < cnt) (hk : (arenaAt t i).kind = .internal) (hd : depth i.toNat + c.length ≤ 255)
    (hc0 : c ≠ []) :
    (Machine.insertCode sym c i t cnt = none ↔ Clash t i c ∨ 511 < cnt + missing t i c) ∧
    ∀ t' cnt', Machine.insertCode sym c i t cnt = some (t', cnt') →
      cnt' = cnt + missing t i c ∧ (∃ depth', Trie t' cnt' depth') ∧
      (∀ q s, LeafAt t' 0#9 q s ↔ LeafAt t 0#9 q s ∨ (s = sym ∧ ∃ p, follow t 0#9 p = some i ∧ q = p ++ c)) ∧
      (∀ q, NodeAt t' 0#9 q ↔ NodeAt t 0#9 q ∨ ∃ p d, follow t 0#9 p = some i ∧ d ≠ [] ∧ d <+: c ∧ q = p ++ d) ∧
      ((∀ k : NodeIx, k.toNat < cnt → ∃ p, follow t 0#9 p = some k) → ∀ k : NodeIx, k.toNat < cnt' → ∃ p, follow t' 0#9 p = some k) := by
  induction c generalizing i t cnt depth with
  | nil => exact absurd rfl hc0
  | cons x c ih =>
    have hs := h.size
    have hin : i ≠ Config.nil := by rintro rfl; simp [Config.nil] at hi; omega
    cases c with
    | nil =>
      by_cases hb : (arenaAt t i).branch x = Config.nil
      swap
      · have hx : Machine.insertCode sym [x] i t cnt = none := by simp only [Machine.insertCode]; rw [if_pos hb]
        rw [hx]
        refine ⟨iff_of_true rfl (.inl (.inr ?_)), by simp⟩
        exact nodeAt_cons.2 ⟨hin, hk, ⟨_, rfl, hb⟩⟩
      by_cases hf : cnt = 511
      · have hx : Machine.insertCode sym [x] i t cnt = none := by
          simp only [Machine.insertCode, hb, ne_eq, not_true_eq_false, if_false]; rw [if_pos (show cnt = Config.nodeMax from hf)]
        rw [hx]
        exact ⟨iff_of_true rfl (.inr (by simp [missing, hb, hf])), by simp⟩
      have hx : Machine.insertCode sym [x] i t cnt = some (Machine.attach t cnt i x (freshLeaf sym), cnt + 1) := by
        simp only [Machine.insertCode, hb, ne_eq, not_true_eq_false, if_false]; rw [if_neg (show ¬ cnt = Config.nodeMax from hf)]
      have hm : missing t i [x] = 1 := by simp [missing, hb]
      rw [hx, hm]
      refine ⟨iff_of_false (by simp) ?_, ?_⟩
      · rintro (hcl | hlt)
        · exact not_clash_of_free hb hcl
        · omega
      simp only [Option.some.injEq, Prod.mk.injEq]
      rintro _ _ ⟨rfl, rfl⟩
      obtain ⟨p1, p2, p3, p4⟩ := h.attach_paths (x := x) (r := freshLeaf sym) hi hk hb (by omega) ⟨rfl, rfl⟩
      refine ⟨rfl, ⟨_, h.attach hi hk hf ⟨.inl rfl, rfl, rfl⟩⟩, ?_, ?_, ?_⟩
      · intro q s
        rw [p2]
        simp only [freshLeaf, true_and, eq_comm]
      · intro q
        rw [p1]
        refine or_congr Iff.rfl ⟨?_, ?_⟩
        · rintro ⟨p, hp, rfl⟩; exact ⟨p, [x], hp, by simp, List.prefix_refl _, rfl⟩
        · rintro ⟨p, d, hp, hdn, hd', rfl⟩
          have : d = [x] := by
            cases d with
            | nil => exact absurd rfl hdn
            | cons y d =>
              obtain ⟨rfl, hd2⟩ := List.cons_prefix_cons.1 hd'
              rw [List.prefix_nil.1 hd2]
          subst this
          exact ⟨p, hp, rfl⟩
      · intro hreach k hkc
        by_cases hkk : k.toNat < cnt
        · obtain ⟨p, hp⟩ := hreach k hkk
          exact ⟨p, p4 k p hkk hp⟩
        · have : k = BitVec.ofNat 9 cnt := by
            apply BitVec.eq_of_toNat_eq; rw [(ofNat_toNat_of_lt (by omega : cnt < 511)).1]; omega
          subst this
          obtain ⟨p, hp⟩ := hreach i hi
          exact ⟨p ++ [x], (p3 _).2 ⟨p, hp, rfl⟩⟩
    | cons y c =>
      simp only [List.length_cons] at hd
      by_cases hb : (arenaAt t i).branch x = Config.nil
      · have hm : missing t i (x :: y :: c) = c.length + 2 := by simp [missing, hb]
        by_cases hf : cnt = 511
        · have hx : Machine.insertCode sym (x :: y :: c) i t cnt = none := by
            simp only [Machine.insertCode, hb, if_true]; rw [if_pos (show cnt = Config.nodeMax from hf)]
          rw [hx, hm]
          exact ⟨iff_of_true rfl (.inr (by omega)), by simp⟩
        obtain ⟨hcv, hcn⟩ := ofNat_toNat_of_lt (by omega : cnt < 511)
        have hx : Machine.insertCode sym (x :: y :: c) i t cnt =
            Machine.insertCode sym (y :: c) (BitVec.ofNat 9 cnt) (Machine.attach t cnt i x freshInternal) (cnt + 1) := by
          simp only [Machine.insertCode, hb, if_true]; rw [if_neg (show ¬ cnt = Config.nodeMax from hf)]
        have hne : i.toNat ≠ cnt := by omega
        have hnew : arenaAt (Machine.attach t cnt i x freshInternal) (BitVec.ofNat 9 cnt) = freshInternal := by
          unfold arenaAt; rw [hcv, attach_get x freshInternal hne, if_neg (fun e => hne e.symm), if_pos rfl]
        have h' := h.attach (x := x) (r := freshInternal) hi hk hf ⟨.inr ⟨rfl, rfl, by omega⟩, rfl, rfl⟩
        have hb' : ∀ z, (arenaAt (Machine.attach t cnt i x freshInternal) (BitVec.ofNat 9 cnt)).branch z = Config.nil := by
          intro z; rw [hnew]; cases z <;> rfl
        obtain ⟨q1, q2⟩ := ih h' (i := BitVec.ofNat 9 cnt) (by rw [hcv]; omega) (by rw [hnew]; rfl)
          (by rw [hcv, if_pos rfl]; simp only [List.length_cons]; omega) (by simp)
        have hm' : missing (Machine.attach t cnt i x freshInternal) (BitVec.ofNat 9 cnt) (y :: c) = c.length + 1 := by
          simp [missing, hb']
        rw [hm'] at q1 q2
        obtain ⟨p1, p2, p3, p4⟩ := h.attach_paths (x := x) (r := freshInternal) hi hk hb (by omega) ⟨rfl, rfl⟩
        rw [hx, hm]
        refine ⟨?_, ?_⟩
        · rw [q1]
          refine or_congr (iff_of_false (not_clash_of_free (hb' y)) (not_clash_of_free hb)) ?_
          omega
        · intro t' cnt' ht
          obtain ⟨r1, r2, r3, r4, r5⟩ := q2 t' cnt' ht
          refine ⟨by omega, r2, ?_, ?_, ?_⟩
          · intro q s
            rw [r3, p2]
            simp only [freshInternal, reduceCtorEq, false_and, or_false]
            refine or_congr Iff.rfl (and_congr Iff.rfl ⟨?_, ?_⟩)
            · rintro ⟨p, hp, rfl⟩
              obtain ⟨p', hp', rfl⟩ := (p3 p).1 hp
              exact ⟨p', hp', by simp⟩
            · rintro ⟨p, hp, rfl⟩
              exact ⟨p ++ [x], (p3 _).2 ⟨p, hp, rfl⟩, by simp⟩
          · intro q
            rw [r4, p1, or_assoc]
            refine or_congr Iff.rfl ⟨?_, ?_⟩
            · rintro (⟨p, hp, rfl⟩ | ⟨p, d, hp, hdn, hd', rfl⟩)
              · exact ⟨p, [x], hp, by simp, by simp [List.cons_prefix_cons], rfl⟩
              · obtain ⟨p', hp', rfl⟩ := (p3 p).1 hp
                exact ⟨p', x :: d, hp', by simp, List.cons_prefix_cons.2 ⟨rfl, hd'⟩, by simp⟩
            · rintro ⟨p, d, hp, hdn, hd', rfl⟩
              cases d with
              | nil => exact absurd rfl hdn
              | cons z d =>
                obtain ⟨rfl, hd2⟩ := List.cons_prefix_cons.1 hd'
                cases d with
                | nil => exact .inl ⟨p, hp, rfl⟩
                | cons w d => exact .inr ⟨p ++ [z], w :: d, (p3 _).2 ⟨p, hp, rfl⟩, by simp, hd2, by simp⟩
          · intro hreach
            refine r5 fun k hkc => ?_
            by_cases hkk : k.toNat < cnt
            · obtain ⟨p, hp⟩ := hreach k hkk
              exact ⟨p, p4 k p hkk hp⟩
            · have : k = BitVec.ofNat 9 cnt := by apply BitVec.eq_of_toNat_eq; rw [hcv]; omega
              subst this
              obtain ⟨p, hp⟩ := hreach i hi
              exact ⟨p ++ [x], (p3 _).2 ⟨p, hp, rfl⟩⟩
      · by_cases hl : (arenaAt t ((arenaAt t i).branch x)).kind = .leaf
        · have hx : Machine.insertCode sym (x :: y :: c) i t cnt = none := by
            simp only [Machine.insertCode]; rw [if_neg hb, if_pos hl]
          rw [hx]
          exact ⟨iff_of_true rfl (.inl (.inl ⟨[x], (arenaAt t ((arenaAt t i).branch x)).sym, by simp, by simp [List.cons_prefix_cons],
            leafAt_cons.2 ⟨hin, hk, leafAt_nil.2 ⟨hb, hl, rfl⟩⟩⟩)), by simp⟩
        have hx : Machine.insertCode sym (x :: y :: c) i t cnt = Machine.insertCode sym (y :: c) ((arenaAt t i).branch x) t cnt := by
          simp only [Machine.insertCode]; rw [if_neg hb, if_neg hl]
        obtain ⟨c1, c2⟩ := h.child i.toNat x hk hb
        have c1' : ((arenaAt t i).branch x).toNat < cnt := c1
        have c2' : depth ((arenaAt t i).branch x).toNat = depth i.toNat + 1 := c2
        have hkb : (arenaAt t ((arenaAt t i).branch x)).kind = .internal := by
          rcases h.kinds _ c1' with hh | hh
          · exact hh
          · exact absurd hh hl
        obtain ⟨q1, q2⟩ := ih h c1' hkb (by rw [c2']; simp only [List.length_cons]; omega) (by simp)
        have hm : missing t i (x :: y :: c) = missing t ((arenaAt t i).branch x) (y :: c) := by
          rw [missing, if_neg hb]
        have hfol : ∀ p, follow t 0#9 p = some ((arenaAt t i).branch x) ↔ ∃ p', follow t 0#9 p' = some i ∧ p = p' ++ [x] := by
          intro p
          constructor
          · intro hp
            induction p using List.reverseRecOn with
            | nil =>
              simp only [follow, Option.some.injEq] at hp
              rw [← hp] at c2'
              have := h.root.2
              simp only [BitVec.toNat_ofNat, Nat.zero_mod] at c2'
              omega
            | append_singleton p z _ =>
              obtain ⟨k, k1, k2, k3, k4⟩ := follow_snoc.1 hp
              obtain ⟨e1, rfl⟩ := h.unshared k.toNat i.toNat z x k3 hk k4 (by show (arenaAt t k).branch z ≠ _; rw [k4]; exact hb)
              have := BitVec.eq_of_toNat_eq e1
              subst this
              exact ⟨p, k1, rfl⟩
          · rintro ⟨p', hp', rfl⟩
            exact follow_snoc.2 ⟨i, hp', hin, hk, rfl⟩
        rw [hx, hm, clash_cons hin hk hl]
        refine ⟨q1, ?_⟩
        intro t' cnt' ht
        obtain ⟨r1, r2, r3, r4, r5⟩ := q2 t' cnt' ht
        refine ⟨r1, r2, ?_, ?_, r5⟩
        · intro q s
          rw [r3]
          refine or_congr Iff.rfl (and_congr Iff.rfl ⟨?_, ?_⟩)
          · rintro ⟨p, hp, rfl⟩
            obtain ⟨p', hp', rfl⟩ := (hfol p).1 hp
            exact ⟨p', hp', by simp⟩
          · rintro ⟨p, hp, rfl⟩
            exact ⟨p ++ [x], (hfol _).2 ⟨p, hp, rfl⟩, by simp⟩
        · intro q
          rw [r4]
          constructor
          · rintro (hq | ⟨p, d, hp, hdn, hd', rfl⟩)
            · exact .inl hq
            · obtain ⟨p', hp', rfl⟩ := (hfol p).1 hp
              exact .inr ⟨p', x :: d, hp', by simp, List.cons_prefix_cons.2 ⟨rfl, hd'⟩, by simp⟩
          · rintro (hq | ⟨p, d, hp, hdn, hd', rfl⟩)
            · exact .inl hq
            · cases d with
              | nil => exact absurd rfl hdn
              | cons z d =>
                obtain ⟨rfl, hd2⟩ := List.cons_prefix_cons.1 hd'
                cases d with
                | nil => exact .inl ⟨_, (hfol _).2 ⟨p, hp, rfl⟩, hb⟩
                | cons w d => exact .inr ⟨p ++ [z], w :: d, (hfol _).2 ⟨p, hp, rfl⟩, by simp, hd2, by simp⟩

/-! ### The records a code adds -/

/-- The record at index k after the bits c, none of which had a record, were placed below record i (R156): i gets the first new record
on the branch of the first bit, the new records follow one another from index cnt, and the last is the leaf. -/
def placedRecord (t : Table Node) (cnt : Nat) (i : NodeIx) (sym : Byte) (c : Bits) (k : Nat) : Node :=
  if k = i.toNat then (Table.get Node.blank t k).setBranch (c.getD 0 false) (BitVec.ofNat 9 cnt)
  else if k < cnt then Table.get Node.blank t k
  else if k + 1 < cnt + c.length then freshInternal.setBranch (c.getD (k + 1 - cnt) false) (BitVec.ofNat 9 (k + 1))
  else if k + 1 = cnt + c.length then freshLeaf sym
  else Table.get Node.blank t k

/-- Placing the bits of a code from a free branch on (R156). -/
theorem insertCode_place {sym : Byte} {c : Bits} {i : NodeIx} {t t' : Table Node} {cnt cnt' : Nat} (hi : i.toNat < cnt) (hs : cnt ≤ 511)
    (hb : (arenaAt t i).branch (c.getD 0 false) = Config.nil) (hx : insertCode sym c i t cnt = some (t', cnt')) :
    cnt' = cnt + c.length ∧ ∀ k, Table.get Node.blank t' k = placedRecord t cnt i sym c k := by
  induction c generalizing i t cnt with
  | nil => simp [insertCode] at hx
  | cons x c ih =>
    have hne : i.toNat ≠ cnt := by omega
    simp only [List.getD_cons_zero] at hb
    cases c with
    | nil =>
      simp only [insertCode, hb, ne_eq, not_true_eq_false, if_false] at hx
      split at hx
      · simp at hx
      simp only [Option.some.injEq, Prod.mk.injEq] at hx
      obtain ⟨rfl, rfl⟩ := hx
      refine ⟨rfl, fun k => ?_⟩
      rw [attach_get x _ hne]
      simp only [placedRecord, List.getD_cons_zero, List.length_singleton]
      split
      · rfl
      · split <;> repeat' split
        all_goals first | rfl | omega
    | cons y c =>
      simp only [insertCode, hb, if_true] at hx
      split at hx
      · simp at hx
      rename_i hf
      have hf : cnt ≠ 511 := hf
      have hcv := (ofNat_toNat_of_lt (by omega : cnt < 511)).1
      have hnew : arenaAt (attach t cnt i x freshInternal) (BitVec.ofNat 9 cnt) = freshInternal := by
        unfold arenaAt; rw [hcv, attach_get x freshInternal hne, if_neg (fun e => hne e.symm), if_pos rfl]
      obtain ⟨h1, h2⟩ := ih (by rw [hcv]; omega) (by omega) (by rw [hnew]; cases y <;> rfl) hx
      refine ⟨by rw [h1]; simp only [List.length_cons]; omega, fun k => ?_⟩
      rw [h2]
      simp only [placedRecord, hcv, attach_get x freshInternal hne, List.getD_cons_zero, List.length_cons]
      by_cases e1 : k = cnt
      · subst e1
        rw [if_pos rfl, if_neg (fun e => hne e.symm), if_pos rfl, if_neg (fun e => hne e.symm), if_neg (Nat.lt_irrefl _), if_pos (by omega)]
        simp
      rw [if_neg e1]
      by_cases e2 : k = i.toNat
      · rw [if_pos e2, if_pos (by omega), if_pos e2]
      simp only [if_neg e2, if_neg e1]
      by_cases e3 : k < cnt
      · rw [if_pos (by omega), if_pos e3]
      rw [if_neg (by omega), if_neg e3]
      have e4 : k + 1 - cnt = (k + 1 - (cnt + 1)) + 1 := by omega
      rw [e4, List.getD_cons_succ]
      have e5 : cnt + 1 + (c.length + 1) = cnt + (c.length + 1 + 1) := by omega
      rw [e5]

/-- Everything the walk of an accepted code does to the arena, record by record: it follows the records that are there for the first m
bits, and places the others (R156). -/
theorem Trie.insertCode_layout {sym : Byte} {c : Bits} {i : NodeIx} {t t' : Table Node} {cnt cnt' : Nat} {depth : Nat → Nat}
    (h : Trie t cnt depth) (hi : i.toNat < cnt) (hk : (arenaAt t i).kind = .internal)
    (hx : Machine.insertCode sym c i t cnt = some (t', cnt')) :
    ∃ m j, m < c.length ∧ follow t i (c.take m) = some j ∧ j.toNat < cnt ∧ cnt' = cnt + (c.length - m) ∧
      ∀ k, Table.get Node.blank t' k = placedRecord t cnt j sym (c.drop m) k := by
  have hs := h.size
  induction c generalizing i with
  | nil => simp [Machine.insertCode] at hx
  | cons x c ih =>
    by_cases hb : (arenaAt t i).branch x = Config.nil
    · obtain ⟨h1, h2⟩ := insertCode_place hi hs hb hx
      exact ⟨0, i, by simp, rfl, hi, h1, h2⟩
    cases c with
    | nil => simp [Machine.insertCode, hb] at hx
    | cons y c =>
      rw [Machine.insertCode, if_neg hb] at hx
      split at hx
      · simp at hx
      rename_i hl
      have hc := (h.child i.toNat x hk hb).1
      have hkb : (arenaAt t ((arenaAt t i).branch x)).kind = .internal := (h.kinds _ hc).resolve_right hl
      obtain ⟨m, j, h1, h2, hj, h3, h4⟩ := ih hc hkb hx
      have hin : i ≠ Config.nil := by rintro rfl; simp [Config.nil] at hi; omega
      refine ⟨m + 1, j, by simp only [List.length_cons] at h1 ⊢; omega, ?_, hj, ?_, h4⟩
      · rw [List.take_succ_cons, follow, if_neg hin, if_pos hk]; exact h2
      · rw [h3]; simp only [List.length_cons]; omega

/-- The records the walk adds are counted by the prefixes of the code that no path spells yet. -/
theorem Trie.missing_eq {t : Table Node} {cnt : Nat} {depth : Nat → Nat} (h : Trie t cnt depth) {i : NodeIx} (hi : i.toNat < cnt)
    {c : Bits} (f : Nat → Bool) (hf : ∀ j < c.length, f j = true ↔ ¬ NodeAt t i (c.take (j + 1))) :
    missing t i c = ((List.range c.length).filter f).length := by
  induction c generalizing i f with
  | nil => rfl
  | cons x c ih =>
    have hs := h.size
    have hin : i ≠ Config.nil := by rintro rfl; simp [Config.nil] at hi; omega
    by_cases hb : (arenaAt t i).branch x = Config.nil
    · have hall : ∀ j ∈ List.range (x :: c).length, f j = true := by
        intro j hj
        rw [hf j (List.mem_range.1 hj), List.take_succ_cons, nodeAt_cons, hb]
        exact fun hn => not_nodeAt_nil _ _ hn.2.2
      rw [missing, if_pos hb, List.filter_eq_self.2 hall]
      simp
    · have hk : (arenaAt t i).kind = .internal := by
        rcases h.kinds _ hi with hk | hk
        · exact hk
        · refine absurd ?_ hb
          obtain ⟨h1, h2⟩ := h.leaf _ hk
          cases x
          · exact h1
          · exact h2
      have hstep : ∀ j, NodeAt t i ((x :: c).take (j + 1)) ↔ NodeAt t ((arenaAt t i).branch x) (c.take j) := by
        intro j; rw [List.take_succ_cons, nodeAt_cons]; simp [hin, hk]
      have h0 : f 0 = false := by
        rw [Bool.eq_false_iff]
        intro he
        rw [hf 0 (by simp), hstep] at he
        exact he ⟨_, by simp [follow], hb⟩
      rw [missing, if_neg hb, ih (i := (arenaAt t i).branch x) (h.child i.toNat x hk hb).1 (fun j => f (j + 1))
        (fun j hj => by rw [hf (j + 1) (by simpa using hj), hstep])]
      rw [List.length_cons, List.range_succ_eq_map, List.filter_cons_of_neg (by simp [h0]), List.filter_map, List.length_map]
      rfl

/-! ### The entries so far -/

theorem take_succ_ne_nil {c : Bits} {j : Nat} (hj : j < c.length) : c.take (j + 1) ≠ [] := by
  intro he
  have := congrArg List.length he
  rw [List.length_take, List.length_nil] at this
  omega

theorem all_not_prefix (es : List (Byte × Bits)) (d : Bits) :
    (es.all fun e => !d.isPrefixOf e.2) = true ↔ ¬ ∃ e ∈ es, d <+: e.2 := by
  simp only [List.all_eq_true, Bool.not_eq_true', ← Bool.not_eq_true, List.isPrefixOf_iff_prefix, not_exists, not_and]

/-- How many records a code adds to the tree of some entries: one for each prefix of it that is not a prefix of theirs (R156). -/
def newRecords (es : List (Byte × Bits)) (c : Bits) : Nat :=
  ((List.range c.length).filter fun j => es.all fun e => !(c.take (j + 1)).isPrefixOf e.2).length

/-- What holds of the temporary arena of Reconstruct after some entries, path by path (R156). -/
structure Grown (t : Table Node) (cnt : Nat) (es : List (Byte × Bits)) : Prop where
  trie : ∃ depth, Trie t cnt depth
  leaves : ∀ sym q, (sym, q) ∈ es ↔ LeafAt t 0#9 q sym
  nodes : ∀ q, NodeAt t 0#9 q ↔ q = [] ∨ ∃ e ∈ es, q <+: e.2
  reach : ∀ k : NodeIx, k.toNat < cnt → ∃ p, follow t 0#9 p = some k
  once : (es.map Prod.fst).Nodup
  listed : ∃ ps : List Bits, ps.Nodup ∧ ps.length = cnt ∧ ∀ q, q ∈ ps ↔ NodeAt t 0#9 q

theorem Grown.code_ne_nil {t : Table Node} {cnt : Nat} {es : List (Byte × Bits)} (h : Grown t cnt es) {e : Byte × Bits} (he : e ∈ es) :
    e.2 ≠ [] := by
  intro hn
  obtain ⟨depth, ht⟩ := h.trie
  have hl := (h.leaves e.1 e.2).1 he
  rw [hn, leafAt_nil] at hl
  have := ht.root.1
  have hl2 : (Table.get Node.blank t 0).kind = .leaf := hl.2.1
  rw [this] at hl2
  simp at hl2

/-- The paths of the entries so far with those a code adds: one for each record, old and new. -/
theorem Grown.listed_with {t : Table Node} {cnt : Nat} {es : List (Byte × Bits)} (h : Grown t cnt es) (c : Bits) :
    ∃ ps : List Bits, ps.Nodup ∧ ps.length = cnt + newRecords es c ∧
      ∀ q, q ∈ ps ↔ NodeAt t 0#9 q ∨ (q ≠ [] ∧ q <+: c) := by
  obtain ⟨ps, h1, h2, h3⟩ := h.listed
  have hnew : ∀ j, j < c.length → ((es.all fun e => !(c.take (j + 1)).isPrefixOf e.2) = true ↔ ¬ NodeAt t 0#9 (c.take (j + 1))) := by
    intro j hj
    rw [h.nodes, all_not_prefix, or_iff_right (take_succ_ne_nil hj)]
  refine ⟨ps ++ ((List.range c.length).filter fun j => es.all fun e => !(c.take (j + 1)).isPrefixOf e.2).map fun j => c.take (j + 1), ?_, ?_, ?_⟩
  · rw [List.nodup_append]
    refine ⟨h1, ?_, ?_⟩
    · refine List.Nodup.map_on ?_ (List.Nodup.filter _ List.nodup_range)
      intro a ha b hb hab
      have hal := List.mem_range.1 (List.mem_filter.1 ha).1
      have hbl := List.mem_range.1 (List.mem_filter.1 hb).1
      have := congrArg List.length hab
      simp only [List.length_take] at this
      omega
    · intro a ha b hb hab
      subst hab
      obtain ⟨j, hj, rfl⟩ := List.mem_map.1 hb
      obtain ⟨hj1, hj2⟩ := List.mem_filter.1 hj
      exact (hnew j (List.mem_range.1 hj1)).1 hj2 ((h3 _).1 ha)
  · simp [newRecords, h2]
  · intro q
    rw [List.mem_append, h3, List.mem_map]
    constructor
    · rintro (hq | ⟨j, hj, rfl⟩)
      · exact .inl hq
      · have hjl := List.mem_range.1 (List.mem_filter.1 hj).1
        exact .inr ⟨take_succ_ne_nil hjl, List.take_prefix _ _⟩
    · rintro (hq | ⟨hq0, hq⟩)
      · exact .inl hq
      · by_cases hn : NodeAt t 0#9 q
        · exact .inl hn
        · have hl : 0 < q.length := List.length_pos_iff.2 hq0
          have hle := hq.length_le
          have hqt : c.take (q.length - 1 + 1) = q := by
            rw [Nat.sub_add_cancel hl]; exact (List.prefix_iff_eq_take.1 hq).symm
          refine .inr ⟨q.length - 1, List.mem_filter.2 ⟨List.mem_range.2 (by omega), ?_⟩, hqt⟩
          have := (hnew (q.length - 1) (by omega)).2 (by rw [hqt]; exact hn)
          exact this

/-- Everything the next entry can do (R156). -/
theorem Grown.insert {t : Table Node} {cnt : Nat} {es : List (Byte × Bits)} (h : Grown t cnt es) (sym : Byte) {c : Bits} (hc0 : c ≠ [])
    (hcl : c.length ≤ 255) :
    (insertCode sym c 0#9 t cnt = none ↔ (∃ e ∈ es, e.2 <+: c ∨ c <+: e.2) ∨ 511 < cnt + newRecords es c) ∧
    ∀ t' cnt', insertCode sym c 0#9 t cnt = some (t', cnt') →
      cnt' = cnt + newRecords es c ∧ (sym ∉ es.map Prod.fst → Grown t' cnt' (es ++ [(sym, c)])) := by
  obtain ⟨depth, ht⟩ := h.trie
  have h0 : (0#9 : NodeIx).toNat = 0 := rfl
  have hi : (0#9 : NodeIx).toNat < cnt := by rw [h0]; exact ht.pos
  obtain ⟨s1, s2⟩ := ht.insertCode_spec (sym := sym) (c := c) hi ht.root.1 (by rw [h0, ht.root.2]; omega) hc0
  have hm : missing t 0#9 c = newRecords es c := by
    refine ht.missing_eq hi _ fun j hj => ?_
    rw [h.nodes, all_not_prefix, or_iff_right (take_succ_ne_nil hj)]
  have hcl' : Clash t 0#9 c ↔ ∃ e ∈ es, e.2 <+: c ∨ c <+: e.2 := by
    unfold Clash
    constructor
    · rintro (⟨d, s, _, hp, hl⟩ | hn)
      · exact ⟨(s, d), (h.leaves s d).2 hl, .inl hp⟩
      · rcases (h.nodes c).1 hn with hn | ⟨e, he, hp⟩
        · exact absurd hn hc0
        · exact ⟨e, he, .inr hp⟩
    · rintro ⟨e, he, hp | hp⟩
      · exact .inl ⟨e.2, e.1, h.code_ne_nil he, hp, (h.leaves _ _).1 he⟩
      · exact .inr ((h.nodes c).2 (.inr ⟨e, he, hp⟩))
  refine ⟨by rw [s1, hcl', hm], ?_⟩
  intro t' cnt' hx
  obtain ⟨r1, r2, r3, r4, r5⟩ := s2 t' cnt' hx
  rw [hm] at r1
  refine ⟨r1, fun hs => ?_⟩
  have hn' : ∀ q, NodeAt t' 0#9 q ↔ NodeAt t 0#9 q ∨ (q ≠ [] ∧ q <+: c) := by
    intro q
    rw [r4]
    refine or_congr Iff.rfl ⟨?_, ?_⟩
    · rintro ⟨p, d, hp, hd, hd', rfl⟩
      rw [ht.follow_root.1 hp]
      exact ⟨hd, hd'⟩
    · rintro ⟨h1, h2⟩
      exact ⟨[], q, rfl, h1, h2, rfl⟩
  refine
    { trie := r2, leaves := ?_, nodes := ?_, reach := r5 h.reach, once := ?_, listed := ?_ }
  · intro s q
    rw [r3, List.mem_append, h.leaves, List.mem_singleton, Prod.mk.injEq]
    refine or_congr Iff.rfl (and_congr Iff.rfl ⟨?_, ?_⟩)
    · rintro rfl; exact ⟨[], rfl, rfl⟩
    · rintro ⟨p, hp, rfl⟩; rw [ht.follow_root.1 hp]; rfl
  · intro q
    rw [hn', h.nodes]
    simp only [List.mem_append, List.mem_singleton, or_and_right, exists_or, exists_eq_left]
    by_cases hq : q = []
    · simp [hq]
    · simp [hq]
  · rw [List.map_append, List.nodup_append]
    refine ⟨h.once, by simp, ?_⟩
    intro a ha b hb hab
    simp only [List.map_cons, List.map_nil, List.mem_singleton] at hb
    subst hab
    subst hb
    exact hs ha
  · obtain ⟨ps, p1, p2, p3⟩ := h.listed_with c
    exact ⟨ps, p1, by rw [p2, r1], fun q => by rw [p3, hn']⟩

/-- Where the records of an accepted entry are (R156). -/
theorem Grown.layout {t t' : Table Node} {cnt cnt' : Nat} {es : List (Byte × Bits)} (h : Grown t cnt es) {sym : Byte} {c : Bits} (hc0 : c ≠ [])
    (hcl : c.length ≤ 255) (hx : insertCode sym c 0#9 t cnt = some (t', cnt')) :
    0 < newRecords es c ∧ newRecords es c ≤ c.length ∧ ∃ j, follow t 0#9 (c.take (c.length - newRecords es c)) = some j ∧
      j.toNat < cnt ∧ ∀ k, Table.get Node.blank t' k = placedRecord t cnt j sym (c.drop (c.length - newRecords es c)) k := by
  obtain ⟨depth, ht⟩ := h.trie
  obtain ⟨m, j, h1, h2, hj, h3, h4⟩ := ht.insertCode_layout (i := 0#9) ht.pos ht.root.1 hx
  have hn := ((h.insert sym hc0 hcl).2 _ _ hx).1
  have hm : c.length - newRecords es c = m := by omega
  exact ⟨by omega, by omega, j, by rw [hm]; exact h2, hj, by rw [hm]; exact h4⟩

/-- Before the first entry the tree is the bare root (R156). -/
theorem grown_start : Grown (Table.set Node.blank [] 0 freshInternal) 1 [] := by
  have hg : ∀ k, Table.get Node.blank (Table.set Node.blank [] 0 freshInternal) k = if k = 0 then freshInternal else Node.blank := by
    intro k; rw [table_get_set]; rfl
  have hb : ∀ k y, (arenaAt (Table.set Node.blank [] 0 freshInternal) k).branch y = Config.nil := by
    intro k y; unfold arenaAt; rw [hg]; split <;> cases y <;> rfl
  have h0 : arenaAt (Table.set Node.blank [] 0 freshInternal) 0#9 = freshInternal := rfl
  have hn : ∀ q, NodeAt (Table.set Node.blank [] 0 freshInternal) 0#9 q ↔ q = [] := by
    intro q
    cases q with
    | nil => exact iff_of_true ⟨0#9, rfl, by decide⟩ rfl
    | cons x q =>
      rw [nodeAt_cons, hb]
      exact iff_of_false (fun h => not_nodeAt_nil _ _ h.2.2) (by simp)
  refine
    { trie := ⟨_, trie_start⟩, leaves := ?_, nodes := by intro q; rw [hn]; simp, reach := ?_, once := List.nodup_nil
      listed := ⟨[[]], by simp, rfl, by intro q; rw [hn]; simp⟩ }
  · intro s q
    simp only [List.not_mem_nil, false_iff]
    intro hl
    have hq := (hn q).1 hl.nodeAt
    subst hq
    rw [leafAt_nil, h0] at hl
    exact absurd hl.2.1 (by decide)
  · intro k hk
    exact ⟨[], by simp only [follow, Option.some.injEq]; apply BitVec.eq_of_toNat_eq; simp; omega⟩

/-! ### All entries -/

/-- Reconstruct runs through its entries in order (R156). -/
theorem reconstructFrom_append (es fs : List (Byte × Bits)) (e : Nat) (seen : List Byte) (t : Table Node) (cnt : Nat) :
    reconstructFrom (es ++ fs) e seen t cnt =
      match reconstructFrom es e seen t cnt with
      | .error err => .error err
      | .ok (t', cnt') => reconstructFrom fs (e + es.length) ((es.map Prod.fst).reverse ++ seen) t' cnt' := by
  induction es generalizing e seen t cnt with
  | nil => rfl
  | cons a es ih =>
    obtain ⟨sym, c⟩ := a
    simp only [List.cons_append, reconstructFrom]
    split
    · rfl
    · split
      · rfl
      · rw [ih]; simp [Nat.add_assoc, Nat.add_comm]

/-- Everything one more entry can do to a Reconstruct that has gone well: it is refused, with its own index, exactly on a symbol
that came before, a clash with an earlier code, or for want of room (R156). -/
theorem reconstruct_snoc {es : List (Byte × Bits)} {t : Table Node} {cnt : Nat} (hr : reconstruct es = .ok (t, cnt)) (sym : Byte) (c : Bits)
    (fs : List (Byte × Bits)) :
    reconstruct (es ++ (sym, c) :: fs) =
      if sym ∈ es.map Prod.fst then .error (.hdrTree, es.length)
      else match insertCode sym c 0#9 t cnt with
        | none => .error (.hdrTree, es.length)
        | some (t', cnt') => reconstructFrom fs (es.length + 1) (sym :: (es.map Prod.fst).reverse) t' cnt' := by
  unfold reconstruct at hr ⊢
  rw [reconstructFrom_append, hr]
  dsimp only
  rw [List.append_nil, Nat.zero_add]
  exact if_congr List.mem_reverse rfl rfl

/-- An entry that Reconstruct accepts after others: one record per new prefix (R156). -/
theorem Grown.snoc {es : List (Byte × Bits)} {t : Table Node} {cnt : Nat} (h : Grown t cnt es) (hr : reconstruct es = .ok (t, cnt))
    {sym : Byte} {c : Bits} (hc0 : c ≠ []) (hcl : c.length ≤ 255) (hs : sym ∉ es.map Prod.fst)
    (hc : ¬ ((∃ e ∈ es, e.2 <+: c ∨ c <+: e.2) ∨ 511 < cnt + newRecords es c)) :
    ∃ t', reconstruct (es ++ [(sym, c)]) = .ok (t', cnt + newRecords es c) ∧ Grown t' (cnt + newRecords es c) (es ++ [(sym, c)]) ∧
      insertCode sym c 0#9 t cnt = some (t', cnt + newRecords es c) := by
  obtain ⟨h1, h2⟩ := h.insert sym hc0 hcl
  rw [reconstruct_snoc hr, if_neg hs]
  cases hi : insertCode sym c 0#9 t cnt with
  | none => exact absurd (h1.1 hi) hc
  | some r =>
    obtain ⟨t', cnt'⟩ := r
    obtain ⟨rfl, hg⟩ := h2 _ _ hi
    exact ⟨t', rfl, hg hs, rfl⟩

/-- The arena that Reconstruct answers, path by path, for codes of 1 to 255 bits (R156). -/
theorem reconstruct_grown {es : List (Byte × Bits)} {t : Table Node} {cnt : Nat} (hl : ∀ e ∈ es, e.2 ≠ [] ∧ e.2.length ≤ 255)
    (hr : reconstruct es = .ok (t, cnt)) : Grown t cnt es := by
  induction es using List.reverseRecOn generalizing t cnt with
  | nil =>
    simp only [reconstruct, reconstructFrom, Except.ok.injEq, Prod.mk.injEq] at hr
    obtain ⟨rfl, rfl⟩ := hr
    exact grown_start
  | append_singleton es a ih =>
    obtain ⟨sym, c⟩ := a
    cases h1 : reconstruct es with
    | error err =>
      unfold reconstruct at h1 hr
      rw [reconstructFrom_append, h1] at hr
      simp at hr
    | ok tc =>
      obtain ⟨t1, cnt1⟩ := tc
      have hg := ih (fun e he => hl e (by simp [he])) h1
      rw [reconstruct_snoc h1] at hr
      obtain ⟨hc0, hcl⟩ := hl (sym, c) (by simp)
      split at hr
      · simp at hr
      rename_i hs
      split at hr
      · simp at hr
      rename_i t2 cnt2 hi
      simp only [reconstructFrom, Except.ok.injEq, Prod.mk.injEq] at hr
      obtain ⟨rfl, rfl⟩ := hr
      exact ((hg.insert sym hc0 hcl).2 _ _ hi).2 hs

/-- No symbol is in two leaves of it (R156, R130). -/
theorem Grown.symbolsOnce {t : Table Node} {cnt : Nat} {es : List (Byte × Bits)} (h : Grown t cnt es) : SymbolsOnce t := by
  obtain ⟨depth, ht⟩ := h.trie
  have hlt : ∀ i : NodeIx, (arenaAt t i).kind = .leaf → i.toNat < cnt := by
    intro i hi
    by_contra hc
    unfold arenaAt at hi
    rw [ht.blank _ (by omega)] at hi
    simp [Node.blank] at hi
  have hs := ht.size
  have hnil : ∀ i : NodeIx, i.toNat < cnt → i ≠ Config.nil := by rintro i hi rfl; simp [Config.nil] at hi; omega
  intro i j hi hj he
  obtain ⟨p, hp⟩ := h.reach i (hlt i hi)
  obtain ⟨q, hq⟩ := h.reach j (hlt j hj)
  have m1 := (h.leaves _ _).2 ⟨i, hp, hnil i (hlt i hi), hi, rfl⟩
  have m2 := (h.leaves _ _).2 ⟨j, hq, hnil j (hlt j hj), hj, rfl⟩
  rw [he] at m1
  have hpq : p = q := congrArg Prod.snd (List.inj_on_of_nodup_map h.once m1 m2 rfl)
  rw [hpq, hq] at hp
  exact (Option.some.inj hp).symm

/-- GenCodes of the reconstructed tree gives the entries back (R131, R156). -/
theorem Grown.genCodes {t : Table Node} {cnt : Nat} {es : List (Byte × Bits)} (h : Grown t cnt es) :
    Machine.genCodes t 0#9 = .ok (codesOf es) := by
  obtain ⟨depth, ht⟩ := h.trie
  obtain ⟨c, hc⟩ := ht.good.generates
  refine genCodes_eq_codesOf hc h.leaves fun sym p q hp hq => ?_
  exact congrArg Prod.snd (List.inj_on_of_nodup_map h.once hp hq rfl)

/-- The codes of an unshared tree on which GenCodes ends reconstruct, in any order (R160). -/
theorem reconstruct_of_tree {arena : Table Node} {root : NodeIx} {c : CodeTable} (hu : Unshared arena) (hg : genCodes arena root = .ok c)
    {es : List (Byte × Bits)} (hm : ∀ e ∈ es, e.2 ≠ [] ∧ LeafAt arena root e.2 e.1) (hn : (es.map Prod.fst).Nodup) :
    ∃ t cnt, reconstruct es = .ok (t, cnt) := by
  obtain ⟨hroot, hl, -⟩ := genCodes_paths hg
  have hlen : ∀ e ∈ es, e.2 ≠ [] ∧ e.2.length ≤ 255 := fun e he => ⟨(hm e he).1, hl _ (hm e he).2.nodeAt⟩
  induction es using List.reverseRecOn with
  | nil => exact ⟨_, _, rfl⟩
  | append_singleton es a ih =>
    obtain ⟨sym, d⟩ := a
    have hn' := hn
    rw [List.map_append, List.nodup_append] at hn'
    obtain ⟨t, cnt, hr⟩ := ih (fun e he => hm e (by simp [he])) hn'.1 (fun e he => hlen e (by simp [he]))
    have hgr := reconstruct_grown (fun e he => hlen e (by simp [he])) hr
    obtain ⟨hd0, hdl⟩ := hlen (sym, d) (by simp)
    obtain ⟨_, hld⟩ := hm (sym, d) (by simp)
    have hs : sym ∉ es.map Prod.fst := fun hs => hn'.2.2 sym hs sym (by simp) rfl
    have hnone : insertCode sym d 0#9 t cnt ≠ none := by
      rw [Ne, (hgr.insert sym hd0 hdl).1]
      rintro (⟨e, he, hp⟩ | hlt)
      · obtain ⟨_, hle⟩ := hm e (by simp [he])
        have heq : e.2 = d := by
          rcases hp with hp | hp
          · obtain ⟨j, hj, _⟩ := id hld; exact hle.maximal hj hp
          · obtain ⟨j, hj, _⟩ := id hle; exact (hld.maximal hj hp).symm
        rw [heq] at hle
        exact hs (List.mem_map.2 ⟨e, he, hle.sym_eq hld⟩)
      · obtain ⟨ps, p1, p2, p3⟩ := hgr.listed_with d
        have hps : ∀ q ∈ ps, ∃ j, follow arena root q = some j ∧ j ≠ Config.nil := by
          intro q hq
          have hpre : q = [] ∨ ∃ e ∈ es ++ [(sym, d)], q <+: e.2 := by
            rcases (p3 q).1 hq with hq | ⟨_, hq⟩
            · rcases (hgr.nodes q).1 hq with hq | ⟨e, he, hq⟩
              · exact .inl hq
              · exact .inr ⟨e, by simp [he], hq⟩
            · exact .inr ⟨(sym, d), by simp, hq⟩
          rcases hpre with rfl | ⟨e, he, r, hr'⟩
          · exact ⟨root, rfl, hroot⟩
          · obtain ⟨j, hj, hjn, _⟩ := (hm e he).2
            rw [← hr', follow_append] at hj
            cases hf : follow arena root q with
            | none => rw [hf] at hj; simp at hj
            | some k =>
              refine ⟨k, rfl, ?_⟩
              rintro rfl
              rw [hf] at hj
              exact follow_from_nil hjn hj
        have hnd : (Config.nil :: ps.map fun q => (follow arena root q).getD Config.nil).Nodup := by
          rw [List.nodup_cons]
          refine ⟨?_, ?_⟩
          · intro hmem
            obtain ⟨q, hq, hqn⟩ := List.mem_map.1 hmem
            obtain ⟨j, hj, hjn⟩ := hps q hq
            rw [hj] at hqn
            exact hjn hqn
          · refine List.Nodup.map_on ?_ p1
            intro q hq r hr' he
            obtain ⟨j, hj, hjn⟩ := hps q hq
            obtain ⟨k, hk, _⟩ := hps r hr'
            rw [hj, hk] at he
            simp only [Option.getD_some] at he
            rw [← he] at hk
            exact follow_unique hu hg hj hk hjn
        have hnat := hnd.map (fun (a b : NodeIx) h => BitVec.eq_of_toNat_eq h)
        have hsub : (Config.nil :: ps.map fun q => (follow arena root q).getD Config.nil).map BitVec.toNat ⊆ List.range 512 := by
          intro k hk
          obtain ⟨i, _, rfl⟩ := List.mem_map.1 hk
          exact List.mem_range.2 i.isLt
        have hcard := (hnat.subperm hsub).length_le
        simp only [List.length_map, List.length_cons, List.length_range, p2] at hcard
        have hlt' : 511 < cnt + newRecords es d := hlt
        omega
    obtain ⟨⟨t', cnt'⟩, hi⟩ := Option.ne_none_iff_exists'.1 hnone
    refine ⟨t', cnt', ?_⟩
    rw [reconstruct_snoc hr, if_neg hs, hi]
    rfl

/-! ### The leaves of a valid tree -/

/-- A leaf below the root. -/
def HasLeaf (arena : Table Node) (root : NodeIx) : Prop :=
  ∃ p i, follow arena root p = some i ∧ i ≠ Config.nil ∧ (arenaAt arena i).kind = .leaf

theorem Grown.hasLeaf {t : Table Node} {cnt : Nat} {es : List (Byte × Bits)} (h : Grown t cnt es) (hn : es ≠ []) : HasLeaf t 0#9 := by
  obtain ⟨e, es', rfl⟩ := List.exists_cons_of_ne_nil hn
  obtain ⟨i, h1, h2, h3, _⟩ := (h.leaves e.1 e.2).1 (by simp)
  exact ⟨_, i, h1, h2, h3⟩

/-- ParseEntries of a block that is not empty gives an entry (R155). -/
theorem parseFrom_ne_nil {p : Nat} {o : Option OpenEntry} {bs : List Byte} {es : List (Byte × Bits)} (h : parseFrom p o bs = .ok es)
    (hb : bs ≠ [] ∨ o ≠ none) : es ≠ [] := by
  induction bs generalizing p o with
  | nil => cases o <;> simp [parseFrom] at h hb
  | cons b bs ih =>
    cases o with
    | none => exact ih h (.inr (by simp))
    | some o =>
      simp only [parseFrom] at h
      split at h
      · split at h
        · simp at h
        · split at h
          · simp at h
          · simp only [Except.ok.injEq] at h; rw [← h]; simp
      · exact ih h (.inr (by simp))

/-- The leaves of the tree that the merge loop leaves (R110, R117). -/
theorem Forest.leafLaws {n total : Nat} {leaf : Nat → Node} {e : Nat × Nat} {next : Nat} {t : Table Node} {rank : Nat → Nat}
    (h : Forest n total leaf [e] next t rank) (hn : 2 ≤ n) (hd : ∀ i j, i < n → j < n → (leaf i).sym = (leaf j).sym → i = j) :
    SymbolsOnce t ∧ HasLeaf t (BitVec.ofNat 9 (next - 1)) := by
  obtain ⟨hnext, -⟩ := h.good hn
  have hs := h.size
  have hleaf : ∀ i : NodeIx, (arenaAt t i).kind = .leaf → i.toNat < n := by
    intro i hi
    by_contra hc
    unfold arenaAt at hi
    by_cases h2 : i.toNat < next
    · rw [(h.inner _ (by omega) h2).1] at hi; simp at hi
    · rw [h.blank _ (by omega)] at hi; simp [Node.blank] at hi
  refine ⟨?_, ?_⟩
  · intro i j hi hj he
    have h1 := hleaf i hi
    have h2 := hleaf j hj
    unfold arenaAt at he
    rw [h.leaves _ h1, h.leaves _ h2] at he
    exact BitVec.eq_of_toNat_eq (hd _ _ h1 h2 he)
  · have down : ∀ (k : Nat) (i : NodeIx), i.toNat = k → k < next → HasLeaf t i := by
      intro k
      induction k using Nat.strong_induction_on with
      | _ k ih =>
        intro i hik hk
        have hin : i ≠ Config.nil := by rintro rfl; simp [Config.nil] at hik; omega
        by_cases hkn : k < n
        · refine ⟨[], i, rfl, hin, ?_⟩
          unfold arenaAt
          rw [hik, h.leaves k hkn]
          exact (h.isLeaf k hkn).1
        · obtain ⟨hint, _⟩ := h.inner k (by omega) hk
          obtain ⟨c1, _, _⟩ := h.child k false (by omega) hk
          have hint' : (arenaAt t i).kind = .internal := by unfold arenaAt; rw [hik]; exact hint
          obtain ⟨p, j, h1, h2, h3⟩ := ih _ c1 ((arenaAt t i).branch false) (by unfold arenaAt; rw [hik]) (by omega)
          exact ⟨false :: p, j, by simpa only [follow, if_neg hin, if_pos hint'] using h1, h2, h3⟩
    exact down (next - 1) _ (by rw [BitVec.toNat_ofNat]; omega) (by omega)

/-- The leaves of every tree that BuildTree answers: each key in one, and at least one (R110, R111, R117). -/
theorem buildTree_leaves {freq : Table Word} {b : Built} (h : buildTree (sortedKeys freq) = some b) :
    SymbolsOnce b.arena ∧ HasLeaf b.arena (BitVec.ofNat 9 b.root) := by
  have hl := sortedKeys_length freq
  have hnd := sortedKeys_nodup freq
  have h256 : ∀ e ∈ sortedKeys freq, e.2 < 256 := fun e he => sortedKeys_lt he
  unfold buildTree at h
  split at h
  · simp at h
  · rename_i k _
    cases h
    have hg : ∀ i : NodeIx, (arenaAt (buildDegenerate k).arena i).kind = .leaf → i = 0#9 := by
      intro i hi
      have e0 : i.toNat = 0 ↔ i = 0#9 := by rw [← BitVec.toNat_inj]; rfl
      simp only [arenaAt, buildDegenerate, table_get_set, table_get_nil] at hi
      split at hi
      · simp [internalNode] at hi
      · split at hi
        · simp at hi
        · split at hi
          · rename_i h0; exact e0.1 h0
          · simp [Node.blank] at hi
    refine ⟨fun i j hi hj _ => (hg i hi).trans (hg j hj).symm, [false], 0#9, ?_, by decide, ?_⟩
    · rfl
    · rfl
  · rename_i k k' rest hk
    cases h
    rw [hk] at hl hnd h256
    have hs := Forest.start (ks := k :: k' :: rest) (by simp) hl
    have hq : (leafQueue (k :: k' :: rest) 0).length ≤ (k :: k' :: rest).length + 1 := by
      rw [leafQueue_map]; simp
    obtain ⟨e, rank', hf⟩ := hs.mergeAll (k :: k' :: rest).length hq
    refine hf.leafLaws (by simp) ?_
    intro i j hi hj he
    generalize hL : k :: k' :: rest = L at hi hj he hnd h256
    have hi' := h256 _ (List.getElem_mem hi)
    have hj' := h256 _ (List.getElem_mem hj)
    simp only [leafNode, List.getElem?_eq_getElem hi, List.getElem?_eq_getElem hj, Option.getD_some] at he
    have hc := congrArg BitVec.toNat he
    rw [BitVec.toNat_ofNat, BitVec.toNat_ofNat, Nat.mod_eq_of_lt hi', Nat.mod_eq_of_lt hj'] at hc
    exact (List.Nodup.getElem_inj_iff (i := i) (j := j) (hi := by simpa using hi) (hj := by simpa using hj) hnd).1 (by simpa using hc)

/-- An effect leaves the tree, or commits one whose leaves are as R117 and R156 say. -/
theorem effect_leaves {i : Instr} {s t : State} (h : Effect i s t) :
    (t.node = s.node ∧ t.treeValid = s.treeValid ∧ t.root = s.root) ∨ (SymbolsOnce t.node ∧ HasLeaf t.node t.root) := by
  cases h with
  | build hi b hb _ => exact .inr (buildTree_leaves hb)
  | load hi u hu block es arena cnt hp hr _ hb =>
    have hg := reconstruct_grown (parseFrom_lengths hp) hr
    exact .inr ⟨hg.symbolsOnce, hg.hasLeaf (parseFrom_ne_nil hp (.inl hb))⟩
  | read hi t ht => obtain ⟨h1, -⟩ := ht; rw [h1]; exact .inl ⟨rfl, rfl, rfl⟩
  | push hi t hd ht => rw [ht]; exact .inl ⟨rfl, rfl, rfl⟩
  | close hi t ho ht => rcases ht with rfl | rfl <;> exact .inl ⟨rfl, rfl, rfl⟩
  | walk hi t ht => rw [ht]; exact .inl ⟨rfl, rfl, rfl⟩
  | _ => exact .inl ⟨rfl, rfl, rfl⟩

/-- An effect keeps a valid code table the one GenCodes gives the tree (R131, R157, R275). -/
theorem effect_codes {i : Instr} {s t : State} (h : Effect i s t) (hs : s.CodesCurrent) : t.CodesCurrent := by
  cases h with
  | build hi b hb _ => exact nofun
  | generate hi c hc _ _ => exact fun _ => hc
  | load hi u hu block es arena cnt hp hr _ => exact fun _ => (reconstruct_grown (parseFrom_lengths hp) hr).genCodes
  | read hi t ht => obtain ⟨h1, -⟩ := ht; rw [h1]; exact hs
  | push hi t hd ht => rw [ht]; exact hs
  | close hi t ho ht => rcases ht with rfl | rfl <;> exact hs
  | walk hi t ht => rw [ht]; exact hs
  | _ => exact hs

end Sys2Proof.Machine
end

