-- ==== Sys2Proof/Laws/HeaderSize.lean ====
section
/-! SUPPORT. The length of the serialized code table (R152): how many records a walk of GenCodes visits, how long the codes can be
together, and that a header never exceeds HDR_MAX. -/

namespace Sys2Proof.Machine

/-- The paths to the records that Visit visits, in its order (R130). -/
def nodePaths (arena : Table Node) : Nat → NodeIx → Bits → List Bits
  | 0, _, _ => []
  | fuel + 1, i, p =>
    p :: match (arenaAt arena i).kind with
      | .internal =>
        (if (arenaAt arena i).zero = Config.nil then [] else nodePaths arena fuel (arenaAt arena i).zero (p ++ [false])) ++
          (if (arenaAt arena i).one = Config.nil then [] else nodePaths arena fuel (arenaAt arena i).one (p ++ [true]))
      | .leaf => []
      | .placeholder => []
      | .empty => []

/-- They are distinct, and each leads to a record. -/
theorem nodePaths_spec {arena : Table Node} {fuel : Nat} {i : NodeIx} {p : Bits} (hi : i ≠ Config.nil) :
    (nodePaths arena fuel i p).Nodup ∧ ∀ r ∈ nodePaths arena fuel i p, ∃ q, r = p ++ q ∧ NodeAt arena i q := by
  induction fuel generalizing i p with
  | zero => simp [nodePaths]
  | succ fuel ih =>
    have hself : ∃ q, p = p ++ q ∧ NodeAt arena i q := ⟨[], by simp, i, rfl, hi⟩
    cases hk : (arenaAt arena i).kind with
    | internal =>
      have branch : ∀ x, (if (arenaAt arena i).branch x = Config.nil then []
            else nodePaths arena fuel ((arenaAt arena i).branch x) (p ++ [x])).Nodup ∧
          ∀ r ∈ (if (arenaAt arena i).branch x = Config.nil then [] else nodePaths arena fuel ((arenaAt arena i).branch x) (p ++ [x])),
            ∃ q, r = p ++ x :: q ∧ NodeAt arena i (x :: q) := by
        intro x
        split
        · simp
        · rename_i hn
          obtain ⟨h1, h2⟩ := ih (p := p ++ [x]) hn
          refine ⟨h1, fun r hr => ?_⟩
          obtain ⟨q, rfl, hq⟩ := h2 r hr
          exact ⟨q, by simp, nodeAt_cons.2 ⟨hi, hk, hq⟩⟩
      obtain ⟨z1, z2⟩ := branch false
      obtain ⟨o1, o2⟩ := branch true
      have hnp : nodePaths arena (fuel + 1) i p = p ::
          ((if (arenaAt arena i).branch false = Config.nil then [] else nodePaths arena fuel ((arenaAt arena i).branch false) (p ++ [false])) ++
            (if (arenaAt arena i).branch true = Config.nil then [] else nodePaths arena fuel ((arenaAt arena i).branch true) (p ++ [true]))) := by
        simp only [nodePaths, hk, Node.branch, Bool.false_eq_true, if_false, if_true]
      rw [hnp, List.nodup_cons, List.nodup_append, List.mem_append]
      refine ⟨⟨?_, z1, o1, ?_⟩, ?_⟩
      · rintro (h | h)
        · obtain ⟨q, hq, _⟩ := z2 p h; simp at hq
        · obtain ⟨q, hq, _⟩ := o2 p h; simp at hq
      · rintro a ha b hb rfl
        obtain ⟨q, hq, _⟩ := z2 a ha
        obtain ⟨q', hq', _⟩ := o2 a hb
        simp [hq] at hq'
      · intro r hr
        rcases List.mem_cons.1 hr with rfl | hr
        · exact hself
        rcases List.mem_append.1 hr with hr | hr
        · obtain ⟨q, h1, h2⟩ := z2 r hr; exact ⟨_, h1, h2⟩
        · obtain ⟨q, h1, h2⟩ := o2 r hr; exact ⟨_, h1, h2⟩
    | leaf => simp only [nodePaths, hk]; simpa using ⟨i, rfl, hi⟩
    | placeholder => simp only [nodePaths, hk]; simpa using ⟨i, rfl, hi⟩
    | empty => simp only [nodePaths, hk]; simpa using ⟨i, rfl, hi⟩

/-- The visited records of an unshared arena are at most its 511 records. -/
theorem nodePaths_length {arena : Table Node} {root : NodeIx} {c : CodeTable} (hu : Unshared arena) (hg : genCodes arena root = .ok c)
    (fuel : Nat) : (nodePaths arena fuel root []).length ≤ 511 := by
  obtain ⟨hroot, -⟩ := genCodes_paths hg
  obtain ⟨hd, hm⟩ := nodePaths_spec (arena := arena) (fuel := fuel) (p := []) hroot
  have key : ∀ r ∈ nodePaths arena fuel root [], ∃ j, follow arena root r = some j ∧ j ≠ Config.nil := by
    intro r hr
    obtain ⟨q, rfl, hq⟩ := hm r hr
    exact hq
  have hnd : ((nodePaths arena fuel root []).map fun r => ((follow arena root r).getD Config.nil).toNat).Nodup := by
    refine List.Nodup.map_on ?_ hd
    intro a ha b hb hab
    obtain ⟨j, h1, h2⟩ := key a ha
    obtain ⟨k, h3, h4⟩ := key b hb
    rw [h1, h3] at hab
    have := BitVec.eq_of_toNat_eq hab
    simp only [Option.getD_some] at this
    subst this
    exact follow_unique hu hg h1 h3 h2
  have hsub : ((nodePaths arena fuel root []).map fun r => ((follow arena root r).getD Config.nil).toNat) ⊆ List.range 511 := by
    intro n hn
    obtain ⟨r, hr, rfl⟩ := List.mem_map.1 hn
    obtain ⟨j, h1, h2⟩ := key r hr
    rw [h1, Option.getD_some, List.mem_range]
    have : j.toNat ≠ 511 := fun h => h2 (BitVec.eq_of_toNat_eq h)
    have := j.isLt
    omega
  simpa using (hnd.subperm hsub).length_le

/-- How long the codes of a tree with so many records can be together (R152): with m leaves among N records, the lengths below the start
sum to at most mN - (3m² - 3m + 2) / 2. -/
theorem leafPaths_sum (arena : Table Node) (fuel : Nat) (i : NodeIx) (p : Bits) :
    ∃ m σ : Nat, (leafPaths arena fuel i p).length = m ∧ ((leafPaths arena fuel i p).map fun e => e.2.length).sum = σ + m * p.length ∧
      (m = 0 → σ = 0) ∧ (0 < m → 2 * m ≤ (nodePaths arena fuel i p).length + 1 ∧
        2 * σ + 2 + 3 * (m * m) ≤ 2 * (m * (nodePaths arena fuel i p).length) + 3 * m) := by
  induction fuel generalizing i p with
  | zero => exact ⟨0, 0, by simp [leafPaths]⟩
  | succ fuel ih =>
    cases hk : (arenaAt arena i).kind with
    | leaf => exact ⟨1, 0, by simp [leafPaths, nodePaths, hk]⟩
    | placeholder => exact ⟨0, 0, by simp [leafPaths, hk]⟩
    | empty => exact ⟨0, 0, by simp [leafPaths, hk]⟩
    | internal =>
      have branch : ∀ (c : NodeIx) (x : Bool), ∃ m σ n : Nat,
          (if c = Config.nil then [] else leafPaths arena fuel c (p ++ [x])).length = m ∧
          (((if c = Config.nil then [] else leafPaths arena fuel c (p ++ [x])).map fun e => e.2.length).sum = σ + m * (p.length + 1)) ∧
          (if c = Config.nil then [] else nodePaths arena fuel c (p ++ [x])).length = n ∧
          (m = 0 → σ = 0) ∧ (0 < m → 2 * m ≤ n + 1 ∧ 2 * σ + 2 + 3 * (m * m) ≤ 2 * (m * n) + 3 * m) := by
        intro c x
        split
        · exact ⟨0, 0, 0, by simp⟩
        · obtain ⟨m, σ, h1, h2, h3, h4⟩ := ih c (p ++ [x])
          exact ⟨m, σ, _, h1, by simpa using h2, rfl, h3, h4⟩
      obtain ⟨m0, σ0, n0, a1, a2, a3, a4, a5⟩ := branch (arenaAt arena i).zero false
      obtain ⟨m1, σ1, n1, b1, b2, b3, b4, b5⟩ := branch (arenaAt arena i).one true
      refine ⟨m0 + m1, σ0 + σ1 + m0 + m1, by simp only [leafPaths, hk, List.length_append, a1, b1], ?_, by omega, ?_⟩
      · simp only [leafPaths, hk, List.map_append, List.sum_append, a2, b2]; ring
      · simp only [nodePaths, hk, List.length_cons, List.length_append, a3, b3]
        intro hm
        rcases Nat.eq_zero_or_pos m0 with h0 | h0
        · subst h0
          obtain ⟨c1, c2⟩ := b5 (by omega)
          have := a4 rfl
          refine ⟨by omega, ?_⟩
          nlinarith [Nat.zero_le (m1 * n0)]
        rcases Nat.eq_zero_or_pos m1 with h1 | h1
        · subst h1
          obtain ⟨c1, c2⟩ := a5 h0
          have := b4 rfl
          refine ⟨by omega, ?_⟩
          nlinarith [Nat.zero_le (m0 * n1)]
        obtain ⟨c1, c2⟩ := a5 h0
        obtain ⟨d1, d2⟩ := b5 h1
        refine ⟨by omega, ?_⟩
        have e1 : m1 * (2 * m0) ≤ m1 * (n0 + 1) := Nat.mul_le_mul_left _ c1
        have e2 : m0 * (2 * m1) ≤ m0 * (n1 + 1) := Nat.mul_le_mul_left _ d1
        have e3 : m0 + m1 ≤ m0 * m1 + 1 := by
          obtain ⟨a, rfl⟩ := Nat.exists_eq_add_of_lt h0
          obtain ⟨b, rfl⟩ := Nat.exists_eq_add_of_lt h1
          nlinarith [Nat.zero_le (a * b)]
        nlinarith

/-! ### The serialized length -/

theorem entryBytes_length (sym : Byte) (c : Bits) : (entryBytes sym c).length = c.length + 2 := by simp [entryBytes]

/-- HDR_LEN after HC_SER is the sum over the coded symbols of CODE_LEN + 2 (R152). -/
theorem serialize_length (s : State) :
    s.serialize.length = ((symbols.filter fun b => s.codeLenAt b != 0#8).map fun b => (s.codeLenAt b).toNat + 2).sum := by
  simp [State.serialize, List.length_flatMap, entryBytes_length, State.codeOf]

/-- HC_SER never exceeds HDR_MAX on a code table that is its unshared tree's (R152). -/
theorem serialize_fits {s : State} (hu : Unshared s.node) (hg : genCodes s.node s.root = .ok ⟨s.codeLen, s.codeBits⟩) :
    s.serialize.length ≤ Config.hdrMax := by
  obtain ⟨-, hc, -, hmem⟩ := visit_eq hg
  have hN := nodePaths_length hu hg (Config.maxCodeLen + 1)
  obtain ⟨m, σ, h1, h2, h3, h4⟩ := leafPaths_sum s.node (Config.maxCodeLen + 1) s.root []
  have hsub : ((symbols.filter fun b => s.codeLenAt b != 0#8).map fun b => (b, s.codeBitsAt b)).Subperm
      (leafPaths s.node (Config.maxCodeLen + 1) s.root []) := by
    refine List.Nodup.subperm ?_ ?_
    · exact List.Nodup.map (fun a b h => (Prod.mk.inj h).1) (List.Nodup.filter _ (by decide +kernel))
    · intro e he
      obtain ⟨b, hb, rfl⟩ := List.mem_map.1 he
      rw [hmem]
      have := genCodes_leafAt hg (sym := b) (by simpa [State.codeLenAt] using (List.mem_filter.1 hb).2)
      exact ⟨_, rfl, this⟩
  have hsum : ((symbols.filter fun b => s.codeLenAt b != 0#8).map fun b => (s.codeLenAt b).toNat + 2).sum =
      ((((symbols.filter fun b => s.codeLenAt b != 0#8).map fun b => (b, s.codeBitsAt b))).map fun e => e.2.length + 2).sum := by
    rw [List.map_map]
    congr 1
    refine List.map_congr_left fun b _ => ?_
    have := genCodes_lengths hg b
    show _ = (s.codeBitsAt b).length + 2
    rw [State.codeBitsAt, this]; rfl
  rw [serialize_length, hsum]
  obtain ⟨l, hp, hl⟩ := hsub
  rw [← (hp.map _).sum_eq]
  have hle := (hl.map fun e : Byte × Bits => e.2.length + 2).sum_le_sum (fun _ _ => Nat.zero_le _)
  have hsplit : ∀ l : List (Byte × Bits), (l.map fun e => e.2.length + 2).sum = (l.map fun e => e.2.length).sum + 2 * l.length := by
    intro l
    induction l with
    | nil => rfl
    | cons a l ih => simp only [List.map_cons, List.sum_cons, List.length_cons, ih]; omega
  rw [hsplit (leafPaths _ _ _ _), h2, h1] at hle
  simp only [List.length_nil, Nat.mul_zero, Nat.add_zero] at hle
  simp only [Config.hdrMax]
  rcases Nat.eq_zero_or_pos m with hm | hm
  · have := h3 hm; omega
  · have hmN := Nat.mul_le_mul_left m hN
    have h5 := (h4 hm).2
    have h6 : 2 * σ + 4 * m ≤ 131070 := by nlinarith [sq_nonneg ((m : Int) - 171), h4 hm]
    omega

end Sys2Proof.Machine
end

