-- ==== Sys2Proof/Laws/PerInstr.lean ====
section
/-! SUPPORT. A family of statements per instruction, about its word: it carries the fixed bits of its own row of the opcode map
(30_encoding.md R75, R79). -/

namespace Sys2Proof.Laws.FixedBits

/-- The instruction's row is in the opcode map, and its word passes that row's mask test (R79). -/
def Statement (i : Instr) : Prop := rowOf i ∈ rows ∧ encode i &&& (rowOf i).format.mask = (rowOf i).pattern

theorem sreset : Statement .sreset := ⟨by simp [rowOf, rows], mask_encN _⟩
theorem rdStat : Statement .rdStat := ⟨by simp [rowOf, rows], mask_encN _⟩
theorem rdErrCmd : Statement .rdErrCmd := ⟨by simp [rowOf, rows], mask_encN _⟩
theorem rdInPos : Statement .rdInPos := ⟨by simp [rowOf, rows], mask_encN _⟩
theorem frqClr : Statement .frqClr := ⟨by simp [rowOf, rows], mask_encN _⟩
theorem frqAdd (sym : Byte) : Statement (.frqAdd sym) := ⟨by simp [rowOf, rows], mask_encS _ _⟩
theorem rdFreq (sym : Byte) : Statement (.rdFreq sym) := ⟨by simp [rowOf, rows], mask_encS _ _⟩
theorem tbBuild : Statement .tbBuild := ⟨by simp [rowOf, rows], mask_encN _⟩
theorem rdRoot : Statement .rdRoot := ⟨by simp [rowOf, rows], mask_encN _⟩
theorem rdNode (idx : NodeIx) : Statement (.rdNode idx) := ⟨by simp [rowOf, rows], mask_encI9 _ _⟩
theorem rdNwt (h : Bool) (idx : NodeIx) : Statement (.rdNwt h idx) := ⟨by simp [rowOf, rows], mask_encI9H _ _ _⟩
theorem cgGen : Statement .cgGen := ⟨by simp [rowOf, rows], mask_encN _⟩
theorem rdCLen (sym : Byte) : Statement (.rdCLen sym) := ⟨by simp [rowOf, rows], mask_encS _ _⟩
theorem rdCodeW (w : BitVec 3) (sym : Byte) : Statement (.rdCodeW w sym) := ⟨by simp [rowOf, rows], mask_encSW _ _ _⟩
theorem hcSer : Statement .hcSer := ⟨by simp [rowOf, rows], mask_encN _⟩
theorem hcLoad : Statement .hcLoad := ⟨by simp [rowOf, rows], mask_encN _⟩
theorem rdHdrLen : Statement .rdHdrLen := ⟨by simp [rowOf, rows], mask_encN _⟩
theorem rdHdrB (idx : BitVec 16) : Statement (.rdHdrB idx) := ⟨by simp [rowOf, rows], mask_encI16 _ _⟩
theorem bpOpen : Statement .bpOpen := ⟨by simp [rowOf, rows], mask_encN _⟩
theorem bpHdr : Statement .bpHdr := ⟨by simp [rowOf, rows], mask_encN _⟩
theorem bpIns (n : BitVec 5) (v : BitVec 16) : Statement (.bpIns n v) := ⟨by simp [rowOf, rows], mask_encB _ _ _⟩
theorem encSym (sym : Byte) : Statement (.encSym sym) := ⟨by simp [rowOf, rows], mask_encS _ _⟩
theorem encTerm : Statement .encTerm := ⟨by simp [rowOf, rows], mask_encN _⟩
theorem bpClose : Statement .bpClose := ⟨by simp [rowOf, rows], mask_encN _⟩
theorem brExt : Statement .brExt := ⟨by simp [rowOf, rows], mask_encN _⟩
theorem dwBit (b : Bool) : Statement (.dwBit b) := ⟨by simp [rowOf, rows], mask_encW _ _⟩
theorem decByte : Statement .decByte := ⟨by simp [rowOf, rows], mask_encN _⟩
theorem decEnd : Statement .decEnd := ⟨by simp [rowOf, rows], mask_encN _⟩

end Sys2Proof.Laws.FixedBits
end

