-- ==== Sys2Proof/Tests/Slice0.lean ====
section
/-! SUPPORT. Tests of one step each, their expected results taken from spec/95_test_vectors.md (named in each comment) or from a rule,
and a witness for the hypotheses of every statement of Certificates/Slice0/Obligations.lean. -/

open Sys2Proof Sys2Proof.Machine

namespace Sys2Proof.Tests

/-! ### States -/

/-- After the first pass over "aab" (95 L2.FA.1). -/
def counted : State := { State.reset with freq := [(3, 1#32), (97, 2#32), (98, 1#32)] }

/-- After TB_BUILD (95 L2.TB.1). -/
def built : State :=
  { counted with
    node := [(0, ⟨.leaf, 0x03#8, 511#9, 511#9, 1#64⟩), (1, ⟨.leaf, 0x62#8, 511#9, 511#9, 1#64⟩), (2, ⟨.leaf, 0x61#8, 511#9, 511#9, 2#64⟩),
      (3, ⟨.internal, 0#8, 0#9, 1#9, 2#64⟩), (4, ⟨.internal, 0#8, 2#9, 3#9, 4#64⟩)]
    nodeCnt := 5#10, root := 4#9, treeValid := true }

/-- After CG_GEN (95 L2.CG.1): a = "0", 03 = "10", b = "11". -/
def coded : State :=
  { built with
    codeLen := [(3, 2#8), (97, 1#8), (98, 2#8)], codeBits := [(3, [true, false]), (97, [false]), (98, [true, true])]
    codeValid := true }

/-- The block of 95 L2.HC.1. -/
def aabBlock : List Byte := [0x03#8, 0x31#8, 0x30#8, 0x1E#8, 0x61#8, 0x30#8, 0x1E#8, 0x62#8, 0x31#8, 0x31#8, 0x1E#8]

/-- After HC_SER (95 L2.HC.1). -/
def serialized : State :=
  { coded with
    hdr := [(0, 0x03#8), (1, 0x31#8), (2, 0x30#8), (3, 0x1E#8), (4, 0x61#8), (5, 0x30#8), (6, 0x1E#8), (7, 0x62#8), (8, 0x31#8), (9, 0x31#8),
      (10, 0x1E#8)]
    hdrLen := 11#16, hdrValid := true }

/-- After BP_OPEN. -/
def opened : State := { serialized with bpState := .opened }

/-- After BP_HDR (95 L2.BP.3), the header bytes left out of OUT. -/
def session : State := { serialized with bpState := .hdrDone }

/-- With the six bits of "aab" and its terminator pending (95 L2.BP.3). -/
def pending : State := { session with bb := [false, false, true, true, true, false], bbN := 6#3 }

/-- The file of "aab" (95 L2.HOST) bound as IN. -/
def fileBound : State := { State.reset with inp := [0x0B#8, 0#8, 0#8, 0#8] ++ aabBlock ++ [0x38#8] }

/-- A valid tree over that file, its header read (as 95 L2.BR.3, with the tree of L2.TB.1). -/
def decoding : State := { built with inp := fileBound.inp, inPos := 15#64 }

/-- In FAULT after a BP_HDR from reset (95 L2.CTL.2). -/
def faulted : State := { State.reset with err := 0x02#8, errCmd := 0x51000000#32 }

/-- The response of a next state. -/
def answer : Host.Outcome State Fault Refusal → Option (Byte × Word)
  | .next s => some (s.rspCode, s.rspData)
  | .fault _ => none
  | .refused _ => none

/-- A value of a next state. -/
def after {α : Type} (f : State → α) : Host.Outcome State Fault Refusal → Option α
  | .next s => some (f s)
  | .fault _ => none
  | .refused _ => none

/-! ### WellFormed and the decoder -/

/-- R78: n = 0, n = 17 and v = 2^n are ill-formed; n = 1 and n = 16 at their largest values are well-formed. -/
theorem test_wellFormed : (Instr.bpIns 0#5 0#16).wellFormed = false ∧ (Instr.bpIns 17#5 0#16).wellFormed = false ∧
    (Instr.bpIns 3#5 8#16).wellFormed = false ∧ (Instr.bpIns 1#5 1#16).wellFormed = true ∧
    (Instr.bpIns 16#5 0xFFFF#16).wellFormed = true ∧ (Instr.encSym 0x03#8).wellFormed = true := by decide

/-- R71, R75: a word of every family, bit by bit: opcode, reserved zeros, fields. -/
theorem test_decode_control : decode 0b00000001000000000000000000000000#32 = .ok .sreset ∧
    decode 0b00000010000000000000000000000000#32 = .ok .rdStat ∧ decode 0b00000011000000000000000000000000#32 = .ok .rdErrCmd ∧
    decode 0b00000100000000000000000000000000#32 = .ok .rdInPos := by decide

theorem test_decode_frequency : decode 0b00010000000000000000000000000000#32 = .ok .frqClr ∧
    decode 0b00010001000000000000000001100001#32 = .ok (.frqAdd 0x61#8) ∧
    decode 0b00010010000000000000000011111111#32 = .ok (.rdFreq 0xFF#8) := by decide

theorem test_decode_tree : decode 0b00100000000000000000000000000000#32 = .ok .tbBuild ∧
    decode 0b00100001000000000000000000000000#32 = .ok .rdRoot ∧ decode 0b00100010000000000000000100000100#32 = .ok (.rdNode 260#9) ∧
    decode 0b00100011000000000000001000000100#32 = .ok (.rdNwt true 4#9) ∧
    decode 0b00100011000000000000000111111111#32 = .ok (.rdNwt false 511#9) := by decide

theorem test_decode_code : decode 0b00110000000000000000000000000000#32 = .ok .cgGen ∧
    decode 0b00110001000000000000000000000011#32 = .ok (.rdCLen 0x03#8) ∧
    decode 0b00110010000000000000000101100010#32 = .ok (.rdCodeW 1#3 0x62#8) := by decide

theorem test_decode_header : decode 0b01000000000000000000000000000000#32 = .ok .hcSer ∧
    decode 0b01000001000000000000000000000000#32 = .ok .hcLoad ∧ decode 0b01000010000000000000000000000000#32 = .ok .rdHdrLen ∧
    decode 0b01000011000000001000000000001010#32 = .ok (.rdHdrB 0x800A#16) := by decide

theorem test_decode_packer : decode 0b01010000000000000000000000000000#32 = .ok .bpOpen ∧
    decode 0b01010001000000000000000000000000#32 = .ok .bpHdr ∧ decode 0b01010010000100001111111111111111#32 = .ok (.bpIns 16#5 0xFFFF#16) ∧
    decode 0b01010011000000000000000001100001#32 = .ok (.encSym 0x61#8) ∧ decode 0b01010100000000000000000000000000#32 = .ok .encTerm ∧
    decode 0b01010101000000000000000000000000#32 = .ok .bpClose := by decide

theorem test_decode_reader : decode 0b01100000000000000000000000000000#32 = .ok .brExt ∧
    decode 0b01100001000000000000000000000001#32 = .ok (.dwBit true) ∧ decode 0b01100001000000000000000000000000#32 = .ok (.dwBit false) ∧
    decode 0b01100010000000000000000000000000#32 = .ok .decByte ∧ decode 0b01100011000000000000000000000000#32 = .ok .decEnd := by decide

/-- 95 L2.ENC.1 to L2.ENC.12. -/
theorem test_decode_illegal : decode 0x00000000#32 = .error .unknownOpcode ∧ decode 0x05000000#32 = .error .unknownOpcode ∧
    decode 0xFF000000#32 = .error .unknownOpcode ∧ decode 0x10000001#32 = .error .reservedBits ∧ decode 0x20000001#32 = .error .reservedBits ∧
    decode 0x22000200#32 = .error .reservedBits ∧ decode 0x32000800#32 = .error .reservedBits ∧ decode 0x43010000#32 = .error .reservedBits ∧
    decode 0x61000002#32 = .error .reservedBits ∧ decode 0x52000000#32 = .error .bpInsCount ∧ decode 0x52110000#32 = .error .bpInsCount ∧
    decode 0x52030008#32 = .error .bpInsValue := by decide

/-- 95 L2.ENC, the legal encodings. -/
theorem test_encode : encode (.frqAdd 0x61#8) = 0x11000061#32 ∧ encode (.rdCodeW 1#3 0x62#8) = 0x32000162#32 ∧
    encode (.rdNode 4#9) = 0x22000004#32 ∧ encode (.rdNwt true 4#9) = 0x23000204#32 ∧ encode (.rdHdrB 10#16) = 0x4300000A#32 ∧
    encode (.bpIns 16#5 0xFFFF#16) = 0x5210FFFF#32 ∧ encode (.dwBit true) = 0x61000001#32 := by decide

/-- The command placed is the one the next step runs; no two rows of the map share an opcode. -/
theorem test_fetch : answer (step (State.reset.withFetchWord 32 0x11000061)) = some (0x00#8, 1#32) ∧
    decodeTableWord 32 0x11000061 = some (.frqAdd 0x61#8) ∧ decodeTableWord 32 0 = none := by decide +kernel

theorem test_rows_distinct : rows.Pairwise (fun r q => r.opcode ≠ q.opcode) ∧ rows.length = 28 := by decide

/-! ### Control -/

/-- L2.CTL.4. -/
theorem test_sreset : answer (exec .sreset faulted) = some (0x00#8, 0#32) ∧ after State.status (exec .sreset faulted) = some 0#32 := by
  decide

/-- L2.CTL.2, L2.BP.3. -/
theorem test_rdStat : answer (exec .rdStat faulted) = some (0x00#8, 0x00000102#32) ∧
    answer (exec .rdStat pending) = some (0x00#8, 0x0381AE00#32) := by decide

/-- L2.CTL.2. -/
theorem test_rdErrCmd : answer (exec .rdErrCmd faulted) = some (0x00#8, 0x51000000#32) := by decide

/-- L2.HC.3, L2.CTL.3. -/
theorem test_rdInPos : answer (exec .rdInPos decoding) = some (0x00#8, 0x0000000F#32) ∧
    answer (exec .rdInPos faulted) = some (0xFF#8, 0#32) := by decide

/-- L2.CTL.5: an illegal word in FAULT is reported and does not overwrite ERR. -/
theorem test_illegal_in_fault : answer (step (faulted.present 0#32)) = some (0x01#8, 0#32) ∧
    after (fun s => (s.err, s.errCmd)) (step (faulted.present 0#32)) = some (0x02#8, 0x51000000#32) := by decide

/-- R271: the reset input. -/
theorem test_reset_input : after (fun s => (s.treeValid, s.inPos, s.inp.length)) (step { decoding with port := [.reset] }) = some (false, 0#64, 16) := by
  decide

/-! ### Frequency -/

/-- L2.FA.3. -/
theorem test_frqClr : after (fun s => (s.freqAt 0x61#8, s.freqAt 0x03#8)) (exec .frqClr counted) = some (0#32, 1#32) := by decide

/-- L2.FA.4. -/
theorem test_frqAdd_terminator : answer (exec (.frqAdd 0x03#8) State.reset) = some (0x0B#8, 0x03#32) ∧
    after (fun s => (s.err, s.errCmd)) (exec (.frqAdd 0x03#8) State.reset) = some (0x0B#8, 0x11000003#32) := by decide

/-- L2.FA.5, L2.FA.6: the largest count, and one past it. -/
theorem test_frqAdd_limit :
    answer (exec (.frqAdd 0x61#8) { State.reset with freq := [(97, 0xFFFFFFFE#32)] }) = some (0x00#8, 0xFFFFFFFF#32) ∧
    answer (exec (.frqAdd 0x61#8) { State.reset with freq := [(97, 0xFFFFFFFF#32)] }) = some (0x0D#8, 0x61#32) := by decide

/-- L2.FA.2. -/
theorem test_rdFreq : answer (exec (.rdFreq 0x61#8) counted) = some (0x00#8, 2#32) ∧ answer (exec (.rdFreq 0x7A#8) counted) = some (0x00#8, 0#32) := by
  decide

/-! ### Tree builder -/

/-- L2.TB.1: the whole arena. -/
theorem test_tbBuild : answer (exec .tbBuild counted) = some (0x00#8, 0x00050004#32) ∧
    after State.node (exec .tbBuild counted) = some built.node := by decide +kernel

/-- L2.TB.5: a sum above 32 bits. L2.TB.4: ties between a leaf and an internal node. -/
theorem test_tbBuild_wide : after (fun s => s.nodeAt 2#9)
      (exec .tbBuild { State.reset with freq := [(3, 1#32), (97, 0xFFFFFFFF#32)] }) =
    some ⟨.internal, 0#8, 0#9, 1#9, 0x100000000#64⟩ ∧
    after (fun s => [6#9, 7#9, 8#9, 9#9, 10#9].map fun i => ((s.nodeAt i).zero.toNat, (s.nodeAt i).one.toNat, (s.nodeAt i).weight.toNat))
      (exec .tbBuild { State.reset with freq := [(3, 1#32), (97, 5#32), (98, 2#32), (99, 1#32), (100, 1#32), (114, 2#32)] }) =
    some [(0, 1, 2), (2, 3, 3), (4, 6, 4), (7, 8, 7), (5, 9, 12)] := by decide +kernel

/-- L2.TB.1. -/
theorem test_rdRoot : answer (exec .rdRoot built) = some (0x00#8, 0x80050004#32) := by decide

/-- L2.TB.1. -/
theorem test_rdNode : answer (exec (.rdNode 4#9) built) = some (0x00#8, 0x08040300#32) ∧
    answer (exec (.rdNode 5#9) built) = some (0x00#8, 0x03FFFF00#32) := by decide

/-- L2.TB.6. -/
theorem test_rdNode_range : answer (exec (.rdNode 511#9) State.reset) = some (0x03#8, 0x000001FF#32) := by decide

/-- L2.TB.1, L2.TB.5. -/
theorem test_rdNwt : answer (exec (.rdNwt false 4#9) built) = some (0x00#8, 4#32) ∧ answer (exec (.rdNwt true 4#9) built) = some (0x00#8, 0#32) ∧
    answer (exec (.rdNwt true 2#9) { State.reset with node := [(2, ⟨.internal, 0#8, 0#9, 1#9, 0x100000000#64⟩)] }) = some (0x00#8, 1#32) := by
  decide

/-! ### Code generator -/

/-- L2.CG.1. -/
theorem test_cgGen : answer (exec .cgGen built) = some (0x00#8, 3#32) ∧
    after (fun s => (s.codeLen, s.codeBits)) (exec .cgGen built) = some (coded.codeLen, coded.codeBits) := by decide +kernel

/-- L2.CG.4. -/
theorem test_cgGen_noTree : answer (exec .cgGen State.reset) = some (0x02#8, 0x100#32) := by decide

/-- L2.CG.1. -/
theorem test_rdCLen : answer (exec (.rdCLen 0x03#8) coded) = some (0x00#8, 2#32) ∧ answer (exec (.rdCLen 0x7A#8) coded) = some (0x00#8, 0#32) := by
  decide

/-- L2.CG.1, and L2.CG.5 with its 40 ones: the second word holds the last 8. -/
theorem test_rdCodeW : answer (exec (.rdCodeW 0#3 0x03#8) coded) = some (0x00#8, 0x80000000#32) ∧
    answer (exec (.rdCodeW 0#3 0x62#8) coded) = some (0x00#8, 0xC0000000#32) ∧
    answer (exec (.rdCodeW 1#3 0x03#8) { State.reset with codeLen := [(3, 40#8)], codeBits := [(3, List.replicate 40 true)] }) =
      some (0x00#8, 0xFF000000#32) := by decide +kernel

/-! ### Header codec -/

/-- L2.HC.1. -/
theorem test_hcSer : answer (exec .hcSer coded) = some (0x00#8, 0x0000000B#32) ∧
    after (fun s => (s.hdr, s.hdrLen)) (exec .hcSer coded) = some (serialized.hdr, 11#16) := by decide +kernel

/-- L2.HC.2. -/
theorem test_hcSer_noCodes : answer (exec .hcSer built) = some (0x02#8, 0x200#32) := by decide

/-- L2.HC.3: the response, IN_POS, the root and the arena in creation order. -/
theorem test_hcLoad : answer (exec .hcLoad fileBound) = some (0x00#8, 0x0003000B#32) ∧
    after (fun s => (s.inPos, s.root, s.nodeCnt, s.codeLen)) (exec .hcLoad fileBound) = some (15#64, 0#9, 5#10, coded.codeLen) ∧
    after State.node (exec .hcLoad fileBound) =
      some [(0, ⟨.internal, 0#8, 3#9, 1#9, 0#64⟩), (1, ⟨.internal, 0#8, 2#9, 4#9, 0#64⟩), (2, ⟨.leaf, 0x03#8, 511#9, 511#9, 0#64⟩),
        (3, ⟨.leaf, 0x61#8, 511#9, 511#9, 0#64⟩), (4, ⟨.leaf, 0x62#8, 511#9, 511#9, 0#64⟩)] := by decide +kernel

/-- L2.HC.6 b, d, f, g, l: the five kinds of a load error, with IN_POS where the read stopped. -/
theorem test_hcLoad_errors :
    (answer (exec .hcLoad { State.reset with inp := [2#8, 0#8] }) = some (0x05#8, 2#32)) ∧
    (answer (exec .hcLoad { State.reset with inp := [0#8, 0#8, 1#8, 0#8] }) = some (0x06#8, 0x00010000#32)) ∧
    (answer (exec .hcLoad { State.reset with inp := [2#8, 0#8, 0#8, 0#8, 0x03#8, 0x30#8] }) = some (0x05#8, 0#32)) ∧
    (answer (exec .hcLoad { State.reset with inp := [2#8, 0#8, 0#8, 0#8, 0x03#8, 0x1E#8] }) = some (0x06#8, 0#32)) ∧
    (answer (exec .hcLoad { State.reset with
      inp := [7#8, 0#8, 0#8, 0#8, 0x61#8, 0x30#8, 0x31#8, 0x1E#8, 0x03#8, 0x30#8, 0x1E#8] }) = some (0x07#8, 1#32)) := by decide +kernel

/-- L2.HC.1. -/
theorem test_rdHdrLen : answer (exec .rdHdrLen serialized) = some (0x00#8, 0x8000000B#32) := by decide

/-- L2.HC.1. -/
theorem test_rdHdrB : answer (exec (.rdHdrB 10#16) serialized) = some (0x00#8, 0x1E#32) ∧
    answer (exec (.rdHdrB 11#16) serialized) = some (0x03#8, 0x0B#32) := by decide

/-! ### Bit packer -/

/-- L2.BP.1. -/
theorem test_bpOpen : after State.bpState (exec .bpOpen State.reset) = some .opened ∧
    answer (exec .bpOpen opened) = some (0x02#8, 1#32) := by decide

/-- L2.BP.3: the header part of the file. -/
theorem test_bpHdr : answer (exec .bpHdr opened) = some (0x00#8, 0x0000000F#32) ∧
    after State.out (exec .bpHdr opened) = some ([0x0B#8, 0#8, 0#8, 0#8] ++ aabBlock) := by decide

/-- L2.BP.7: the fifth write fails. -/
theorem test_bpHdr_io : answer (exec .bpHdr { opened with oracle := ⟨[], [4]⟩ }) = some (0x04#8, 0x03#32) ∧
    after (fun s => (s.out, s.status)) (exec .bpHdr { opened with oracle := ⟨[], [4]⟩ }) =
      some ([0x0B#8, 0#8, 0#8, 0#8], 0x00001F04#32) := by decide

/-- L2.BP.2: 16 bits after 7 pending ones. -/
theorem test_bpIns : answer (exec (.bpIns 7#5 0x55#16) session) = some (0x00#8, 7#32) ∧
    (answer (exec (.bpIns 16#5 0xFFFF#16) { session with bb := [true, false, true, false, true, false, true], bbN := 7#3 }) =
      some (0x00#8, 0x00000207#32)) ∧
    (after State.out (exec (.bpIns 16#5 0xFFFF#16) { session with bb := [true, false, true, false, true, false, true], bbN := 7#3 }) =
      some [0xAB#8, 0xFF#8]) := by decide

/-- R170, R244: the second full byte fails, so its bits and those after it are lost. -/
theorem test_bpIns_io : after (fun s => (s.rspCode, s.rspData, s.out, s.bb, s.bbN)) (exec (.bpIns 16#5 0xFFFF#16)
      { session with bb := [true, false, true, false, true, false, true], bbN := 7#3, oracle := ⟨[], [1]⟩ }) =
    some (0x04#8, 0xFF#32, [0xAB#8], [], 0#3) := by decide

/-- L2.BP.3, after two symbols. -/
theorem test_encSym : answer (exec (.encSym 0x62#8) { session with bb := [false, false], bbN := 2#3 }) = some (0x00#8, 4#32) ∧
    answer (exec (.encSym 0x03#8) session) = some (0x0B#8, 0x03#32) := by decide

/-- L2.BP.5. -/
theorem test_encSym_noCode : answer (exec (.encSym 0x63#8) session) = some (0x0C#8, 0x63#32) := by decide

/-- L2.BP.3, the last code. -/
theorem test_encTerm : answer (exec .encTerm { session with bb := [false, false, true, true], bbN := 4#3 }) = some (0x00#8, 6#32) ∧
    after State.bb (exec .encTerm { session with bb := [false, false, true, true], bbN := 4#3 }) = some pending.bb := by decide

/-- L2.BP.3: the pad byte. -/
theorem test_bpClose : answer (exec .bpClose pending) = some (0x00#8, 0x102#32) ∧ after State.out (exec .bpClose pending) = some [0x38#8] := by
  decide

/-- L2.BP.7: the pad byte fails, and the session is released anyway. -/
theorem test_bpClose_io : answer (exec .bpClose { pending with oracle := ⟨[], [0]⟩ }) = some (0x04#8, 0x38#32) ∧
    after State.status (exec .bpClose { pending with oracle := ⟨[], [0]⟩ }) = some 0x00000F04#32 := by decide

/-! ### Reader and walker -/

/-- L2.BR.1. -/
theorem test_brExt : answer (exec .brExt { State.reset with inp := [0x0B#8] }) = some (0x00#8, 0x0B#32) ∧
    answer (exec .brExt { State.reset with inp := [0x0B#8], inPos := 1#64 }) = some (0x00#8, 0x100#32) := by decide

/-- L2.BR.2: a symbol, a step inside, the terminator. -/
theorem test_dwBit : answer (exec (.dwBit false) decoding) = some (0x00#8, 0x161#32) ∧
    answer (exec (.dwBit true) decoding) = some (0x00#8, 0x200#32) ∧
    answer (exec (.dwBit false) { decoding with wState := .atInternal, wCur := 3#9 }) = some (0x00#8, 0x400#32) := by decide

/-- L2.BR.7, L2.BR.9: a bad path, and a symbol lost to a failing write. -/
theorem test_dwBit_errors :
    (answer (exec (.dwBit true) { State.reset with
      node := [(0, ⟨.leaf, 0x03#8, 511#9, 511#9, 1#64⟩), (1, ⟨.placeholder, 0#8, 511#9, 511#9, 0#64⟩), (2, ⟨.internal, 0#8, 0#9, 1#9, 1#64⟩)],
      nodeCnt := 3#10, root := 2#9, treeValid := true }) = some (0x09#8, 5#32)) ∧
    answer (exec (.dwBit false) { decoding with oracle := ⟨[], [0]⟩ }) = some (0x04#8, 0x61#32) := by decide

/-- L2.BR.3; R194, R244: the write of its third symbol fails. -/
theorem test_decByte : answer (exec .decByte decoding) = some (0x00#8, 0x00004638#32) ∧
    after (fun s => (s.out, s.inPos)) (exec .decByte decoding) = some ([0x61#8, 0x61#8, 0x62#8], 16#64) ∧
    after (fun s => (s.rspCode, s.rspData, s.out, s.inPos, s.wState)) (exec .decByte { decoding with oracle := ⟨[], [2]⟩ }) =
      some (0x04#8, 0x62#32, [0x61#8, 0x61#8], 16#64, .atRoot) := by decide

/-- L2.BR.8: no byte is read on a sequence error. -/
theorem test_decByte_noTree : answer (exec .decByte { State.reset with inp := [0#8] }) = some (0x02#8, 0x100#32) ∧
    after State.inPos (exec .decByte { State.reset with inp := [0#8] }) = some 0#64 := by decide

/-- L2.BR.3, L2.BR.4. -/
theorem test_decEnd : answer (exec .decEnd { decoding with wState := .terminated }) = some (0x00#8, 0#32) ∧
    answer (exec .decEnd { decoding with wState := .atInternal, wCur := 3#9 }) = some (0x08#8, 1#32) := by decide

/-- L1.6, P5: the host's procedures on the empty input, and on one that holds the terminator's byte. -/
theorem test_compress :
    (match compress [] State.reset with
      | .success s => s.out == [0x03#8, 0#8, 0#8, 0#8, 0x03#8, 0x30#8, 0x1E#8, 0#8]
      | .failure _ => false
      | .stopped => false) = true ∧
    (match compress [0x61#8, 0x03#8] State.reset with
      | .success _ => false
      | .failure s => s.rspData == 0x10B#32 && s.errCmd == 0x11000003#32 && s.out == []
      | .stopped => false) = true := by decide +kernel

/-! ### Witnesses: states and operands that meet the hypotheses of each statement, clause by clause -/

/-- A finite check of all arena indices. -/
theorem forall_nodeIx {p : NodeIx → Prop} (h : ∀ k : Fin 512, p (BitVec.ofFin k)) (i : NodeIx) : p i := h i.toFin

/-- The records of `built` are unshared (R25). -/
theorem built_unshared : Unshared built.node := by
  have hi : ∀ i : NodeIx, (arenaAt built.node i).kind = .internal → i = 3#9 ∨ i = 4#9 := by
    refine forall_nodeIx ?_
    decide +kernel
  intro i j x y h1 h2 h3 _
  rcases hi i h1 with rfl | rfl <;> rcases hi j h2 with rfl | rfl <;> revert h3 <;> cases x <;> cases y <;> decide +kernel

/-- The leaves of `built` have symbols of their own (R117). -/
theorem built_symbols : SymbolsOnce built.node := by
  have hi : ∀ i : NodeIx, (arenaAt built.node i).kind = .leaf → i = 0#9 ∨ i = 1#9 ∨ i = 2#9 := by
    refine forall_nodeIx ?_
    decide +kernel
  intro i j h1 h2 h3
  rcases hi i h1 with rfl | rfl | rfl <;> rcases hi j h2 with rfl | rfl | rfl <;> revert h3 <;> decide

/-- `built` has a leaf on branch 0 of its root. -/
theorem built_leaf : built.TreeHasLeaf := fun _ => ⟨[false], 2#9, by decide⟩

theorem built_rooted : built.TreeRooted := by
  intro _
  refine ⟨by decide, by decide, forall_nodeIx ?_⟩
  decide +kernel

/-- GenCodes gives `built` the codes of `coded` (95 L2.CG.1). -/
theorem built_codes : genCodes built.node built.root = .ok ⟨coded.codeLen, coded.codeBits⟩ := by decide +kernel

/-- The codes of `coded` are those of its tree (R27). -/
theorem coded_current : coded.CodesCurrent := fun _ => built_codes

theorem coded_stages : coded.StagesOrdered := by unfold State.StagesOrdered; decide

theorem witness_DecodeOfEncode : (Instr.bpIns 16#5 0xFFFF#16).wellFormed = true ∧ (Instr.rdNode 511#9).wellFormed = true := by decide

theorem witness_EncodeOfDecode : decode 0x5210FFFF#32 = .ok (.bpIns 16#5 0xFFFF#16) := by decide

theorem witness_StepRunsDecodedCommand :
    ({ State.reset with port := [.command 0x01000000#32, .reset] } : State).port = .command 0x01000000#32 :: [.reset] ∧
    decode 0x01000000#32 = .ok .sreset := by decide

theorem witness_IllegalWordRaises :
    ({ State.reset with port := [.command 0#32] } : State).port = .command 0#32 :: [] ∧ decode 0#32 = .error .unknownOpcode ∧
    faulted.err ≠ 0x00#8 ∧ State.reset.err = 0x00#8 := by decide

theorem witness_HostActsStep :
    ({ State.reset with port := [.reset] } : State).port = .reset :: [] ∧
    ({ State.reset with port := [.bindIn [0x03#8]] } : State).port = .bindIn [0x03#8] :: [] ∧
    ({ State.reset with port := [.bindOut []] } : State).port = .bindOut [] :: [] ∧ State.reset.bpState = .idle ∧ State.reset.port = [] := by
  decide

theorem witness_FaultGateIgnores : Instr.tbBuild.wellFormed = true ∧ faulted.err ≠ 0x00#8 ∧
    Instr.tbBuild ∉ [Instr.sreset, .rdStat, .rdErrCmd, .bpClose] := by decide

theorem witness_RaiseCapturesFirst : State.reset.err = 0x00#8 ∧ faulted.err ≠ 0x00#8 := by decide

theorem witness_FirstErrorNamesCommand : State.reset.err = 0x00#8 ∧ ∃ t, exec .bpHdr State.reset = .next t ∧ t.err ≠ 0x00#8 :=
  ⟨rfl, _, rfl, by decide⟩

theorem witness_FaultIsSticky : Instr.rdStat ≠ .sreset ∧ faulted.err ≠ 0x00#8 ∧ ∃ t, exec .rdStat faulted = .next t := ⟨by decide, by decide, _, rfl⟩

theorem witness_FaultFreezesBlock : ({ pending with err := 0x02#8 } : State).err ≠ 0x00#8 ∧
    (∃ t, exec .bpClose { pending with err := 0x02#8 } = .next t) ∧ ∃ t, exec .tbBuild { pending with err := 0x02#8 } = .next t :=
  ⟨by decide, ⟨_, rfl⟩, _, rfl⟩

theorem witness_SequenceErrors : session.err = 0x00#8 ∧ session.bpState ≠ .idle ∧ State.reset.bpState = .idle ∧
    State.reset.treeValid = false ∧ State.reset.codeValid = false ∧ opened.bpState ≠ .hdrDone ∧
    (Instr.bpIns 1#5 1#16).wellFormed = true ∧ ({ built with bpState := .hdrDone } : State).codeValid = false ∧
    session.bpState ≠ .opened ∧ ({ coded with bpState := .opened } : State).hdrValid = false := by decide

theorem witness_OperandErrors : State.reset.err = 0x00#8 ∧ (0x61#8 : Byte) ≠ 0x03#8 ∧
    ({ State.reset with freq := [(97, 0xFFFFFFFF#32)] } : State).freqAt 0x61#8 = 0xFFFFFFFF#32 ∧
    (∀ sym, ({ State.reset with freq := [] } : State).freqAt sym = 0#32) ∧ serialized.hdrLen.toNat ≤ (11#16).toNat ∧
    session.bpState = .hdrDone ∧ session.codeValid = true ∧ session.codeLenAt 0x63#8 = 0#8 ∧
    ({ session with codeLen := [] } : State).codeLenAt 0x03#8 = 0#8 ∧ decoding.treeValid = true ∧ decoding.wState = .atRoot ∧
    ({ decoding with wState := .atInternal, wCur := 3#9 } : State).wState = .atInternal :=
  ⟨rfl, by decide, by decide, fun _ => rfl, by decide, rfl, rfl, by decide, rfl, rfl, rfl, rfl⟩

theorem witness_StatusWordFields : pending.bpState ≠ .idle ∧ pending.bbN ≠ 0#3 ∧ pending.out.length ∉ pending.oracle.writeFails := by decide

theorem witness_ReadBackData : serialized.err = 0x00#8 ∧ (10#16 : BitVec 16).toNat < serialized.hdrLen.toNat := by decide

theorem witness_RdNodeFields : built.err = 0x00#8 ∧ (510#9 : NodeIx) ≠ 511#9 ∧ (0#9 : NodeIx) ≠ 511#9 := by decide

theorem witness_RdNwtHalves : built.err = 0x00#8 ∧ (510#9 : NodeIx) ≠ 511#9 := by decide

theorem witness_RdCodeWBits : coded.err = 0x00#8 := by decide

theorem witness_CountingCommands : State.reset.err = 0x00#8 ∧ (0xFF#8 : Byte) ≠ 0x03#8 ∧
    ({ State.reset with freq := [(255, 0xFFFFFFFE#32)] } : State).freqAt 0xFF#8 ≠ 0xFFFFFFFF#32 := by decide

theorem witness_CountsAreOccurrences : (∀ c ∈ ([0x61#8, 0x61#8, 0x62#8] : List Byte), c ≠ 0x03#8) ∧
    ∀ c : Byte, ([0x61#8, 0x61#8, 0x62#8] : List Byte).count c < 2 ^ 32 :=
  ⟨by decide, fun _ => Nat.lt_of_le_of_lt List.count_le_length (by decide)⟩

theorem witness_RoundMergesTwoLeast : ([(1, 0), (1, 1), (2, 2)] : List (Nat × Nat)).Pairwise (fun a b => keyLe a b = true) ∧
    2 ≤ ([(1, 0), (1, 1), (2, 2)] : List (Nat × Nat)).length := by decide

/-- In `built`, of n = 3 leaves: when record 3 is made, 0 and 1 come first and the record 2 is left; when record 4 is made, 2 comes
before 3 at equal weight. -/
theorem witness_BuiltTreeShape : 2 ≤ (sortedKeys counted.freq).length ∧ (sortedKeys [(3, 1#32), (97, 1#32)]).length = 2 ∧
    (sortedKeys counted.freq)[2]? = some (2, 97) ∧ (3 ≤ 4 ∧ 4 < 2 * 3 - 1) ∧ Unmerged built.node 3 3 2 ∧ Unmerged built.node 3 4 2 ∧
    Unmerged built.node 3 4 3 ∧ KeyBefore built.node 0 1 ∧ KeyBefore built.node 1 2 ∧ KeyBefore built.node 2 3 := by
  have h : ∀ i, i = 2 ∨ i = 3 → Unmerged built.node 3 4 i := by
    rintro i (rfl | rfl) <;> refine ⟨by decide, fun j h1 h2 => ?_⟩ <;> obtain rfl : j = 3 := by omega
    all_goals decide
  exact ⟨by decide +kernel, by decide +kernel, by decide +kernel, by decide, ⟨by decide, fun j h1 h2 => absurd h1 (by omega)⟩,
    h 2 (.inl rfl), h 3 (.inr rfl), by unfold KeyBefore; decide, by unfold KeyBefore; decide, by unfold KeyBefore; decide⟩

theorem witness_TbBuildResult : counted.err = 0x00#8 ∧ counted.bpState = .idle ∧ counted.TerminatorCounted ∧ State.reset.TerminatorCounted :=
  ⟨rfl, rfl, by unfold State.TerminatorCounted; decide, by unfold State.TerminatorCounted; decide⟩

theorem witness_CgGenResult : built.err = 0x00#8 ∧ built.bpState = .idle ∧ built.treeValid = true ∧
    genCodes built.node built.root = .ok ⟨coded.codeLen, coded.codeBits⟩ := ⟨rfl, rfl, rfl, built_codes⟩

theorem witness_CodesArePaths : genCodes built.node built.root = .ok ⟨coded.codeLen, coded.codeBits⟩ ∧
    Table.get [] coded.codeBits (0x62#8).toNat ≠ [] ∧ [true, true] ≠ ([] : Bits) ∧ follow built.node built.root [true, true] = some 1#9 ∧
    (1#9 : NodeIx) ≠ Config.nil ∧ (arenaAt built.node 1#9).kind = .leaf ∧ Unshared built.node ∧ SymbolsOnce built.node :=
  ⟨built_codes, by decide, by decide, by decide, by decide, by decide, built_unshared, built_symbols⟩

/-- The codes of `coded` are prefix-free (95 L2.CG.1). -/
theorem coded_prefixFree : coded.PrefixFree := by
  have hc : ∀ sym : Byte, coded.codeLenAt sym ≠ 0#8 → sym = 0x03#8 ∨ sym = 0x61#8 ∨ sym = 0x62#8 := by decide +kernel
  intro _ a b hab ha hb
  rcases hc a ha with rfl | rfl | rfl <;> rcases hc b hb with rfl | rfl | rfl <;> first | exact absurd rfl hab | decide

theorem witness_CodesPrefixFree :
    (∃ t, exec .cgGen built = .next t ∧ t.rspCode = 0x00#8 ∧ t.codeLenAt 0x61#8 ≠ 0#8 ∧ t.codeLenAt 0x62#8 ≠ 0#8) ∧
    (0x61#8 : Byte) ≠ 0x62#8 ∧ (coded.present 0x41000000#32).PrefixFree ∧ coded.codeValid = true ∧
    ∃ t, step (coded.present 0x41000000#32) = .next t :=
  ⟨⟨_, rfl, rfl, by decide +kernel, by decide +kernel⟩, by decide, coded_prefixFree, rfl, _, rfl⟩

theorem witness_HcSerResult : coded.err = 0x00#8 ∧ coded.bpState = .idle ∧ coded.codeValid = true ∧ coded.serialize.length ≤ 65535 ∧
    coded.CodesCurrent ∧ coded.StagesOrdered ∧ coded.ChildrenUnshared :=
  ⟨rfl, rfl, rfl, by decide +kernel, coded_current, coded_stages, fun _ => built_unshared⟩

theorem witness_HcLoadCommits : fileBound.err = 0x00#8 ∧ fileBound.bpState = .idle ∧
    (∀ j < 4 + aabBlock.length, fileBound.inPos.toNat + j ∉ fileBound.oracle.readFails) ∧
    fileBound.inPos.toNat + 4 + aabBlock.length < 2 ^ 64 ∧
    fileBound.inp.drop fileBound.inPos.toNat = le32 (BitVec.ofNat 32 aabBlock.length) ++ aabBlock ++ [0x38#8] ∧
    0 < aabBlock.length ∧ aabBlock.length ≤ 65535 ∧
    (∃ es, parseEntries aabBlock = .ok es ∧ (∃ t cnt, reconstruct es = .ok (t, cnt)) ∧ (0x62#8, [true, true]) ∈ es ∧
      0x63#8 ∉ es.map Prod.fst) :=
  ⟨rfl, rfl, by decide, by decide, by decide, by decide, by decide, _, rfl, ⟨_, _, rfl⟩, by decide, by decide⟩

/-- The frame, then per clause: EOF and a failing read in the prefix (95 L2.HC.6 b), EOF and a failing read at the block's last byte, the
two bad lengths, a block that does not parse and one that does not reconstruct (L2.HC.6 g, l). -/
theorem witness_HcLoadErrorKeepsTables : (∃ t, exec .hcLoad built = .next t ∧ t.rspCode ≠ 0x00#8) ∧
    (State.reset.err = 0x00#8 ∧ State.reset.bpState = .idle ∧ State.reset.inPos.toNat = 0) ∧
    ([2#8, 0#8] : List Byte).length = 0 + 2 ∧
    (0 + 3 < fileBound.inp.length ∧ (∀ j < 3, 0 + j ∉ [3]) ∧ 0 + 3 ∈ [3]) ∧
    (fileBound.inp.take 14).length = 0 + 14 ∧
    (fileBound.inp.take 14).drop 0 = le32 (BitVec.ofNat 32 11) ++ aabBlock.take 10 ∧
    (0 + 14 < fileBound.inp.length ∧ (∀ j < 14, 0 + j ∉ [14]) ∧ 0 + 14 ∈ [14]) ∧
    fileBound.inp.drop 0 = le32 (BitVec.ofNat 32 11) ++ (aabBlock ++ [0x38#8]) ∧
    le32 0#32 = [0#8, 0#8, 0#8, 0#8] ∧ le32 0x10000#32 = [0#8, 0#8, 1#8, 0#8] ∧ 65535 < (0x10000#32).toNat ∧
    parseEntries [0x03#8, 0x1E#8] = .error (.hdrMalformed, 0) ∧
    (∃ es, parseEntries [0x61#8, 0x30#8, 0x31#8, 0x1E#8, 0x03#8, 0x30#8, 0x1E#8] = .ok es ∧ reconstruct es = .error (.hdrTree, 1)) :=
  ⟨⟨_, rfl, by decide⟩, by decide, by decide, by decide, by decide, by decide, by decide, by decide, by decide, by decide, by decide, rfl,
    _, rfl, rfl⟩

theorem twoLongCodes_new : newRecords [] (List.replicate 255 false) = 255 ∧
    newRecords [(0x61#8, List.replicate 255 false)] (List.replicate 255 true) = 255 := by constructor <;> decide +kernel

/-- After one code of 255 bits the arena of 511 has exactly the room for another. -/
theorem twoLongCodes : ∃ t, reconstruct [(0x61#8, List.replicate 255 false), (0x62#8, List.replicate 255 true)] = .ok (t, 511) := by
  obtain ⟨n1, n2⟩ := twoLongCodes_new
  obtain ⟨t, h1, h2, -⟩ := grown_start.snoc (sym := 0x61#8) (c := List.replicate 255 false) rfl (by decide) (by decide +kernel) List.not_mem_nil (by
    rintro (⟨e, he, _⟩ | h)
    · exact absurd he List.not_mem_nil
    · rw [n1] at h; omega)
  rw [n1] at h1 h2
  obtain ⟨t', h3, -⟩ := h2.snoc (sym := 0x62#8) (c := List.replicate 255 true) h1 (by decide) (by decide +kernel) (by decide) (by
    rintro (⟨e, he, h⟩ | h)
    · rw [List.nil_append, List.mem_singleton] at he; subst he; revert h; decide +kernel
    · rw [List.nil_append, n2] at h; omega)
  rw [List.nil_append, n2] at h3
  exact ⟨t', h3⟩

/-- Its last part: no room for one more record after the two codes of 255 bits; a symbol that came before; a prefix; and an entry
that is accepted. -/
theorem witness_HcLoadErrorKeepsTables_refusal :
    (∃ t, reconstruct [(0x61#8, List.replicate 255 false), (0x62#8, List.replicate 255 true)] = .ok (t, 511)) ∧
    (List.replicate 254 false ++ [true]).length ≤ 255 ∧
    ((List.range 255).filter fun j => [(0x61#8, List.replicate 255 false), (0x62#8, List.replicate 255 true)].all fun e : Byte × Bits =>
      !((List.replicate 254 false ++ [true]).take (j + 1)).isPrefixOf e.2).length = 1 ∧
    (∃ t, reconstruct [(0x61#8, [false, true])] = .ok (t, 3)) ∧ (0x61#8 : Byte) ∈ [(0x61#8, [false, true])].map Prod.fst ∧
    [false] <+: [false, true] ∧ (0x62#8 : Byte) ∉ [(0x61#8, [false, true])].map Prod.fst ∧
    ¬ ([false, true] : Bits) <+: [false, false] ∧ ¬ ([false, false] : Bits) <+: [false, true] :=
  ⟨twoLongCodes, by decide +kernel, by decide +kernel, ⟨_, rfl⟩, by decide, by decide, by decide, by decide, by decide⟩

/-- The code table of `coded` has the lengths it says (R26). -/
theorem coded_lengths : coded.CodeLengthsMatch := by unfold State.CodeLengthsMatch; decide +kernel

/-- Entries whose symbols are the separator and a character, the second with a code of 255 bits. -/
theorem witness_SerializedTableParses : coded.CodeLengthsMatch ∧
    (∀ e ∈ ([(0x1E#8, [true]), (0x30#8, List.replicate 255 false)] : List (Byte × Bits)), e.2 ≠ [] ∧ e.2.length ≤ 255) ∧
    (∀ c ∈ List.replicate 256 0x30#8, c ≠ 0x1E#8) ∧ 255 < (List.replicate 256 0x30#8).length ∧
    (∀ c ∈ [0x31#8, 0x32#8], c ≠ 0x1E#8) ∧ ∃ c ∈ [0x31#8, 0x32#8], c ≠ 0x30#8 ∧ c ≠ 0x31#8 :=
  ⟨coded_lengths, by decide +kernel, by decide +kernel, by decide +kernel, by decide, 0x32#8, by decide⟩

theorem witness_HeaderRoundTrip : coded.CodesCurrent ∧ coded.StagesOrdered ∧ coded.TreeRooted ∧ coded.ChildrenUnshared ∧ coded.TreeHasLeaf ∧
    (∃ t, exec .hcSer coded = .next t ∧ t.rspCode = 0x00#8) ∧ coded.oracle.readFails = [] :=
  ⟨coded_current, coded_stages, built_rooted, fun _ => built_unshared, built_leaf, ⟨_, rfl, rfl⟩, rfl⟩

/-- With every write Ok, and with the write of the last of the 15 bytes failing. -/
theorem witness_BpHdrWrites : opened.err = 0x00#8 ∧ opened.bpState = .opened ∧ opened.hdrValid = true ∧
    ([opened.hdrLen.extractLsb' 0 8, opened.hdrLen.extractLsb' 8 8, 0x00#8, 0x00#8] ++ (List.range opened.hdrLen.toNat).map opened.hdrAt) =
      [0x0B#8, 0#8, 0#8, 0#8] ++ aabBlock ∧
    (∀ j < 15, opened.out.length + j ∉ opened.oracle.writeFails) ∧ ([0x0B#8, 0#8, 0#8, 0#8] ++ aabBlock)[14]? = some 0x1E#8 ∧
    (∀ j < 14, opened.out.length + j ∉ [14]) ∧ opened.out.length + 14 ∈ [14] := by decide

/-- With every write Ok, and with the second full byte's failing, under 6 pending bits and a BP_INS of 10, which just fill it. -/
theorem witness_PayloadBitsAppended : pending.err = 0x00#8 ∧ pending.bpState = .hdrDone ∧ pending.bb.length = pending.bbN.toNat ∧
    (Instr.bpIns 1#5 1#16).wellFormed = true ∧ (Instr.bpIns 16#5 0#16).wellFormed = true ∧ pending.codeValid = true ∧
    pending.codeLenAt 0x61#8 ≠ 0#8 ∧ pending.codeLenAt 0x03#8 ≠ 0#8 ∧
    (∀ j, 8 * (j + 1) ≤ pending.bb.length + 16 → pending.out.length + j ∉ pending.oracle.writeFails) ∧
    (Instr.bpIns 10#5 0#16).wellFormed = true ∧ (∀ j < 1, pending.out.length + j ∉ [1]) ∧ pending.out.length + 1 ∈ [1] ∧
    8 * (1 + 1) ≤ pending.bb.length + (10#5).toNat :=
  ⟨rfl, rfl, rfl, by decide, by decide, rfl, by decide, by decide, fun _ _ => List.not_mem_nil, by decide, by decide, by decide, by decide⟩

theorem witness_SessionOpensAndCloses : State.reset.err = 0x00#8 ∧ State.reset.bpState = .idle ∧ session.bpState ≠ .idle ∧ session.bbN = 0#3 ∧
    pending.bbN ≠ 0#3 ∧ pending.bb.length = pending.bbN.toNat ∧ pending.out.length ∉ pending.oracle.writeFails ∧
    ({ pending with oracle := ⟨[], [0]⟩ } : State).out.length ∈ ({ pending with oracle := ⟨[], [0]⟩ } : State).oracle.writeFails := by decide

theorem witness_BrExtResult : fileBound.err = 0x00#8 ∧ fileBound.inp[fileBound.inPos.toNat]? = some 0x0B#8 ∧
    fileBound.inPos.toNat ∉ fileBound.oracle.readFails ∧ fileBound.inPos.toNat + 1 < 2 ^ 64 ∧
    State.reset.inPos.toNat = State.reset.inp.length ∧ fileBound.inPos.toNat < fileBound.inp.length ∧
    ({ fileBound with oracle := ⟨[0], []⟩ } : State).inPos.toNat ∈ ({ fileBound with oracle := ⟨[0], []⟩ } : State).oracle.readFails := by decide

/-- Every clause of DwBitResult: in `built` the root 4 has the leaf 2 on branch 0 and the internal record 3 on branch 1, and record 3
has the terminator's leaf on branch 0; in the degenerate tree the root 2 has the placeholder on branch 1. -/
theorem witness_DwBitResult : decoding.err = 0x00#8 ∧ decoding.bpState = .idle ∧ decoding.treeValid = true ∧
    ({ decoding with wState := .terminated } : State).wState = .terminated ∧ decoding.wState ≠ .terminated ∧ decoding.root ≠ 511#9 ∧
    (decoding.nodeAt (decoding.nodeAt decoding.root).one).kind = .internal ∧ (decoding.nodeAt (decoding.nodeAt 3#9).zero).kind = .leaf ∧
    (decoding.nodeAt (decoding.nodeAt 3#9).zero).sym = 0x03#8 ∧ (decoding.nodeAt (decoding.nodeAt decoding.root).zero).kind = .leaf ∧
    (decoding.nodeAt (decoding.nodeAt decoding.root).zero).sym ≠ 0x03#8 ∧ decoding.out.length ∉ decoding.oracle.writeFails ∧
    ({ decoding with oracle := ⟨[], [0]⟩ } : State).out.length ∈ ({ decoding with oracle := ⟨[], [0]⟩ } : State).oracle.writeFails ∧
    ((buildDegenerate (1, 3)).arena.map fun e => e.2.kind) = [.leaf, .placeholder, .internal] := by decide

theorem witness_DecodingCommands : decoding.err = 0x00#8 ∧ decoding.bpState = .idle ∧ decoding.treeValid = true ∧
    ({ decoding with wState := .terminated } : State).wState = .terminated ∧ decoding.wState ≠ .terminated ∧
    ({ decoding with inPos := 16#64 } : State).inPos.toNat = decoding.inp.length ∧ decoding.inPos.toNat < decoding.inp.length ∧
    ({ decoding with oracle := ⟨[15], []⟩ } : State).inPos.toNat ∈ ({ decoding with oracle := ⟨[15], []⟩ } : State).oracle.readFails ∧
    decoding.inp[decoding.inPos.toNat]? = some 0x38#8 ∧ decoding.inPos.toNat ∉ decoding.oracle.readFails ∧
    (∃ t, walkBits [false, false, true, true, true, false, false, false] 0 { decoding with inPos := decoding.inPos + 1#64 } = .ok 3 t) ∧
    (∃ t, walkBits [false, false, true, true, true, false, false, false] 0
      { decoding with inPos := decoding.inPos + 1#64, oracle := ⟨[], [2]⟩ } = .raise .io 0x62#32 t) ∧
    (∃ t, exec (.dwBit true) decoding = .next t ∧ t.rspCode = 0x00#8) ∧
    (∃ t, exec (.dwBit false) { decoding with oracle := ⟨[], [0]⟩ } = .next t ∧ t.rspCode ≠ 0x00#8) ∧
    ({ opened with wState := .terminated } : State).treeValid = true ∧ opened.bpState ≠ .idle :=
  ⟨rfl, rfl, rfl, rfl, by decide, by decide, by decide, by decide, by decide, by decide, ⟨_, rfl⟩, ⟨_, rfl⟩, ⟨_, rfl, rfl⟩,
    ⟨_, rfl, by decide⟩, rfl, by decide⟩

theorem witness_PayloadDecodes : built.wState = .atRoot ∧ built.wCur = Config.nil ∧ built.WritesOk ∧
    genCodes built.node built.root = .ok ⟨coded.codeLen, coded.codeBits⟩ ∧
    (∀ x ∈ ([0x61#8, 0x62#8] : List Byte), x ≠ 0x03#8 ∧ Table.get [] coded.codeBits x.toNat ≠ []) ∧ Table.get [] coded.codeBits 0x03 ≠ [] :=
  ⟨rfl, rfl, by unfold State.WritesOk; decide, built_codes, by decide, by decide⟩

theorem witness_StreamsOnlyMoveForward : ∃ t, exec .decByte decoding = .next t := ⟨_, rfl⟩

theorem witness_SessionAndFlagMoves : (∃ t, exec .bpOpen State.reset = .next t ∧ t.bpState ≠ State.reset.bpState) ∧
    (∃ t, exec .hcLoad fileBound = .next t ∧ t.treeValid ≠ fileBound.treeValid ∧ t.codeValid ≠ fileBound.codeValid) ∧
    (∃ t, exec .hcSer coded = .next t ∧ t.hdrValid ≠ coded.hdrValid) :=
  ⟨⟨_, rfl, by decide⟩, ⟨_, rfl, by decide +kernel, by decide +kernel⟩, _, rfl, by decide +kernel⟩

theorem witness_NoCommandStops : coded.TreeRooted ∧ coded.WalkerPlaced ∧ coded.TreeGenerates ∧ coded.CodesCurrent ∧ coded.StagesOrdered ∧
    coded.ChildrenUnshared ∧ coded.InPosInside ∧ coded.inp.length + 1 < 2 ^ 64 ∧ coded.codeValid = true ∧ coded.HostKeepsDuty :=
  ⟨built_rooted, by unfold State.WalkerPlaced; decide, fun _ => ⟨_, rfl⟩, coded_current, coded_stages, fun _ => built_unshared,
    by unfold State.InPosInside; decide, by decide, rfl, nofun⟩

theorem witness_ErrorPathReleases : faulted.err ≠ 0x00#8 ∧ ({ session with err := 0x04#8 } : State).err ≠ 0x00#8 := by decide

theorem witness_ReadBackFrame : Instr.rdStat ∈ [Instr.rdStat, .rdErrCmd, .rdInPos, .rdRoot, .rdHdrLen, .decEnd] ∧
    (∃ t, exec .rdStat serialized = .next t) ∧ ∃ t, exec (.rdHdrB 0#16) serialized = .next t := ⟨by decide, ⟨_, rfl⟩, _, rfl⟩

theorem witness_TableCommandFrames : (∃ t, exec .frqClr counted = .next t) ∧ (∃ t, exec (.frqAdd 0x61#8) counted = .next t) ∧
    (∃ t, exec .tbBuild counted = .next t) ∧ (∃ t, exec .cgGen built = .next t) ∧ (∃ t, exec .hcSer coded = .next t) ∧
    ∃ t, exec .hcLoad fileBound = .next t := ⟨⟨_, rfl⟩, ⟨_, rfl⟩, ⟨_, rfl⟩, ⟨_, rfl⟩, ⟨_, rfl⟩, _, rfl⟩

theorem witness_PackerFrames : (∃ t, exec .bpOpen serialized = .next t) ∧ (∃ t, exec .bpHdr opened = .next t) ∧
    (∃ t, exec (.bpIns 1#5 1#16) session = .next t) ∧ (∃ t, exec (.encSym 0x61#8) session = .next t) ∧
    (∃ t, exec .encTerm session = .next t) ∧ ∃ t, exec .bpClose pending = .next t :=
  ⟨⟨_, rfl⟩, ⟨_, rfl⟩, ⟨_, rfl⟩, ⟨_, rfl⟩, ⟨_, rfl⟩, _, rfl⟩

theorem witness_WalkerFrames : (∃ t, exec .brExt fileBound = .next t) ∧ (∃ t, exec (.dwBit true) decoding = .next t) ∧
    ∃ t, exec .decByte decoding = .next t := ⟨⟨_, rfl⟩, ⟨_, rfl⟩, _, rfl⟩

/-- The invariants' hypotheses beyond reset: a state with a tree, codes, a header and an open session meets each, and steps. -/
theorem witness_StepKeepsTablesCanonical : pending.TablesCanonical ∧ ∃ t, step (pending.present 0x55000000#32) = .next t :=
  ⟨by unfold State.TablesCanonical; decide, _, rfl⟩

theorem witness_StepKeepsRegisters : (∃ t, step (pending.present 0x55000000#32) = .next t) ∧ (pending.present 0x55000000#32).TerminatorCounted ∧
    (pending.present 0x55000000#32).PackerConsistent ∧ (pending.present 0x55000000#32).StagesOrdered ∧
    (pending.present 0x55000000#32).ErrorsLegal ∧ (pending.present 0x55000000#32).InPosInside ∧
    ∀ bytes rest, (pending.present 0x55000000#32).port ≠ .bindIn bytes :: rest :=
  ⟨⟨_, rfl⟩, by unfold State.TerminatorCounted; decide, by unfold State.PackerConsistent; decide, by unfold State.StagesOrdered; decide,
    by unfold State.ErrorsLegal; decide, by unfold State.InPosInside; decide, nofun⟩

theorem witness_StepKeepsCodeLengths : (coded.present 0x40000000#32).CodeLengthsMatch ∧ ∃ t, step (coded.present 0x40000000#32) = .next t :=
  ⟨coded_lengths, _, rfl⟩

theorem witness_StepKeepsHeaderCurrent : (serialized.present 0x50000000#32).HeaderCurrent ∧ serialized.hdrValid = true ∧
    ∃ t, step (serialized.present 0x50000000#32) = .next t := by
  refine ⟨?_, rfl, _, rfl⟩
  unfold State.HeaderCurrent; decide +kernel

theorem witness_StepKeepsTree : (built.present 0x61000001#32).ArenaCounted ∧ (built.present 0x61000001#32).RecordsShaped ∧
    (built.present 0x61000001#32).TreeRooted ∧ (built.present 0x61000001#32).WalkerPlaced ∧
    ∃ t, step (built.present 0x61000001#32) = .next t := by
  refine ⟨⟨by decide, forall_nodeIx ?_⟩, forall_nodeIx ?_, built_rooted, by unfold State.WalkerPlaced; decide, _, rfl⟩ <;> decide +kernel

theorem witness_StepKeepsChildrenUnshared : (built.present 0x61000001#32).ChildrenUnshared ∧ (built.present 0x61000001#32).LeavesDistinct ∧
    built.treeValid = true ∧ ∃ t, step (built.present 0x61000001#32) = .next t :=
  ⟨fun _ => built_unshared, fun _ => built_symbols, rfl, _, rfl⟩

theorem witness_StepKeepsTreeGenerates : (coded.present 0x30000000#32).TreeGenerates ∧ (coded.present 0x30000000#32).TreeHasLeaf ∧
    (coded.present 0x30000000#32).CodesCurrent ∧ coded.treeValid = true ∧ coded.codeValid = true ∧
    ∃ t, step (coded.present 0x30000000#32) = .next t :=
  ⟨fun _ => ⟨_, rfl⟩, built_leaf, coded_current, rfl, rfl, _, rfl⟩

end Sys2Proof.Tests
end

section
/-! Progress (00_scope.md R8, 20_memory.md R51, 43_header_codec.md R152): in a state that keeps the block's invariants no command's
rule stops the model. -/

namespace Sys2Proof.Machine

/-! ### Results that do not stop the model -/

/-- A piece of a rule ends with a value or an error, not with a stop of the model. -/
def Res.Ends {α : Type} : Res α → Prop
  | .ok _ _ => True
  | .raise _ _ _ => True
  | .stop _ => False

/-- Going on after a piece that ends, with what is known of the states it ends in. -/
theorem Res.Ends.bindPost {α β : Type} {r : Res α} {f : α → State → Res β} {Q : α → State → Prop} {P : State → Prop} (h : r.Ends)
    (hp : r.Post Q P) (hf : ∀ a s, Q a s → (f a s).Ends) : (r.bind f).Ends := by
  cases r with
  | ok a s => exact hf a s hp
  | raise e info s => trivial
  | stop x => exact h.elim

theorem Res.Ends.bind {α β : Type} {r : Res α} {f : α → State → Res β} (h : r.Ends) (hf : ∀ a s, (f a s).Ends) : (r.bind f).Ends := by
  cases r with
  | ok a s => exact hf a s
  | raise e info s => trivial
  | stop x => exact h.elim

theorem finish_of_ends {r : Res Word} (h : r.Ends) (w : Word) : ∃ t, finish w r = .next t := by
  cases r with
  | ok d s => exact ⟨_, rfl⟩
  | raise e info s => exact ⟨_, rfl⟩
  | stop f => exact h.elim

/-- A command whose rule ends answers a next state, in FAULT and outside it (R72). -/
theorem exec_of_ends {i : Instr} {s : State} (h : (ruleOf i s).Ends) : ∃ t, exec i s = .next t := by
  by_cases hi : i = .sreset
  · subst hi
    exact ⟨_, exec_sreset s⟩
  · rw [exec_eq hi]
    split
    · exact ⟨_, rfl⟩
    · exact finish_of_ends h _

/-! ### Writing never stops (R52, R54, R170, R171) -/

theorem outWrite_ends (b : Byte) (s : State) : (outWrite b s).Ends := by
  unfold outWrite
  split <;> trivial

theorem outWrites_ends (bs : List Byte) (s : State) : (outWrites bs s).Ends := by
  induction bs generalizing s with
  | nil => trivial
  | cons b bs ih => exact (outWrite_ends b s).bind fun _ s' => ih s'

theorem pushBit_ends (x : Bool) (s : State) : (pushBit x s).Ends := by
  unfold pushBit
  split
  · exact outWrite_ends _ _
  · trivial

theorem pushBits_ends (c : Bits) (s : State) : (pushBits c s).Ends := by
  induction c generalizing s with
  | nil => trivial
  | cons x c ih => exact (pushBit_ends x s).bind fun _ s' => ih s'

/-- The three payload commands (R175 to R177). -/
theorem ruleOf_payload_ends {i : Instr} (h : isPayload i = true) (s : State) : (ruleOf i s).Ends := by
  rcases ruleOf_payload h s with ⟨e, info, hr⟩ | ⟨-, c, hr⟩ <;> rw [hr]
  · trivial
  · exact (pushBits_ends c s).bind fun _ _ => trivial

theorem bpHdrRule_ends (s : State) : (bpHdrRule s).Ends := by
  unfold bpHdrRule
  split
  · trivial
  · split
    · trivial
    · exact (outWrites_ends _ _).bind fun _ _ => trivial

theorem bpCloseRule_ends (s : State) : (bpCloseRule s).Ends := by
  unfold bpCloseRule
  split
  · trivial
  · split
    · trivial
    · exact (outWrite_ends _ _).bind fun _ _ => trivial

/-! ### Reading inside IN never stops (R51, R153, R154) -/

/-- IN_POS is inside an IN whose end the register still counts (R8, R31, R51). -/
def State.ReadsInside (s : State) : Prop := s.InPosInside ∧ s.inp.length + 1 < 2 ^ 64

/-- InRead stops only past the end of IN (log 4) or where IN_POS would wrap (log 5). -/
theorem inRead_ends {s : State} (h : s.ReadsInside) : (inRead s).Ends := by
  obtain ⟨hpos, hlen⟩ := h
  unfold State.InPosInside at hpos
  unfold inRead
  split
  · rename_i hnone
    have hend : s.inPos.toNat = s.inp.length := le_antisymm hpos (List.getElem?_eq_none_iff.1 hnone)
    rw [if_pos hend]
    trivial
  · split
    · trivial
    · rw [if_pos (by omega)]
      trivial

theorem State.ReadsInside.of_readsOnly {s t : State} (h : s.ReadsInside) (hr : ReadsOnly s t) : t.ReadsInside := by
  obtain ⟨hpos, hlen⟩ := h
  obtain ⟨heq, -, hin⟩ := hr
  have hinp : t.inp = s.inp := by rw [heq]
  unfold State.ReadsInside State.InPosInside
  rw [hinp]
  exact ⟨hin hpos, hlen⟩

theorem readHeaderByte_ends (info : Nat) {s : State} (h : s.ReadsInside) : (readHeaderByte info s).Ends := by
  refine (inRead_ends h).bind fun b s' => ?_
  cases b <;> trivial

/-- Going on after a piece of HC_LOAD's reading: IN_POS is still inside IN. -/
theorem Res.Ends.bindReads {α β : Type} {s : State} {r : Res α} {f : α → State → Res β} (h : r.Ends) (hs : s.ReadsInside)
    (hr : r.All (ReadsOnly s)) (hf : ∀ a s', s'.ReadsInside → (f a s').Ends) : (r.bind f).Ends :=
  h.bindPost hr fun a s' hs' => hf a s' (hs.of_readsOnly hs')

theorem bindHeaderByte_ends {β : Type} (info : Nat) {s : State} {f : Byte → State → Res β} (h : s.ReadsInside)
    (hf : ∀ b s', s'.ReadsInside → (f b s').Ends) : ((readHeaderByte info s).bind f).Ends :=
  (readHeaderByte_ends info h).bindReads h (readHeaderByte_frame info s) hf

theorem readLength_ends {s : State} (h : s.ReadsInside) : (readLength s).Ends :=
  bindHeaderByte_ends 0 h fun _ _ h0 => bindHeaderByte_ends 1 h0 fun _ _ h1 => bindHeaderByte_ends 2 h1 fun _ _ h2 =>
    bindHeaderByte_ends 3 h2 fun _ _ _ => trivial

theorem readBytes_ends (n k : Nat) {s : State} (h : s.ReadsInside) : (readBytes n k s).Ends := by
  induction n generalizing k s with
  | zero => trivial
  | succ n ih => exact bindHeaderByte_ends _ h fun _ _ h' => (ih _ h').bind fun _ _ => trivial

theorem readBlock_ends (len : Nat) {s : State} (h : s.ReadsInside) : (readBlock len s).Ends := by
  unfold readBlock
  split
  · trivial
  · exact readBytes_ends len 0 h

theorem ofHdr_ends {α : Type} (r : Except HdrError α) (s : State) : (Res.ofHdr r s).Ends := by
  cases r <;> trivial

theorem hcLoadRule_ends {s : State} (h : s.ReadsInside) : (hcLoadRule s).Ends := by
  unfold hcLoadRule
  split
  · trivial
  · exact (readLength_ends h).bindReads h (readLength_frame s) fun len _ h1 => (readBlock_ends len h1).bind fun _ _ =>
      (ofHdr_ends _ _).bind fun _ _ => (ofHdr_ends _ _).bind fun _ _ => trivial

theorem brExtRule_ends {s : State} (h : s.ReadsInside) : (brExtRule s).Ends := by
  refine (inRead_ends h).bind fun b s' => ?_
  cases b <;> trivial

/-! ### The walker on a rooted tree never stops (R25, R30, R190) -/

/-- The walker is placed on a tree with a root: what keeps WalkStep from reading NODE[NIL] (log 8). -/
def State.WalksTree (s : State) : Prop := s.WalkerPlaced ∧ s.root ≠ Config.nil

theorem walkAt_ne_nil {s : State} (h : s.WalksTree) (ht : s.wState ≠ .terminated) : s.walkAt ≠ Config.nil := by
  obtain ⟨hplaced, hroot⟩ := h
  unfold State.walkAt
  unfold State.WalkerPlaced at hplaced
  cases hw : s.wState with
  | atRoot => simpa using hroot
  | atInternal =>
    rw [if_pos hw] at hplaced
    simpa using hplaced.1
  | terminated => exact absurd hw ht

theorem walkInto_ends (n c : NodeIx) (x : Bool) (s : State) : (walkInto n c x s).Ends := by
  unfold walkInto
  split
  · trivial
  · split
    · trivial
    · trivial
    · trivial
    · split
      · trivial
      · exact (outWrite_ends _ _).bind fun _ _ => trivial

theorem walkStep_ends (x : Bool) {s : State} (h : s.WalksTree) : (walkStep x s).Ends := by
  unfold walkStep
  split
  · trivial
  · rename_i ht
    rw [if_neg (walkAt_ne_nil h ht)]
    exact walkInto_ends _ _ _ _

theorem walkStep_walksTree (x : Bool) {s : State} (h : s.WalksTree) : (walkStep x s).All State.WalksTree := by
  have hplaced := walkStep_placed x h.1
  have hframe := walkStep_frame x s
  cases hr : walkStep x s with
  | ok e t =>
    rw [hr] at hplaced hframe
    exact ⟨hplaced, by rw [hframe.1]; exact h.2⟩
  | raise e info t =>
    rw [hr] at hplaced hframe
    exact ⟨hplaced, by rw [hframe.1]; exact h.2⟩
  | stop f => trivial

theorem walkBits_ends (c : Bits) (k : Nat) {s : State} (h : s.WalksTree) : (walkBits c k s).Ends := by
  induction c generalizing k s with
  | nil => trivial
  | cons x c ih =>
    unfold walkBits
    split
    · trivial
    · exact (walkStep_ends x h).bindPost (walkStep_walksTree x h) fun _ _ h' => ih _ h'

theorem dwBitRule_ends (x : Bool) {s : State} (h : s.treeValid = true → s.WalksTree) : (dwBitRule x s).Ends := by
  rcases dwBitRule_cases x s with ⟨e, info, hr⟩ | ⟨-, hv, hr⟩ <;> rw [hr]
  · trivial
  · exact (walkStep_ends x (h hv)).bind fun _ _ => trivial

theorem decByteRule_ends {s : State} (hin : s.ReadsInside) (h : s.treeValid = true → s.WalksTree) : (decByteRule s).Ends := by
  unfold decByteRule
  split
  · trivial
  split
  · trivial
  rename_i hv
  have hw : s.WalksTree := h (by simpa using hv)
  split
  · trivial
  refine (inRead_ends hin).bindPost (inRead_post s) ?_
  rintro b s1 (⟨rfl, -, -⟩ | ⟨b, rfl, -, -, rfl⟩)
  · trivial
  · have hw1 : ({ s with inPos := s.inPos + 1#64 } : State).WalksTree := hw
    exact (walkBits_ends (bitsMsb b) 0 hw1).bind fun _ _ => trivial

/-! ### The generator and the serializer on a tree that generates (R130, R152) -/

/-- CG_GEN stops only where GenCodes does (logs 8, 9). -/
theorem cgGenRule_ends {s : State} (h : s.TreeGenerates) : (cgGenRule s).Ends := by
  unfold cgGenRule
  split
  · trivial
  split
  · trivial
  rename_i hv
  obtain ⟨t, ht⟩ := h (by simpa using hv)
  rw [ht]
  trivial

/-- HC_SER stops only on a header longer than HDR_MAX (log 10), which a valid code table's tree excludes (R152). -/
theorem hcSerRule_ends {s : State} (hc : s.CodesCurrent) (ho : s.StagesOrdered) (hu : s.ChildrenUnshared) : (hcSerRule s).Ends := by
  obtain ⟨-, htree, -⟩ := ho
  unfold hcSerRule
  split
  · trivial
  split
  · trivial
  rename_i hv
  have hcode : s.codeValid = true := by simpa using hv
  have hfits : s.serialize.length ≤ Config.hdrMax := serialize_fits (hu (htree hcode)) (hc hcode)
  rw [if_neg (Nat.not_lt.2 hfits)]
  trivial

/-! ### The commands that do not stop in any state -/

theorem frqAddRule_ends (sym : Byte) (s : State) : (frqAddRule sym s).Ends := by
  unfold frqAddRule
  repeat' split
  all_goals trivial

theorem tbBuildRule_ends (s : State) : (tbBuildRule s).Ends := by
  unfold tbBuildRule
  repeat' split
  all_goals trivial

theorem bpOpenRule_ends (s : State) : (bpOpenRule s).Ends := by
  unfold bpOpenRule
  split <;> trivial

/-- The read-back commands (R253) and DEC_END (R195). -/
theorem ruleOf_readBack_ends {i : Instr} (h : isReadBack i = true) (s : State) : (ruleOf i s).Ends := by
  cases i <;> simp only [isReadBack, Bool.false_eq_true] at h
  case rdNode idx => simp only [ruleOf, rdNodeRule]; split <;> trivial
  case rdNwt half idx => simp only [ruleOf, rdNwtRule]; split <;> trivial
  case rdHdrB idx => simp only [ruleOf, rdHdrBRule]; split <;> trivial
  case decEnd =>
    simp only [ruleOf, decEndRule]
    repeat' split
    all_goals trivial
  all_goals trivial

/-! ### Progress -/

/-- What keeps every command from stopping: the invariants of the tree, the walker, the code table and the input. -/
structure State.Runnable (s : State) : Prop where
  rooted : s.TreeRooted
  placed : s.WalkerPlaced
  generates : s.TreeGenerates
  codes : s.CodesCurrent
  stages : s.StagesOrdered
  unshared : s.ChildrenUnshared
  reads : s.ReadsInside

theorem State.Runnable.walksTree {s : State} (h : s.Runnable) (hv : s.treeValid = true) : s.WalksTree :=
  ⟨h.placed, (h.rooted hv).1⟩

/-- None of the invariants looks at what the host does next. -/
theorem State.Runnable.withPort {s : State} (h : s.Runnable) (rest : List HostAct) : ({ s with port := rest } : State).Runnable :=
  ⟨h.rooted, h.placed, h.generates, h.codes, h.stages, h.unshared, h.reads⟩

theorem ruleOf_ends (i : Instr) {s : State} (h : s.Runnable) : (ruleOf i s).Ends := by
  by_cases hr : isReadBack i = true
  · exact ruleOf_readBack_ends hr s
  by_cases hp : isPayload i = true
  · exact ruleOf_payload_ends hp s
  cases i <;> simp only [isReadBack, isPayload, not_true, not_false_eq_true, Bool.false_eq_true] at hr hp
  case sreset => trivial
  case frqClr => trivial
  case frqAdd sym => exact frqAddRule_ends sym s
  case tbBuild => exact tbBuildRule_ends s
  case cgGen => exact cgGenRule_ends h.generates
  case hcSer => exact hcSerRule_ends h.codes h.stages h.unshared
  case hcLoad => exact hcLoadRule_ends h.reads
  case bpOpen => exact bpOpenRule_ends s
  case bpHdr => exact bpHdrRule_ends s
  case bpClose => exact bpCloseRule_ends s
  case brExt => exact brExtRule_ends h.reads
  case dwBit x => exact dwBitRule_ends x h.walksTree
  case decByte => exact decByteRule_ends h.reads h.walksTree

theorem exec_runnable (i : Instr) {s : State} (h : s.Runnable) : ∃ t, exec i s = .next t := exec_of_ends (ruleOf_ends i h)

theorem executeWord_runnable (w : Word) {s : State} (h : s.Runnable) : ∃ t, executeWord w s = .next t := by
  unfold executeWord
  split
  · exact exec_runnable _ h
  · exact ⟨_, rfl⟩

/-- An act of the host ends in a next state while it does not bind OUT in a session (R55). -/
theorem hostAct_runnable {a : HostAct} {s : State} (h : s.Runnable) (hd : ∀ bytes, a = .bindOut bytes → s.bpState = .idle) :
    ∃ t, hostAct a s = .next t := by
  cases a with
  | command w => exact executeWord_runnable w h
  | bindIn bytes => exact ⟨_, rfl⟩
  | bindOut bytes =>
    have hidle := hd bytes rfl
    exact ⟨_, if_pos hidle⟩
  | reset => exact ⟨_, rfl⟩

theorem step_runnable {s : State} (h : s.Runnable) (hd : s.HostKeepsDuty) : ∃ t, step s = .next t := by
  unfold step cycle
  split
  · exact ⟨_, rfl⟩
  · rename_i a rest hport
    exact hostAct_runnable (h.withPort rest) fun bytes ha => hd bytes rest (by rw [hport, ha])

/-- Settles O47: the rule of every command ends in a state with the invariants, where each stop of the model (logs 4, 5, 8, 9, 10) is
excluded by one of them and log 7's by the host's duty. -/
theorem noCommandStops : Obligations.NoCommandStops := by
  unfold Obligations.NoCommandStops
  intro s hrooted hplaced hgen hcodes hstages hunshared hpos hlen
  have h : s.Runnable := ⟨hrooted, hplaced, hgen, hcodes, hstages, hunshared, hpos, hlen⟩
  exact ⟨fun i => exec_runnable i h, step_runnable h⟩

end Sys2Proof.Machine
end

section
/-! The invariants of 10_state.md that every step keeps (R22 to R32, R117, R130, R134, R156, R275): each from the one change of a
rule that touches what it speaks of. -/

namespace Sys2Proof.Machine

/-- A property of the tables, the walker and the session alone, which holds after reset and survives every effect, is kept by every step. -/
theorem step_keeps_of_frame {P : State → Prop}
    (hframe : ∀ (s : State) rc rd e ec port inp out, P s →
      P { s with rspCode := rc, rspData := rd, err := e, errCmd := ec, port := port, inp := inp, out := out })
    (hreset : ∀ s : State, P s.resetBlock) (heffect : ∀ i s t, Effect i s t → P s → P t) {s t : State} (h : step s = .next t) (hs : P s) :
    P t :=
  step_keeps (.always fun s rc rd e ec => hframe s rc rd e ec s.port s.inp s.out)
    (fun s port inp out => hframe s s.rspCode s.rspData s.err s.errCmd port inp out) (fun s _ => hreset s)
    (fun i s t hs hE => heffect i s t hE hs) hs h

/-! ### Every change a rule can make to a table -/

/-- The changes that a rule can make to FREQ, the arena, the code table, HDR and the valid flags: none, or one of six commands' commits. -/
inductive TableChange (s : State) : State → Prop where
  | kept (t : State)
      (ht : t = { s with bpState := t.bpState, bbN := t.bbN, bb := t.bb, wState := t.wState, wCur := t.wCur, inPos := t.inPos, out := t.out }) :
      TableChange s t
  | clear : TableChange s { s with freq := freqCleared }
  | count (sym : Byte) (v : Word) (h3 : sym ≠ Config.termByte) : TableChange s (s.setFreq sym v)
  | build (b : Built) (hb : buildTree (sortedKeys s.freq) = some b) : TableChange s (s.withBuilt b)
  | generate (c : CodeTable) (hc : genCodes s.node s.root = .ok c) (hv : s.treeValid = true) : TableChange s (s.withCodes c)
  | serialize (hl : s.serialize.length ≤ Config.hdrMax) (hv : s.codeValid = true) : TableChange s (s.withHeader s.serialize)
  | load (u : State) (hu : ReadsOnly s u) (es : List (Byte × Bits)) (arena : Table Node) (cnt : Nat) (hr : reconstruct es = .ok (arena, cnt))
      (hl : ∀ e ∈ es, e.2 ≠ [] ∧ e.2.length ≤ 255) : TableChange s (u.withLoaded es arena cnt)

theorem Effect.tableChange {i : Instr} {s t : State} (h : Effect i s t) : TableChange s t := by
  cases h with
  | clear hi => exact .clear
  | count sym hi h3 => exact .count sym _ h3
  | build hi b hb _ => exact .build b hb
  | generate hi c hc _ hv => exact .generate c hc hv
  | serialize hi hl _ hv => exact .serialize hl hv
  | load hi u hu block es arena cnt hp hr _ _ => exact .load u hu es arena cnt hr (parseFrom_lengths hp)
  | read hi t ht => exact .kept _ (by rw [ht.1])
  | push hi t hd ht => exact .kept _ (by rw [ht])
  | close hi t ho ht => rcases ht with rfl | rfl <;> exact .kept _ rfl
  | walk hi t ht => exact .kept _ (by rw [ht])
  | _ => exact .kept _ rfl

/-- The code table after a change of the tables: as before, empty and not valid, or one that GenCodes gives some tree. -/
theorem TableChange.codes {s t : State} (h : TableChange s t) :
    (t.codeLen = s.codeLen ∧ t.codeBits = s.codeBits ∧ t.codeValid = s.codeValid) ∨
    (t.codeLen = [] ∧ t.codeBits = [] ∧ t.codeValid = false) ∨
    ∃ arena root, genCodes arena root = .ok ⟨t.codeLen, t.codeBits⟩ := by
  cases h with
  | kept t ht => rw [ht]; exact .inl ⟨rfl, rfl, rfl⟩
  | build b hb => exact .inr (.inl ⟨rfl, rfl, rfl⟩)
  | generate c hc hv => exact .inr (.inr ⟨_, _, hc⟩)
  | load u hu es arena cnt hr hl => exact .inr (.inr ⟨_, _, (reconstruct_grown hl hr).genCodes⟩)
  | _ => exact .inl ⟨rfl, rfl, rfl⟩

/-! ### The code table (R26, R27, R134) -/

theorem TableChange.keeps_prefixFree {s t : State} (h : TableChange s t) (hs : s.PrefixFree) : t.PrefixFree := by
  intro hv a b hab ha hb
  rcases h.codes with ⟨hlen, hbits, hvalid⟩ | ⟨-, -, hvalid⟩ | ⟨arena, root, hgen⟩
  · unfold State.codeLenAt at ha hb
    unfold State.codeBitsAt
    rw [hlen] at ha hb
    rw [hbits]
    exact hs (hvalid ▸ hv) a b hab ha hb
  · rw [hvalid] at hv
    exact absurd hv (by decide)
  · exact genCodes_prefixFree hgen hab ha hb

theorem errCode_range (e : ErrCode) : e.code ≠ 0x00#8 ∧ e.code.toNat ≤ 0x0D := by cases e <;> decide

/-- A command that answers RSP_CODE 0 ended its rule with a value (R72, R73, R240, R241). -/
theorem exec_done {i : Instr} (hi : i ≠ .sreset) {s t : State} (h : exec i s = .next t) (h0 : t.rspCode = 0x00#8) :
    ∃ d u, ruleOf i s = .ok d u ∧ t = u.respond d := by
  rw [exec_eq hi] at h
  split at h
  · cases h
    exact absurd h0 (by decide : rspIgnored ≠ 0x00#8)
  · cases hr : ruleOf i s with
    | ok d u => rw [hr] at h; cases h; exact ⟨d, u, rfl, rfl⟩
    | raise e info u =>
      rw [hr] at h
      cases h
      rw [raise_rspCode] at h0
      exact absurd h0 (errCode_range e).1
    | stop f => rw [hr] at h; cases h

/-- Settles O31: a code is a path to a leaf, from which no path goes on; every step leaves the code table, or commits GenCodes' table of
a tree. -/
theorem codesPrefixFree : Obligations.CodesPrefixFree := by
  unfold Obligations.CodesPrefixFree
  refine ⟨fun s t h h0 a b hab ha hb => ?_, fun s t hs h =>
    step_keeps_of_frame (P := State.PrefixFree) (fun _ _ _ _ _ _ _ _ => id) (fun _ => nofun)
      (fun _ _ _ hE => hE.tableChange.keeps_prefixFree) h hs⟩
  obtain ⟨d, u, hr, rfl⟩ := exec_done (i := .cgGen) nofun h h0
  have hpost := cgGenRule_post s
  rw [show cgGenRule s = .ok d u from hr] at hpost
  obtain ⟨-, -, c, hgen, rfl⟩ := hpost
  exact genCodes_prefixFree hgen hab ha hb

theorem TableChange.keeps_codeLengths {s t : State} (h : TableChange s t) (hs : s.CodeLengthsMatch) : t.CodeLengthsMatch := by
  intro sym
  unfold State.codeLenAt State.codeBitsAt
  rcases h.codes with ⟨hlen, hbits, -⟩ | ⟨hlen, hbits, -⟩ | ⟨arena, root, hgen⟩
  · rw [hlen, hbits]
    exact hs sym
  · rw [hlen, hbits]
    rfl
  · exact genCodes_lengths hgen sym

/-- Settles O56: GenCodes stores every code with its length, and HC_LOAD's table is the one of GenCodes. -/
theorem stepKeepsCodeLengths : Obligations.StepKeepsCodeLengths := by
  unfold Obligations.StepKeepsCodeLengths
  intro s t hs h
  exact step_keeps_of_frame (P := State.CodeLengthsMatch) (fun _ _ _ _ _ _ _ _ => id) (fun _ _ => rfl)
    (fun _ _ _ hE => hE.tableChange.keeps_codeLengths) h hs

/-! ### The canonical form of the tables (log 12) -/

theorem freqCleared_wf : Table.wf Config.nsym 0#32 freqCleared = true := by decide

theorem TableChange.freq_wf {s t : State} (h : TableChange s t) (hs : Table.wf Config.nsym 0#32 s.freq = true) :
    Table.wf Config.nsym 0#32 t.freq = true := by
  cases h with
  | kept t ht => rw [ht]; exact hs
  | clear => exact freqCleared_wf
  | count sym v h3 => exact table_set_wf hs sym.isLt v
  | load u hu =>
    show Table.wf Config.nsym 0#32 u.freq = true
    rw [hu.1]
    exact hs
  | _ => exact hs

theorem TableChange.node_wf {s t : State} (h : TableChange s t) (hs : Table.wf Config.nodeMax Node.blank s.node = true) :
    Table.wf Config.nodeMax Node.blank t.node = true := by
  cases h with
  | kept t ht => rw [ht]; exact hs
  | build b hb => exact buildTree_wf hb
  | load u hu es arena cnt hr hl => exact reconstructFrom_wf (table_set_wf (table_wf_nil 511 Node.blank) (by decide) _) (by decide) hr
  | _ => exact hs

theorem TableChange.codes_wf {s t : State} (h : TableChange s t) (hs : (⟨s.codeLen, s.codeBits⟩ : CodeTable).Canonical) :
    (⟨t.codeLen, t.codeBits⟩ : CodeTable).Canonical := by
  rcases h.codes with ⟨hlen, hbits, -⟩ | ⟨hlen, hbits, -⟩ | ⟨arena, root, hgen⟩
  · rw [hlen, hbits]; exact hs
  · rw [hlen, hbits]; exact ⟨rfl, rfl⟩
  · exact visit_canonical hgen ⟨rfl, rfl⟩

theorem TableChange.hdr_wf {s t : State} (h : TableChange s t) (hs : Memory.wf s.hdr = true) : Memory.wf t.hdr = true := by
  cases h with
  | kept t ht => rw [ht]; exact hs
  | serialize hl hv => exact storeBytes_wf hs (by omega)
  | load u hu =>
    show Memory.wf u.hdr = true
    rw [hu.1]
    exact hs
  | _ => exact hs

theorem TableChange.keeps_canonical {s t : State} (h : TableChange s t) (hs : s.TablesCanonical) : t.TablesCanonical := by
  obtain ⟨hfreq, hnode, hlen, hbits, hhdr⟩ := hs
  obtain ⟨hlen', hbits'⟩ := h.codes_wf ⟨hlen, hbits⟩
  exact ⟨h.freq_wf hfreq, h.node_wf hnode, hlen', hbits', h.hdr_wf hhdr⟩

theorem resetBlock_canonical (s : State) : s.resetBlock.TablesCanonical := ⟨freqCleared_wf, rfl, rfl, rfl, rfl⟩

/-- Settles O54: every commit of a table writes it entry by entry inside its size, from a canonical table. -/
theorem stepKeepsTablesCanonical : Obligations.StepKeepsTablesCanonical := by
  unfold Obligations.StepKeepsTablesCanonical
  intro s t hs h
  exact step_keeps_of_frame (P := State.TablesCanonical) (fun _ _ _ _ _ _ _ _ => id) resetBlock_canonical
    (fun _ _ _ hE => hE.tableChange.keeps_canonical) h hs

/-! ### The header (R28) -/

/-- HDR up to the length of a header that fits reads as the header after HC_SER has stored it (R151). -/
theorem withHeader_bytes {s : State} {h : List Byte} (hl : h.length ≤ Config.hdrMax) :
    (s.withHeader h).hdrBytes (s.withHeader h).hdrLen.toNat = h := by
  have hlen : (s.withHeader h).hdrLen.toNat = h.length := by
    have : h.length ≤ 65535 := hl
    rw [withHeader_hdrLen, BitVec.toNat_ofNat]
    omega
  rw [hlen]
  refine List.ext_getElem (by simp [State.hdrBytes]) fun j hj1 hj2 => ?_
  simp only [State.hdrBytes, List.getElem_map, List.getElem_range, State.hdrAt, withHeader_hdr, storeBytes_get]
  rw [if_pos (by omega), Nat.sub_zero, List.getD_eq_getElem _ _ hj2]

theorem TableChange.keeps_header {s t : State} (h : TableChange s t) (hs : s.HeaderCurrent) : t.HeaderCurrent := by
  cases h with
  | kept t ht => rw [ht]; exact hs
  | build b hb => exact nofun
  | generate c hc hv => exact nofun
  | serialize hl hv => exact fun _ => withHeader_bytes hl
  | load u hu => exact nofun
  | _ => exact hs

/-- Settles O57: HC_SER stores the serialization, and each command that commits a code table drops the header. -/
theorem stepKeepsHeaderCurrent : Obligations.StepKeepsHeaderCurrent := by
  unfold Obligations.StepKeepsHeaderCurrent
  intro s t hs h
  exact step_keeps_of_frame (P := State.HeaderCurrent) (fun _ _ _ _ _ _ _ _ => id) (fun _ => nofun)
    (fun _ _ _ hE => hE.tableChange.keeps_header) h hs

/-! ### The tree and the walker (R23, R24, R25, R30) -/

/-- R23 to R25 and R30 of the arena, the tree and the walker together: a committed tree sends the walker home. -/
def State.TreeSound (s : State) : Prop := s.ArenaCounted ∧ s.RecordsShaped ∧ s.TreeRooted ∧ s.WalkerPlaced

/-- A change of the walker keeps it on the tree: a commit sends it home, a walk ends on an INTERNAL record or at NIL (R30, R190). -/
theorem Effect.keeps_walker {i : Instr} {s t : State} (h : Effect i s t) (hs : s.WalkerPlaced) : t.WalkerPlaced := by
  cases h with
  | build hi b hb _ => exact (rfl : Config.nil = Config.nil)
  | load hi u hu => exact (rfl : Config.nil = Config.nil)
  | read hi t ht => rw [ht.1]; exact hs
  | push hi t hd ht => rw [ht]; exact hs
  | close hi t ho ht => rcases ht with rfl | rfl <;> exact hs
  | walk hi t ht ho hw => exact hw hs
  | _ => exact hs

theorem Effect.keeps_tree {i : Instr} {s t : State} (h : Effect i s t) (hs : s.TreeSound) : t.TreeSound := by
  obtain ⟨hcount, hshape, hroot, hwalk⟩ := hs
  have hwalk' := h.keeps_walker hwalk
  rcases effect_tree h with ⟨hnode, hvalid, hr, hcnt⟩ | ⟨hgood, -, -⟩
  · refine ⟨?_, ?_, ?_, hwalk'⟩
    · unfold State.ArenaCounted State.nodeAt
      rw [hnode, hcnt]
      exact hcount
    · unfold State.RecordsShaped State.nodeAt
      rw [hnode]
      exact hshape
    · unfold State.TreeRooted State.nodeAt
      rw [hnode, hvalid, hr, hcnt]
      exact hroot
  · exact ⟨⟨hgood.size, hgood.blank⟩, hgood.shaped, fun _ => ⟨hgood.rooted.1, hgood.rooted.2, hgood.inside⟩, hwalk'⟩

theorem resetBlock_treeSound (s : State) : s.resetBlock.TreeSound :=
  ⟨⟨Nat.zero_le _, fun _ _ => rfl⟩, fun _ => ⟨fun _ => rfl, fun _ => ⟨rfl, rfl⟩⟩, nofun, (rfl : Config.nil = Config.nil)⟩

/-- Settles O58: TB_BUILD and HC_LOAD commit a good tree and send the walker home; between them only the walker's own step moves it. -/
theorem stepKeepsTree : Obligations.StepKeepsTree := by
  unfold Obligations.StepKeepsTree
  intro s t hcount hshape hroot hwalk h
  exact step_keeps_of_frame (P := State.TreeSound) (fun _ _ _ _ _ _ _ _ => id) resetBlock_treeSound (fun _ _ _ => Effect.keeps_tree) h
    ⟨hcount, hshape, hroot, hwalk⟩

theorem Effect.keeps_unshared {i : Instr} {s t : State} (h : Effect i s t) (hs : s.ChildrenUnshared) : t.ChildrenUnshared := by
  rcases effect_tree h with ⟨hnode, hvalid, -, -⟩ | ⟨hgood, -, -⟩
  · unfold State.ChildrenUnshared
    rw [hnode, hvalid]
    exact hs
  · exact fun _ => hgood.unshared

theorem Effect.keeps_leavesDistinct {i : Instr} {s t : State} (h : Effect i s t) (hs : s.LeavesDistinct) : t.LeavesDistinct := by
  rcases effect_leaves h with ⟨hnode, hvalid, -⟩ | ⟨honce, -⟩
  · unfold State.LeavesDistinct
    rw [hnode, hvalid]
    exact hs
  · exact fun _ => honce

/-- Settles O59: the trees of TB_BUILD and HC_LOAD are unshared, with one leaf per symbol. -/
theorem stepKeepsChildrenUnshared : Obligations.StepKeepsChildrenUnshared := by
  unfold Obligations.StepKeepsChildrenUnshared
  intro s t h
  exact ⟨step_keeps_of_frame (P := State.ChildrenUnshared) (fun _ _ _ _ _ _ _ _ => id) (fun _ => nofun) (fun _ _ _ => Effect.keeps_unshared) h,
    step_keeps_of_frame (P := State.LeavesDistinct) (fun _ _ _ _ _ _ _ _ => id) (fun _ => nofun) (fun _ _ _ => Effect.keeps_leavesDistinct) h⟩

theorem Effect.keeps_generates {i : Instr} {s t : State} (h : Effect i s t) (hs : s.TreeGenerates) : t.TreeGenerates := by
  rcases effect_tree h with ⟨hnode, hvalid, hroot, -⟩ | ⟨hgood, -, -⟩
  · unfold State.TreeGenerates
    rw [hnode, hvalid, hroot]
    exact hs
  · exact fun _ => hgood.generates

theorem Effect.keeps_hasLeaf {i : Instr} {s t : State} (h : Effect i s t) (hs : s.TreeHasLeaf) : t.TreeHasLeaf := by
  rcases effect_leaves h with ⟨hnode, hvalid, hroot⟩ | ⟨-, hleaf⟩
  · unfold State.TreeHasLeaf State.nodeAt
    rw [hnode, hvalid, hroot]
    exact hs
  · exact fun _ => hleaf

/-- Settles O60: the trees of TB_BUILD and HC_LOAD have a leaf and no path longer than 255, and HC_LOAD's code table is GenCodes' of its
tree, as CG_GEN's is. -/
theorem stepKeepsTreeGenerates : Obligations.StepKeepsTreeGenerates := by
  unfold Obligations.StepKeepsTreeGenerates
  intro s t h
  exact ⟨step_keeps_of_frame (P := State.TreeGenerates) (fun _ _ _ _ _ _ _ _ => id) (fun _ => nofun) (fun _ _ _ => Effect.keeps_generates) h,
    step_keeps_of_frame (P := State.TreeHasLeaf) (fun _ _ _ _ _ _ _ _ => id) (fun _ => nofun) (fun _ _ _ => Effect.keeps_hasLeaf) h,
    step_keeps_of_frame (P := State.CodesCurrent) (fun _ _ _ _ _ _ _ _ => id) (fun _ => nofun) (fun _ _ _ => effect_codes) h⟩

/-! ### The registers (R22, R28, R29, R31, R32) -/

theorem freqCleared_terminator : Table.get 0#32 freqCleared Config.termByte.toNat = 1#32 := by decide

theorem TableChange.keeps_terminator {s t : State} (h : TableChange s t) (hs : s.TerminatorCounted) : t.TerminatorCounted := by
  cases h with
  | kept t ht => rw [ht]; exact hs
  | clear => exact freqCleared_terminator
  | count sym v h3 =>
    have hne : Config.termByte.toNat ≠ sym.toNat := fun heq => h3 (BitVec.eq_of_toNat_eq heq).symm
    exact (table_get_set_other _ _ _ _ _ hne).trans hs
  | load u hu =>
    show u.freqAt Config.termByte = 1#32
    rw [hu.1]
    exact hs
  | _ => exact hs

theorem TableChange.keeps_stages {s t : State} (h : TableChange s t) (hs : s.StagesOrdered) : t.StagesOrdered := by
  obtain ⟨hhdr, hcode, hlen⟩ := hs
  cases h with
  | kept t ht => rw [ht]; exact ⟨hhdr, hcode, hlen⟩
  | build b hb => exact ⟨nofun, nofun, fun _ => rfl⟩
  | generate c hc hv => exact ⟨nofun, fun _ => hv, fun _ => rfl⟩
  | serialize hl hv => exact ⟨fun _ => hv, hcode, nofun⟩
  | load u hu => exact ⟨nofun, fun _ => rfl, fun _ => rfl⟩
  | _ => exact ⟨hhdr, hcode, hlen⟩

theorem Effect.keeps_packer {i : Instr} {s t : State} (h : Effect i s t) (hs : s.PackerConsistent) : t.PackerConsistent := by
  obtain ⟨hlen, hout⟩ := hs
  cases h with
  | load hi u hu =>
    show u.PackerConsistent
    rw [hu.1]
    exact ⟨hlen, hout⟩
  | read hi t ht => rw [ht.1]; exact ⟨hlen, hout⟩
  | openSession hi hidle => exact ⟨rfl, fun _ => rfl⟩
  | writeHeader hi ho hv => exact ⟨hlen, fun hn => absurd rfl hn⟩
  | push hi t hd ht ho hb =>
    have hbp : t.bpState = .hdrDone := by rw [ht]; exact hd
    exact ⟨hb hlen, fun hn => absurd hbp hn⟩
  | close hi t ho ht => rcases ht with rfl | rfl <;> exact ⟨rfl, fun _ => rfl⟩
  | walk hi t ht => rw [ht]; exact ⟨hlen, hout⟩
  | _ => exact ⟨hlen, hout⟩

theorem Effect.errors {i : Instr} {s t : State} (h : Effect i s t) : t.err = s.err ∧ t.errCmd = s.errCmd := by
  cases h with
  | load hi u hu =>
    show u.err = s.err ∧ u.errCmd = s.errCmd
    rw [hu.1]
    exact ⟨rfl, rfl⟩
  | read hi t ht => rw [ht.1]; exact ⟨rfl, rfl⟩
  | push hi t hd ht => rw [ht]; exact ⟨rfl, rfl⟩
  | close hi t ho ht => rcases ht with rfl | rfl <;> exact ⟨rfl, rfl⟩
  | walk hi t ht => rw [ht]; exact ⟨rfl, rfl⟩
  | _ => exact ⟨rfl, rfl⟩

/-- Raising captures a code of R240 and, since that is not 0, frees ERR_CMD from being 0 (R241). -/
theorem raise_errorsLegal {s : State} (hs : s.ErrorsLegal) (e : ErrCode) (info w : Word) : (s.raise e info w).ErrorsLegal := by
  obtain ⟨hnone, hrange⟩ := hs
  obtain ⟨hne, hle⟩ := errCode_range e
  unfold State.ErrorsLegal
  rw [raise_err, raise_errCmd]
  by_cases h0 : s.err = 0x00#8
  · rw [if_pos h0, if_pos h0]
    exact ⟨fun hc => absurd hc hne, hle⟩
  · rw [if_neg h0, if_neg h0]
    exact ⟨hnone, hrange⟩

theorem step_keeps_errors {s t : State} (h : step s = .next t) (hs : s.ErrorsLegal) : t.ErrorsLegal := by
  have hA : Answerable State.ErrorsLegal := ⟨fun _ _ hs => hs, fun _ e info w hs => raise_errorsLegal hs e info w, fun _ hs => hs⟩
  refine step_keeps hA (fun _ _ _ _ hs => hs) (fun _ _ => ⟨fun _ => rfl, Nat.zero_le _⟩) (fun i s t hs hE => ?_) hs h
  unfold State.ErrorsLegal
  rw [hE.errors.1, hE.errors.2]
  exact hs

theorem inPosInside_answerable : Answerable State.InPosInside := .always fun _ _ _ _ _ hs => hs

theorem RuleKeeps.inPosInside {i : Instr} {s t : State} (h : RuleKeeps i s t) (hs : s.InPosInside) : t.InPosInside := by
  obtain ⟨-, -, hinp, -, -, -, -, hin, -⟩ := h
  unfold State.InPosInside
  rw [hinp]
  exact hin hs

/-- IN_POS stays inside IN under every act of the host but binding a new IN (R31, R51, R55). -/
theorem step_keeps_inPosInside {s t : State} (h : step s = .next t) (hs : s.InPosInside)
    (hbind : ∀ bytes rest, s.port ≠ .bindIn bytes :: rest) : t.InPosInside := by
  have hreset : ∀ u : State, u.resetBlock.InPosInside := fun _ => Nat.zero_le _
  rcases step_cases h with ⟨-, rfl⟩ | ⟨rest, ⟨w, i, -, -, hx⟩ | ⟨w, e, -, -, rfl⟩ | ⟨b, hp, -⟩ | ⟨b, -, -, rfl⟩ | ⟨-, rfl⟩⟩
  · exact hs
  · by_cases hi : i = .sreset
    · subst hi
      cases hx
      exact hreset _
    · have hs' : ({ s with port := rest } : State).InPosInside := hs
      exact exec_all inPosInside_answerable hi hs'
        ((ruleOf_keeps i _).imp (fun _ _ hk => hk.inPosInside hs') fun _ hk => hk.inPosInside hs') hx
  · exact inPosInside_answerable.raise _ _ _ _ hs
  · exact absurd hp (hbind b rest)
  · exact hs
  · exact hreset _

/-- Settles O55: each register invariant is kept by the effects that touch its registers; ERR and ERR_CMD change only by raising, and
IN_POS only by reading. -/
theorem stepKeepsRegisters : Obligations.StepKeepsRegisters := by
  unfold Obligations.StepKeepsRegisters
  intro s t h
  exact ⟨step_keeps_of_frame (P := State.TerminatorCounted) (fun _ _ _ _ _ _ _ _ => id) (fun _ => freqCleared_terminator)
      (fun _ _ _ hE => hE.tableChange.keeps_terminator) h,
    step_keeps_of_frame (P := State.PackerConsistent) (fun _ _ _ _ _ _ _ _ => id) (fun _ => ⟨rfl, fun _ => rfl⟩)
      (fun _ _ _ => Effect.keeps_packer) h,
    step_keeps_of_frame (P := State.StagesOrdered) (fun _ _ _ _ _ _ _ _ => id) (fun _ => ⟨nofun, nofun, fun _ => rfl⟩)
      (fun _ _ _ hE => hE.tableChange.keeps_stages) h,
    step_keeps_errors h, step_keeps_inPosInside h⟩

end Sys2Proof.Machine
end

section
/-! What every command's answer says about ERR, ERR_CMD and the streams (R31, R32, R37, R241), and the acts of the host (R55, R210, R271). -/

namespace Sys2Proof.Machine

/-- How a command but SRESET comes to its next state: its rule ends in a state u, which is answered as ignored, with data, or with an
error of R240 (R72, R73, R241). -/
theorem exec_answer {i : Instr} (hi : i ≠ .sreset) {s t : State} (h : exec i s = .next t) :
    ∃ u, RuleKeeps i s u ∧ (t = u.ignored ∨ (∃ d, t = u.respond d) ∨ ∃ e info, t = u.raise e info (encode i)) := by
  rw [exec_eq hi] at h
  split at h
  · cases h
    exact ⟨s, ⟨rfl, rfl, rfl, rfl, rfl, List.prefix_rfl, le_rfl, id, fun _ => rfl⟩, .inl rfl⟩
  · have hk := ruleOf_keeps i s
    cases hr : ruleOf i s with
    | ok d u => rw [hr] at h hk; cases h; exact ⟨u, hk, .inr (.inl ⟨d, rfl⟩)⟩
    | raise e info u => rw [hr] at h hk; cases h; exact ⟨u, hk, .inr (.inr ⟨e, info, rfl⟩)⟩
    | stop f => rw [hr] at h; cases h

/-- Settles O10: only raising writes ERR, and it writes the response and ERR_CMD with it. -/
theorem firstErrorNamesCommand : Obligations.FirstErrorNamesCommand := by
  unfold Obligations.FirstErrorNamesCommand
  intro i s t h0 h hne
  by_cases hi : i = .sreset
  · subst hi
    cases h
    exact absurd rfl hne
  obtain ⟨u, ⟨herr, -⟩, rfl | ⟨d, rfl⟩ | ⟨e, info, rfl⟩⟩ := exec_answer hi h
  · exact absurd (herr.trans h0) hne
  · exact absurd (herr.trans h0) hne
  · simp [herr, h0]

/-- Settles O11: in FAULT no answer writes ERR or ERR_CMD, and no rule does. -/
theorem faultIsSticky : Obligations.FaultIsSticky := by
  unfold Obligations.FaultIsSticky
  intro i s t hi hf h
  obtain ⟨u, ⟨herr, hcmd, -⟩, rfl | ⟨d, rfl⟩ | ⟨e, info, rfl⟩⟩ := exec_answer hi h
  · exact ⟨herr, hcmd⟩
  · exact ⟨herr, hcmd⟩
  · simp [herr, hcmd, hf]

/-- Settles O45: what every rule keeps of the streams, no answer touches; SRESET keeps all of them but IN_POS. -/
theorem streamsOnlyMoveForward : Obligations.StreamsOnlyMoveForward := by
  unfold Obligations.StreamsOnlyMoveForward
  intro i s t h
  by_cases hi : i = .sreset
  · subst hi
    cases h
    exact ⟨rfl, rfl, rfl, List.prefix_rfl, fun hn => absurd rfl hn, by simp⟩
  obtain ⟨u, ⟨-, -, hinp, horacle, hport, hout, hpos, -, hstay⟩, ht⟩ := exec_answer hi h
  have hsame : t.inp = u.inp ∧ t.oracle = u.oracle ∧ t.port = u.port ∧ t.out = u.out ∧ t.inPos = u.inPos := by
    rcases ht with rfl | ⟨d, rfl⟩ | ⟨e, info, rfl⟩ <;> simp
  obtain ⟨ht1, ht2, ht3, ht4, ht5⟩ := hsame
  rw [ht1, ht2, ht3, ht4, ht5]
  exact ⟨hinp, horacle, hport, hout, fun _ => hpos, fun hn => hstay fun hm => hn (List.mem_cons_of_mem _ hm)⟩

/-- A step with an act pending is that act on the state without it (R60, R271). -/
theorem step_hostAct {s : State} {a : HostAct} {rest : List HostAct} (h : s.port = a :: rest) : step s = hostAct a { s with port := rest } := by
  simp only [step, cycle, h]

/-- Settles O7: the act is taken off the port and does what hostAct says. -/
theorem hostActsStep : Obligations.HostActsStep := by
  unfold Obligations.HostActsStep
  intro s rest bytes
  refine ⟨fun h => ?_, fun h => ?_, fun h hidle => ?_, fun h => ?_⟩
  · exact step_hostAct h
  · exact step_hostAct h
  · rw [step_hostAct h]
    exact if_pos hidle
  · simp only [step, cycle, h]

/-- Settles O16: the reset state already holds SRESET's response. -/
theorem sresetRestores : Obligations.SresetRestores := by
  unfold Obligations.SresetRestores
  exact fun s => exec_sreset s

end Sys2Proof.Machine
end

section
/-! The words that the read-back commands respond, field by field (R34, R114, R133). -/

namespace Sys2Proof.Machine

/-! ### STATUS (R34) -/

/-- The sum of R56 over the first n pending bits, where a bit past the stored ones is 0 (log 15). -/
theorem packFrom_take (w n : Nat) (p : Bits) :
    packFrom w (p.take n) = ((List.range n).map fun i => if p.getD i false then 2 ^ (w - i) else 0).sum := by
  induction n generalizing w p with
  | zero => simp [packFrom]
  | succ n ih =>
    cases p with
    | nil => simp [packFrom]
    | cons b p =>
      rw [List.take_succ_cons, packFrom, ih, List.range_succ_eq_map]
      simp [Function.comp_def, Nat.sub_sub, Nat.add_comm 1]

theorem packFrom_lt {w : Nat} {p : Bits} (h : p.length ≤ w + 1) : packFrom w p < 2 ^ (w + 1) := by
  induction p generalizing w with
  | nil => simp [packFrom]
  | cons b p ih =>
    have hbit : (if b then 2 ^ w else 0) ≤ 2 ^ w := by split <;> simp
    rw [packFrom, Nat.pow_succ]
    cases w with
    | zero =>
      have hnil : p = [] := List.eq_nil_of_length_eq_zero (by simpa using h)
      subst hnil
      simp only [packFrom]
      omega
    | succ w =>
      have := ih (w := w) (by simpa using h)
      rw [Nat.add_sub_cancel]
      omega

/-- BB_IMAGE is the sum of p[i]·2^(7-i) over the pending bits (R34, R56, R172). -/
theorem padByte_toNat (s : State) :
    s.padByte.toNat = ((List.range s.bbN.toNat).map fun i => if s.bb.getD i false then 2 ^ (7 - i) else 0).sum := by
  have hn := s.bbN.isLt
  have hlt : packFrom 7 (s.bb.take s.bbN.toNat) < 2 ^ 8 := packFrom_lt (by rw [List.length_take]; omega)
  rw [State.padByte, packMsb, BitVec.toNat_ofNat, Nat.mod_eq_of_lt hlt, packFrom_take]

/-- The fields of STATUS (R34). -/
theorem status_fields (s : State) :
    s.status.extractLsb' 0 8 = s.err ∧ s.status.extractLsb' 12 2 = s.bpState.bits ∧ s.status.extractLsb' 14 3 = s.bbN ∧
      s.status.extractLsb' 17 2 = s.wState.bits ∧ s.status.extractLsb' 20 8 = s.padByte ∧ s.status.extractLsb' 28 4 = 0#4 := by
  refine ⟨?_, ?_, ?_, ?_, ?_, ?_⟩ <;>
  · refine BitVec.eq_of_getLsbD_eq fun j hj => ?_
    rw [BitVec.getLsbD_extractLsb', status_bit s _ (by omega)]
    interval_cases j <;> simp

/-- The flags of STATUS, and its bit 19 (R34). -/
theorem status_flags (s : State) :
    s.status.getLsbD 8 = s.inFault ∧ s.status.getLsbD 9 = s.treeValid ∧ s.status.getLsbD 10 = s.codeValid ∧
      s.status.getLsbD 11 = s.hdrValid ∧ s.status.getLsbD 19 = false := by
  refine ⟨?_, ?_, ?_, ?_, ?_⟩ <;>
  · rw [status_bit s _ (by omega)]
    rfl

theorem inFault_eq_decide (s : State) : s.inFault = decide (s.err ≠ 0x00#8) := by
  by_cases h : s.err = 0x00#8
  · simp [inFault_eq_false h, h]
  · simp [inFault_eq_true h, h]

/-- BP_CLOSE with bits pending and a write that does not fail appends the pad byte (R178). -/
theorem exec_bpClose_pad {s : State} (ho : s.bpState ≠ .idle) (hn : s.bbN ≠ 0#3) (hw : s.out.length ∉ s.oracle.writeFails) :
    ∃ t, exec .bpClose s = .next t ∧ t.out = s.out ++ [s.padByte] := by
  have hn' : s.bbN.toNat ≠ 0 := fun h => hn (BitVec.eq_of_toNat_eq h)
  have hwrite := outWrite_done (b := s.padByte) (s := s.released) hw
  have hexec : exec .bpClose s = finish (encode .bpClose) (bpCloseRule s) := rfl
  rw [hexec, bpCloseRule, if_neg ho, if_neg hn', hwrite]
  exact ⟨_, rfl, rfl⟩

/-- Settles O17: STATUS field by field, and the byte that BP_CLOSE appends. -/
theorem statusWordFields : Obligations.StatusWordFields := by
  unfold Obligations.StatusWordFields
  refine ⟨⟨rfl, rfl, rfl⟩, ⟨rfl, rfl, rfl⟩, fun s => ⟨s.status, rfl, ?_⟩⟩
  obtain ⟨herr, hbp, hbbN, hw, hpad, hzero⟩ := status_fields s
  obtain ⟨hfault, htree, hcode, hhdr, h19⟩ := status_flags s
  rw [hpad]
  exact ⟨herr, hfault.trans (inFault_eq_decide s), htree, hcode, hhdr, hbp, hbbN, hw, h19, padByte_toNat s, hzero, exec_bpClose_pad⟩

/-! ### RD_NODE (R114) -/

theorem nodeWord_fields (r : Node) :
    (nodeWord r).extractLsb' 28 4 = 0#4 ∧ (nodeWord r).extractLsb' 26 2 = r.kind.bits ∧ (nodeWord r).extractLsb' 17 9 = r.zero ∧
      (nodeWord r).extractLsb' 8 9 = r.one ∧ (nodeWord r).extractLsb' 0 8 = r.sym := by
  refine ⟨?_, ?_, ?_, ?_, ?_⟩ <;>
  · refine BitVec.eq_of_getLsbD_eq fun j hj => ?_
    simp only [nodeWord, BitVec.getLsbD_extractLsb', BitVec.getLsbD_or, BitVec.getLsbD_shiftLeft, BitVec.getLsbD_setWidth]
    interval_cases j <;> simp

/-- Settles O19: R114's fields lie side by side in the word. -/
theorem rdNodeFields : Obligations.RdNodeFields := by
  unfold Obligations.RdNodeFields
  refine ⟨⟨rfl, rfl, rfl, rfl⟩, fun s idx h0 hidx => ⟨nodeWord (s.nodeAt idx), ?_, nodeWord_fields _⟩⟩
  have hin : idxInArena idx = true := by simpa [idxInArena, Config.nil] using hidx
  rw [exec_run (i := .rdNode idx) nofun h0, ruleOf, rdNodeRule, if_pos hin]
  rfl

/-! ### RD_CODEW (R133) -/

theorem getLsbD_oneBit {m n : Nat} (hn : n < 32) : (1#32 <<< m).getLsbD n = decide (n = m) := by
  rw [BitVec.getLsbD_shiftLeft, BitVec.getLsbD_one]
  simp only [hn]
  by_cases h : n = m
  · simp [h]
  · simp [h]; omega

/-- Setting bit 31 - j for each j of a list that satisfies p sets no other bit. -/
theorem foldl_setBits (p : Nat → Bool) (l : List Nat) (hl : ∀ j ∈ l, j < 32) (d : Word) {k : Nat} (hk : k < 32) :
    (l.foldl (fun d j => if p j then d ||| (1#32 <<< (31 - j)) else d) d).getLsbD (31 - k) =
      (d.getLsbD (31 - k) || (decide (k ∈ l) && p k)) := by
  induction l generalizing d with
  | nil => simp
  | cons j l ih =>
    have hj := hl j (by simp)
    have hbit : (d ||| 1#32 <<< (31 - j)).getLsbD (31 - k) = (d.getLsbD (31 - k) || decide (k = j)) := by
      rw [BitVec.getLsbD_or, getLsbD_oneBit (by omega), decide_eq_decide.2 (show 31 - k = 31 - j ↔ k = j by omega)]
    rw [List.foldl_cons, ih fun i hi => hl i (by simp [hi])]
    by_cases hkj : k = j
    · subst hkj
      cases hp : p k <;> simp [hbit]
    · cases hp : p j <;> simp [hbit, hkj]

theorem codeWord_bit (c : Bits) (len : Nat) (w : BitVec 3) {j : Nat} (hj : j < 32) :
    (codeWord c len w).getLsbD (31 - j) = (decide (32 * w.toNat + j < len) && c.getD (32 * w.toNat + j) false) := by
  have h := foldl_setBits (fun j => decide (32 * w.toNat + j < len) && c.getD (32 * w.toNat + j) false) (List.range 32)
    (fun _ => List.mem_range.1) 0#32 hj
  simpa [codeWord, hj] using h

/-- Settles O21: each round of R133's loop sets its own bit. -/
theorem rdCodeWBits : Obligations.RdCodeWBits := by
  unfold Obligations.RdCodeWBits
  intro s w sym h0
  refine ⟨codeWord (s.codeBitsAt sym) (s.codeLenAt sym).toNat w, ?_, fun j hj => codeWord_bit _ _ _ hj⟩
  rw [exec_run (i := .rdCodeW w sym) nofun h0]
  rfl

end Sys2Proof.Machine
end

section
/-! What the code generator, the serializer and the loader commit (R130, R150 to R157). -/

namespace Sys2Proof.Machine

/-! ### GenCodes (R130) -/

/-- Where a generated code leads, if it is not empty (R130). -/
theorem genCodes_code_follows {arena : Table Node} {root : NodeIx} {c : CodeTable} (h : genCodes arena root = .ok c) {sym : Byte}
    (hn : Table.get [] c.bits sym.toNat ≠ []) : LeafAt arena root (Table.get [] c.bits sym.toNat) sym := by
  refine genCodes_leafAt h fun hz => hn ?_
  have hlen := genCodes_lengths h sym
  rw [hz] at hlen
  exact List.eq_nil_of_length_eq_zero hlen

/-- A symbol with a leaf at the end of a non-empty path has a code: no path is empty, since the root is no leaf (R130). -/
theorem genCodes_code_ne_nil {arena : Table Node} {root : NodeIx} {c : CodeTable} (h : genCodes arena root = .ok c) {p : Bits} {sym : Byte}
    (hp : p ≠ []) (hleaf : LeafAt arena root p sym) : Table.get [] c.bits sym.toNat ≠ [] := by
  obtain ⟨-, -, es, rfl, hes⟩ := genCodes_paths h
  rcases codesFold_get es CodeTable.clear sym with ⟨hnone, -⟩ | ⟨q, hq, hbits, -⟩
  · exact absurd rfl (hnone _ ((hes sym p).2 hleaf))
  · intro hnil
    have hqnil : q = [] := hbits.symm.trans hnil
    obtain ⟨j, hj, -⟩ := hleaf
    subst hqnil
    exact hp (((hes sym []).1 hq).maximal hj List.nil_prefix).symm

/-- In a tree whose records are unshared and whose symbols are once, a symbol's code is its leaf's path (R25, R117, R130). -/
theorem genCodes_code_eq_path {arena : Table Node} {root : NodeIx} {c : CodeTable} (h : genCodes arena root = .ok c) (hu : Unshared arena)
    (ho : SymbolsOnce arena) {p : Bits} {i : NodeIx} (hp : p ≠ []) (hi : follow arena root p = some i) (hn : i ≠ Config.nil)
    (hk : (arenaAt arena i).kind = .leaf) : Table.get [] c.bits (arenaAt arena i).sym.toNat = p := by
  have hne := genCodes_code_ne_nil h hp ⟨i, hi, hn, hk, rfl⟩
  obtain ⟨j, hj, hjn, hjk, hjs⟩ := genCodes_code_follows h hne
  have hji : j = i := ho j i hjk hk hjs
  exact follow_unique hu h (hji ▸ hj) hi hn

/-- Settles O30: GenCodes' table holds exactly the paths to the leaves (genCodes_paths). -/
theorem codesArePaths : Obligations.CodesArePaths := by
  unfold Obligations.CodesArePaths
  intro arena root c h
  obtain ⟨-, hshort, -⟩ := genCodes_paths h
  exact ⟨fun sym => ⟨(genCodes_lengths h sym).symm, genCodes_code_follows h⟩, fun p i hp hi hn hk =>
    ⟨hshort p ⟨i, hi, hn⟩, genCodes_code_ne_nil h hp ⟨i, hi, hn, hk, rfl⟩, fun hu ho => genCodes_code_eq_path h hu ho hp hi hn hk⟩⟩

/-! ### HC_SER (R150 to R152) -/

theorem flatMap_filter_ite {α β : Type} (p : α → Bool) (f : α → List β) (l : List α) :
    (l.filter p).flatMap f = l.flatMap fun a => if p a then f a else [] := by
  induction l with
  | nil => rfl
  | cons a l ih => cases hp : p a <;> simp [hp, ih]

/-- Serialize as a loop over the 256 symbols (R150). -/
theorem serialize_eq_range (s : State) :
    s.serialize = (List.range 256).flatMap fun n =>
      if s.codeLenAt (BitVec.ofNat 8 n) = 0#8 then []
      else [BitVec.ofNat 8 n] ++ (List.range (s.codeLenAt (BitVec.ofNat 8 n)).toNat).map (fun j =>
        if (s.codeBitsAt (BitVec.ofNat 8 n)).getD j false then 0x31#8 else 0x30#8) ++ [0x1E#8] := by
  rw [State.serialize, symbols, flatMap_filter_ite, List.flatMap_map]
  refine List.flatMap_congr fun n _ => ?_
  by_cases hn : s.codeLenAt (BitVec.ofNat 8 n) = 0#8
  · simp [hn]
  · simp only [bne_iff_ne, ne_eq, hn, not_false_eq_true, if_true, if_false, entryBytes, State.codeOf, List.map_map]
    rfl

/-- HDR_LEN as R152's sum over the 256 symbols. -/
theorem serialize_length_range (s : State) :
    s.serialize.length = ((List.range 256).map fun n =>
      if s.codeLenAt (BitVec.ofNat 8 n) = 0#8 then 0 else (s.codeLenAt (BitVec.ofNat 8 n)).toNat + 2).sum := by
  rw [serialize_eq_range, List.length_flatMap]
  refine congrArg List.sum (List.map_congr_left fun n _ => ?_)
  split
  · rfl
  · simp

/-- HC_SER of a valid code table whose serialization fits (R151). -/
theorem exec_hcSer {s : State} (h0 : s.err = 0x00#8) (hidle : s.bpState = .idle) (hv : s.codeValid = true)
    (hl : s.serialize.length ≤ Config.hdrMax) :
    exec .hcSer s = .next ((s.withHeader s.serialize).respond ((s.withHeader s.serialize).hdrLen.setWidth 32)) := by
  rw [exec_run (i := .hcSer) nofun h0, ruleOf, hcSerRule, if_neg (by simp [hidle]), if_neg (by simp [hv]), if_neg (by omega)]
  rfl

/-- Settles O32: HC_SER stores the serialization from HDR[0] on, and a valid code table's fits because its tree is unshared
(serialize_fits). -/
theorem hcSerResult : Obligations.HcSerResult := by
  unfold Obligations.HcSerResult
  refine ⟨fun s h0 hidle hv hl => ⟨_, exec_hcSer h0 hidle hv hl, ?_⟩, fun s hv hc hstages hu => ?_⟩
  · have hlen : (s.withHeader s.serialize).hdrLen.toNat = s.serialize.length := by
      rw [withHeader_hdrLen, BitVec.toNat_ofNat]
      omega
    have hat : ∀ i, (s.withHeader s.serialize).hdrAt i = if i < s.serialize.length then s.serialize.getD i 0x00#8 else s.hdrAt i := by
      intro i
      rw [State.hdrAt, withHeader_hdr, storeBytes_get, Nat.zero_add, Nat.sub_zero]
      simp only [Nat.zero_le, true_and]
      rfl
    refine ⟨hlen, rfl, fun i hi => ?_, fun i hi => ?_, ?_, ?_, rfl⟩
    · exact (hat i).trans (if_pos hi)
    · exact (hat i).trans (if_neg (by omega))
    · exact (withHeader_bytes hl).trans (serialize_eq_range s)
    · exact hlen.trans (serialize_length_range s)
  · obtain ⟨-, htree, -⟩ := hstages
    exact serialize_fits (hu (htree hv)) (hc hv)

/-! ### HC_LOAD (R153 to R157) -/

/-- HC_LOAD of a header that is there, parses and reconstructs (R157). -/
theorem exec_hcLoad {s : State} {block rest : List Byte} {es : List (Byte × Bits)} {arena : Table Node} {cnt : Nat} (h0 : s.err = 0x00#8)
    (hidle : s.bpState = .idle) (ho : ∀ j < 4 + block.length, s.inPos.toNat + j ∉ s.oracle.readFails)
    (hl : s.inPos.toNat + 4 + block.length < 2 ^ 64)
    (hin : s.inp.drop s.inPos.toNat = le32 (BitVec.ofNat 32 block.length) ++ block ++ rest) (hpos : 0 < block.length)
    (hmax : block.length ≤ 65535) (hp : parseEntries block = .ok es) (hr : reconstruct es = .ok (arena, cnt)) :
    exec .hcLoad s = .next (((s.advance (4 + block.length)).withLoaded es arena cnt).respond
      ((BitVec.ofNat 32 es.length <<< 16) ||| BitVec.ofNat 32 block.length)) := by
  rw [exec_run (i := .hcLoad) nofun h0, ruleOf, hcLoadRule_read hidle hin hpos hmax ho hl, hp, Res.ofHdr, res_bind_ok, hr, Res.ofHdr,
    res_bind_ok, finish_ok]

/-- The code table of entries whose symbols are once, each code of 1 to 255 bits (R157). -/
theorem codesOf_entry {es : List (Byte × Bits)} (hn : (es.map Prod.fst).Nodup) (hl : ∀ e ∈ es, e.2 ≠ [] ∧ e.2.length ≤ 255)
    {e : Byte × Bits} (he : e ∈ es) :
    (Table.get 0#8 (codesOf es).len e.1.toNat).toNat = e.2.length ∧ Table.get [] (codesOf es).bits e.1.toNat = e.2 := by
  have hu : ∀ d, (e.1, d) ∈ es → d = e.2 := fun d hd => congrArg Prod.snd (List.inj_on_of_nodup_map hn hd he rfl)
  obtain ⟨hbits, hlen⟩ := codesOf_get_of_mem he hu
  refine ⟨?_, hbits⟩
  have := (hl e he).2
  rw [hlen, BitVec.toNat_ofNat]
  omega

/-- Settles O34: HC_LOAD commits the arena and codes of the entries, and the paths of the arena are the entries' codes
(reconstruct_grown). -/
theorem hcLoadCommits : Obligations.HcLoadCommits := by
  unfold Obligations.HcLoadCommits
  intro s block rest es arena cnt h0 hidle ho hl hin hpos hmax hp hr
  have hlens : ∀ e ∈ es, e.2 ≠ [] ∧ e.2.length ≤ 255 := parseFrom_lengths hp
  have hgrown := reconstruct_grown hlens hr
  have hadv : (s.advance (4 + block.length)).inPos.toNat = s.inPos.toNat + 4 + block.length := by
    rw [advance_pos (by omega), Nat.add_assoc]
  refine ⟨_, exec_hcLoad h0 hidle ho hl hin hpos hmax hp hr, hadv, rfl, rfl, rfl, rfl, rfl, rfl, rfl, rfl, rfl, rfl, rfl, rfl, rfl,
    fun e he => codesOf_entry hgrown.once hlens he, fun sym hs => ?_, hgrown.genCodes⟩
  have hnone : ∀ e ∈ es, e.1 ≠ sym := fun e he heq => hs (heq ▸ List.mem_map_of_mem he)
  exact (codesOf_get_of_none hnone).symm

end Sys2Proof.Machine
end

section
/-! HC_LOAD's errors (R153 to R157, R240, R244), and what Reconstruct refuses and builds (R156). -/

namespace Sys2Proof.Machine

/-! ### The reads that end HC_LOAD -/

/-- Outside FAULT, a command whose rule raises an error answers with it (R241). -/
theorem exec_of_raise {i : Instr} (hi : i ≠ .sreset) {s u : State} {e : ErrCode} {info : Word} (h0 : s.err = 0x00#8)
    (hr : ruleOf i s = .raise e info u) : exec i s = .next (u.raise e info (encode i)) := by
  rw [exec_run hi h0, hr, finish_raise]

/-- IN ends after n bytes from here (R51, R153, R154). -/
theorem readHeaderByte_advance_eof {s : State} {n : Nat} (info : Nat) (hl : s.inPos.toNat + n < 2 ^ 64)
    (hend : s.inp.length = s.inPos.toNat + n) :
    readHeaderByte info (s.advance n) = .raise .hdrTrunc (BitVec.ofNat 32 info) (s.advance n) :=
  readHeaderByte_eof ((advance_pos hl).trans hend.symm)

/-- The read of the byte n from here fails (R51, R53). -/
theorem readHeaderByte_advance_fail {s : State} {n : Nat} (info : Nat) (hl : s.inPos.toNat + n < 2 ^ 64)
    (hin : s.inPos.toNat + n < s.inp.length) (ho : s.inPos.toNat + n ∈ s.oracle.readFails) :
    readHeaderByte info (s.advance n) = .raise .io (BitVec.ofNat 32 (s.inPos.toNat + n)) (s.advance n) := by
  have hpos := advance_pos hl
  rw [readHeaderByte_fail (hpos.symm ▸ hin) (hpos.symm ▸ ho), ← BitVec.ofNat_toNat, hpos]

/-- HC_LOAD whose byte n, among the four of the length, raises an error (R153). -/
theorem hcLoadRule_lengthByte_raise {s : State} {n : Nat} (hidle : s.bpState = .idle) (hn : n < 4) (hl : s.inPos.toNat + n < 2 ^ 64)
    (hin : s.inPos.toNat + n ≤ s.inp.length) (ho : ∀ j < n, s.inPos.toNat + j ∉ s.oracle.readFails) {e : ErrCode} {info : Word}
    (hr : readHeaderByte n (s.advance n) = .raise e info (s.advance n)) : hcLoadRule s = .raise e info (s.advance n) := by
  rw [hcLoadRule, if_neg (by simp [hidle]), readLength_raise hn hin ho hl hr, res_bind_raise]

/-- HC_LOAD whose length is there: the rest of the rule, from the byte after it (R153). -/
theorem hcLoadRule_of_length {s : State} {v : Word} {rest : List Byte} (hidle : s.bpState = .idle)
    (hin : s.inp.drop s.inPos.toNat = le32 v ++ rest) (ho : ∀ j < 4, s.inPos.toNat + j ∉ s.oracle.readFails)
    (hl : s.inPos.toNat + 4 < 2 ^ 64) {e : ErrCode} {info : Word} {u : State} (hr : readBlock v.toNat (s.advance 4) = .raise e info u) :
    hcLoadRule s = .raise e info u := by
  rw [hcLoadRule, if_neg (by simp [hidle]), readLength_ok hin ho hl, res_bind_ok, hr, res_bind_raise]

/-- HC_LOAD whose byte n, inside the block, raises an error (R154). -/
theorem hcLoadRule_block_raise {s : State} {n len : Nat} {rest : List Byte} (hidle : s.bpState = .idle) (h4 : 4 ≤ n) (hn : n < 4 + len)
    (hmax : len ≤ 65535) (hl : s.inPos.toNat + n < 2 ^ 64) (hin : s.inPos.toNat + n ≤ s.inp.length)
    (ho : ∀ j < n, s.inPos.toNat + j ∉ s.oracle.readFails) (hb : s.inp.drop s.inPos.toNat = le32 (BitVec.ofNat 32 len) ++ rest)
    {e : ErrCode} {info : Word} (hr : readHeaderByte n (s.advance n) = .raise e info (s.advance n)) :
    hcLoadRule s = .raise e info (s.advance n) := by
  obtain ⟨m, rfl⟩ := Nat.exists_eq_add_of_le h4
  have hv : (BitVec.ofNat 32 len).toNat = len := by rw [BitVec.toNat_ofNat]; omega
  have hp : (s.advance 4).inPos.toNat = s.inPos.toNat + 4 := advance_pos (by omega)
  have hrest : s.inp.drop (s.inPos.toNat + 4) = rest := by
    rw [← List.drop_drop, hb]
    rfl
  have hm : (rest.take m).length = m := by
    rw [List.length_take, ← hrest, List.length_drop]
    omega
  have hadv : (s.advance 4).advance m = s.advance (4 + m) := advance_advance (by omega)
  refine hcLoadRule_of_length hidle hb (fun j hj => ho j (by omega)) (by omega) ?_
  rw [hv, readBlock, if_neg (by simp only [Config.hdrMax]; omega)]
  have hraise := readBytes_raise (s := s.advance 4) (bs := rest.take m) (rest := rest.drop m) (n := len) 0 (e := e) (info := info)
  rw [hm, hp, Nat.zero_add, hadv, List.take_append_drop] at hraise
  refine hraise hrest (fun j hj => ?_) (by omega) (by omega) hr
  rw [Nat.add_assoc]
  exact ho (4 + j) (by omega)

/-- HC_LOAD of a length that is 0 or above HDR_MAX (R154). -/
theorem hcLoadRule_badLength {s : State} {v : Word} {rest : List Byte} (hidle : s.bpState = .idle)
    (hin : s.inp.drop s.inPos.toNat = le32 v ++ rest) (ho : ∀ j < 4, s.inPos.toNat + j ∉ s.oracle.readFails)
    (hl : s.inPos.toNat + 4 < 2 ^ 64) (hv : v = 0#32 ∨ 65535 < v.toNat) : hcLoadRule s = .raise .hdrMalformed v (s.advance 4) := by
  refine hcLoadRule_of_length hidle hin ho hl ?_
  have hbad : v.toNat = 0 ∨ Config.hdrMax < v.toNat := hv.imp_left fun h => by rw [h]; rfl
  rw [readBlock, if_pos hbad, BitVec.ofNat_toNat, BitVec.setWidth_eq]

/-- HC_LOAD of a whole block that does not parse, or does not reconstruct (R155, R156). -/
theorem hcLoadRule_whole_raise {s : State} {block rest : List Byte} (hidle : s.bpState = .idle)
    (hb : s.inp.drop s.inPos.toNat = le32 (BitVec.ofNat 32 block.length) ++ block ++ rest) (h0 : 0 < block.length)
    (h1 : block.length ≤ 65535) (ho : ∀ j < 4 + block.length, s.inPos.toNat + j ∉ s.oracle.readFails)
    (hl : s.inPos.toNat + (4 + block.length) < 2 ^ 64) {e : ErrCode} {k : Nat}
    (hbad : parseEntries block = .error (e, k) ∨ ∃ es, parseEntries block = .ok es ∧ reconstruct es = .error (e, k)) :
    hcLoadRule s = .raise e (BitVec.ofNat 32 k) (s.advance (4 + block.length)) := by
  rw [hcLoadRule_read hidle hb h0 h1 ho (by omega)]
  rcases hbad with hp | ⟨es, hp, hr⟩
  · rw [hp]
    rfl
  · rw [hp, Res.ofHdr, res_bind_ok, hr]
    rfl

/-- An HC_LOAD that does not respond 0x00 has changed IN_POS and the error's record only (R157, R244). -/
theorem exec_hcLoad_error_frame {s t : State} (h : exec .hcLoad s = .next t) (hne : t.rspCode ≠ 0x00#8) :
    t = { s with inPos := t.inPos, rspCode := t.rspCode, rspData := t.rspData, err := t.err, errCmd := t.errCmd } ∧
      s.inPos.toNat ≤ t.inPos.toNat := by
  rw [exec_eq (i := .hcLoad) nofun] at h
  split at h
  · cases h
    exact ⟨rfl, le_rfl⟩
  · have hpost := hcLoadRule_post s
    rw [ruleOf] at h
    cases hr : hcLoadRule s with
    | ok d u => rw [hr] at h; cases h; exact absurd rfl hne
    | stop f => rw [hr] at h; cases h
    | raise e info u =>
      rw [hr] at h hpost
      cases h
      obtain ⟨heq, hle, -⟩ := hpost
      rw [raise_inPos]
      refine ⟨?_, hle⟩
      rw [heq]
      unfold State.raise
      split <;> rfl

/-! ### What Reconstruct refuses and builds (R156) -/

/-- Reconstruct refuses an entry with its index, whatever comes after it (R156). -/
theorem reconstruct_refuses {pre post : List (Byte × Bits)} {sym : Byte} {c : Bits} {t : Table Node} {cnt : Nat} (hg : Grown t cnt pre)
    (hr : reconstruct pre = .ok (t, cnt)) (hc0 : c ≠ []) (hcl : c.length ≤ 255)
    (hbad : sym ∈ pre.map Prod.fst ∨ (∃ e ∈ pre, e.2 <+: c ∨ c <+: e.2) ∨ 511 < cnt + newRecords pre c) :
    reconstruct (pre ++ (sym, c) :: post) = .error (.hdrTree, pre.length) := by
  rw [reconstruct_snoc hr]
  split
  · rfl
  · rename_i hs
    rw [((hg.insert sym hc0 hcl).1).2 (hbad.resolve_left hs)]

/-- The records after the last `new` bits of a code were placed: the parent, the new internal records, the leaf, the old records (R156). -/
theorem placedRecord_drop (t : Table Node) {cnt new : Nat} (i : NodeIx) (sym : Byte) {c : Bits} (hpos : 0 < new) (hle : new ≤ c.length)
    (k : Nat) :
    placedRecord t cnt i sym (c.drop (c.length - new)) k =
      if k = i.toNat then
        let r := Table.get Node.blank t k
        if c.getD (c.length - new) false then { r with one := BitVec.ofNat 9 cnt } else { r with zero := BitVec.ofNat 9 cnt }
      else if cnt ≤ k ∧ k + 1 < cnt + new then
        if c.getD (c.length - new + (k + 1 - cnt)) false then ⟨.internal, 0#8, 511#9, BitVec.ofNat 9 (k + 1), 0#64⟩
        else ⟨.internal, 0#8, BitVec.ofNat 9 (k + 1), 511#9, 0#64⟩
      else if k + 1 = cnt + new then ⟨.leaf, sym, 511#9, 511#9, 0#64⟩
      else Table.get Node.blank t k := by
  have hlen : (c.drop (c.length - new)).length = new := by rw [List.length_drop]; omega
  have hget : ∀ j, (c.drop (c.length - new)).getD j false = c.getD (c.length - new + j) false := by
    intro j
    rw [List.getD_eq_getElem?_getD, List.getElem?_drop, ← List.getD_eq_getElem?_getD]
  rw [placedRecord, hlen, hget, hget, Nat.add_zero]
  by_cases hk : k = i.toNat
  · rw [if_pos hk, if_pos hk]
    rfl
  rw [if_neg hk, if_neg hk]
  by_cases hold : k < cnt
  · rw [if_pos hold, if_neg (by omega), if_neg (by omega)]
  rw [if_neg hold]
  by_cases hmid : k + 1 < cnt + new
  · rw [if_pos hmid, if_pos ⟨by omega, hmid⟩]
    rfl
  · have hmid' : ¬(cnt ≤ k ∧ k + 1 < cnt + new) := fun h => hmid h.2
    rw [if_neg hmid, if_neg hmid']
    rfl

/-- Settles O35: each of HC_LOAD's steps raises its own error at its own byte, before anything is committed; the entries so far are the
paths of the arena (Grown), which says when the next one is refused and where its records go. -/
theorem hcLoadErrorKeepsTables : Obligations.HcLoadErrorKeepsTables := by
  unfold Obligations.HcLoadErrorKeepsTables
  refine ⟨fun s t => exec_hcLoad_error_frame, fun s p n h0 hidle hp hl hin ho => ?_,
    fun pre post sym c arena cnt new hpre hc0 hcl hr hnew => ?_, _, rfl, fun k => ?_⟩
  · subst hp
    have answer {e : ErrCode} {info : Word} {m : Nat} (hr : hcLoadRule s = .raise e info (s.advance m)) :=
      exec_of_raise (i := .hcLoad) nofun h0 hr
    refine ⟨fun hn hend => ?_, fun hn hlt hf => ?_, fun len rest h4 hn _ hmax hb => ⟨fun hend => ?_, fun hlt hf => ?_⟩,
      fun v rest h4 hb hv => ?_, fun block rest hn hpos hmax hb => ?_⟩
    · exact answer (hcLoadRule_lengthByte_raise hidle hn hl hin ho (readHeaderByte_advance_eof n hl hend))
    · exact answer (hcLoadRule_lengthByte_raise hidle hn hl hin ho (readHeaderByte_advance_fail n hl hlt hf))
    · exact answer (hcLoadRule_block_raise hidle h4 hn hmax hl hin ho hb (readHeaderByte_advance_eof n hl hend))
    · exact answer (hcLoadRule_block_raise hidle h4 hn hmax hl hin ho hb (readHeaderByte_advance_fail n hl hlt hf))
    · subst h4
      exact answer (hcLoadRule_badLength hidle hb ho hl hv)
    · subst hn
      exact ⟨fun e k hparse => answer (hcLoadRule_whole_raise hidle hb hpos hmax ho hl (.inl hparse)),
        fun es e k hparse hrec => answer (hcLoadRule_whole_raise hidle hb hpos hmax ho hl (.inr ⟨es, hparse, hrec⟩))⟩
  · have hg := reconstruct_grown hpre hr
    have hnew : new = newRecords pre c := hnew
    subst hnew
    refine ⟨reconstruct_refuses hg hr hc0 hcl, fun hgood => ?_⟩
    obtain ⟨hsym, hfits⟩ := not_or.1 hgood
    obtain ⟨arena', hrec, -, hins⟩ := hg.snoc hr hc0 hcl hsym hfits
    obtain ⟨hpos, hle, i, hfollow, -, hget⟩ := hg.layout hc0 hcl hins
    exact ⟨hpos, arena', i, hrec, hfollow, fun k => (hget k).trans (placedRecord_drop arena i sym hpos hle k)⟩
  · rw [table_get_set]
    rfl

end Sys2Proof.Machine
end

section
/-! The command cycle, InRead, the little-endian length and the weight halves as the host sees them (R51, R57, R58, R60, R72). -/

namespace Sys2Proof.Machine

/-- The two halves of R58 side by side are the weight. -/
theorem weightHalf_recombine (x : BitVec 64) : x.toNat = (weightHalf true x).toNat * 2 ^ 32 + (weightHalf false x).toNat := by
  have hx := x.isLt
  simp only [weightHalf, if_true, Bool.false_eq_true, if_false, BitVec.extractLsb'_toNat, Nat.shiftRight_eq_div_pow]
  omega

/-- Settles O20: RD_NWT responds the half that h selects, and the halves recombine. -/
theorem rdNwtHalves : Obligations.RdNwtHalves := by
  unfold Obligations.RdNwtHalves
  intro s idx h0 hidx
  have hin : idxInArena idx = true := by simpa [idxInArena, Config.nil] using hidx
  have hexec (h : Bool) : exec (.rdNwt h idx) s = .next (s.respond (weightHalf h (s.nodeAt idx).weight)) := by
    rw [exec_run (i := .rdNwt h idx) nofun h0, ruleOf, rdNwtRule, if_pos hin, finish_ok]
  exact ⟨_, _, hexec false, hexec true, weightHalf_recombine _⟩

/-- The four bytes of R57, weighted by their places, are the value they were cut from. -/
theorem le32Value_bytes (v : Word) :
    le32Value (v.extractLsb' 0 8) (v.extractLsb' 8 8) (v.extractLsb' 16 8) (v.extractLsb' 24 8) = v.toNat := by
  have hv := v.isLt
  simp only [le32Value, BitVec.extractLsb'_toNat, Nat.shiftRight_eq_div_pow]
  omega

/-- Settles O33: what is written is the four bytes of the value, and weighting them gives the value back. -/
theorem lengthPrefixRoundTrip : Obligations.LengthPrefixRoundTrip := by
  unfold Obligations.LengthPrefixRoundTrip
  exact fun v => ⟨_, _, _, _, rfl, le32Value_bytes v, rfl, rfl, rfl, rfl, rfl⟩

/-- Settles O5: Execute runs the instruction that the word decodes to. -/
theorem stepRunsDecodedCommand : Obligations.StepRunsDecodedCommand := by
  unfold Obligations.StepRunsDecodedCommand
  intro s w rest i hport hw
  rw [step_hostAct hport, hostAct, executeWord, hw]

/-- InRead of a byte whose read fails consumes nothing (R51). -/
theorem inRead_fail {s : State} (h : s.inPos.toNat < s.inp.length) (ho : s.inPos.toNat ∈ s.oracle.readFails) :
    inRead s = .raise .io (s.inPos.setWidth 32) s := by
  simp [inRead, List.getElem?_eq_getElem h, IoOracle.read, ho]

/-- Settles O41: BR_EXT answers InRead's byte, end of input or failure. -/
theorem brExtResult : Obligations.BrExtResult := by
  unfold Obligations.BrExtResult
  intro s h0
  have hexec : exec .brExt s = finish (encode .brExt) (brExtRule s) := exec_run (i := .brExt) nofun h0
  rw [hexec, brExtRule]
  refine ⟨fun b hb ho hl => ?_, fun hend => ?_, fun hlt hf => ?_⟩
  · rw [inRead_byte hb ho hl]
    rfl
  · rw [inRead_eof hend]
    rfl
  · rw [inRead_fail hlt hf]
    rfl

end Sys2Proof.Machine
end

section
/-! The bit packer's commands: what they append to OUT, what they leave pending, and what a failing write drops (R56, R59, R170 to R178). -/

namespace Sys2Proof.Machine

/-! ### BP_HDR (R174) -/

/-- The file header that BP_HDR writes: HDR_LEN in two bytes and two zeros, since it is below 2^16, then the header (R57, R59). -/
theorem hdrFile_eq (s : State) :
    s.hdrFile = [s.hdrLen.extractLsb' 0 8, s.hdrLen.extractLsb' 8 8, 0x00#8, 0x00#8] ++ (List.range s.hdrLen.toNat).map s.hdrAt := by
  have hlength : le32 (s.hdrLen.setWidth 32) = [s.hdrLen.extractLsb' 0 8, s.hdrLen.extractLsb' 8 8, 0x00#8, 0x00#8] := by
    have hlen := s.hdrLen.isLt
    simp only [le32, List.cons.injEq, and_true]
    refine ⟨?_, ?_, ?_, ?_⟩ <;>
    · apply BitVec.eq_of_toNat_eq
      simp only [BitVec.extractLsb'_toNat, BitVec.toNat_setWidth, BitVec.toNat_ofNat, Nat.shiftRight_eq_div_pow]
      omega
  rw [State.hdrFile, hlength, State.hdrBytes]

/-- Settles O38: BP_HDR is the OutWrites of the file header, all of them or up to the first that fails. -/
theorem bpHdrWrites : Obligations.BpHdrWrites := by
  unfold Obligations.BpHdrWrites
  intro s file h0 hopen hvalid hfile
  rw [← hdrFile_eq] at hfile
  subst hfile
  have hexec : exec .bpHdr s = finish (encode .bpHdr)
      ((outWrites s.hdrFile s).bind fun _ s' => .ok (4#32 + s.hdrLen.setWidth 32) (s'.setSession .hdrDone)) := by
    rw [exec_run (i := .bpHdr) nofun h0, ruleOf, bpHdrRule, if_neg (by simp [hopen]), if_neg (by simp [hvalid])]
  refine ⟨fun ho => ?_, fun k b hb ho hk => ?_⟩
  · rw [hexec, outWrites_done _ _ ho]
    rfl
  · rw [hexec, outWrites_fail hb ho hk]
    rfl

/-! ### The payload commands (R175 to R177) -/

/-- The bits of a byte sequence, each byte from bit 7 down (R59, R192). -/
theorem streamBits_eq_flatMap (l : List Byte) : streamBits l = l.flatMap fun b => (List.range 8).map fun j => b.getLsbD (7 - j) := by
  induction l with
  | nil => rfl
  | cons b l ih =>
    rw [streamBits, ih]
    rfl

/-- The operand bits of BP_INS from v[n-1] down to v[0] (R175). -/
theorem insBits_eq_map (n : BitVec 5) (v : BitVec 16) : insBits n v = (List.range n.toNat).map fun j => v.getLsbD (n.toNat - 1 - j) := by
  refine List.ext_getElem (by simp [insBits]) fun j _ _ => ?_
  simp [insBits]

/-- A payload command that passes its checks pushes its bits (R175 to R177). -/
theorem ruleOf_push {i : Instr} {s : State} {c : Bits} (hdone : s.bpState = .hdrDone)
    (h : (∃ n v, i = .bpIns n v ∧ i.wellFormed = true ∧ c = insBits n v) ∨
      (∃ sym, i = .encSym sym ∧ sym ≠ Config.termByte ∧ s.codeValid = true ∧ s.codeLenAt sym ≠ 0#8 ∧ c = s.codeBitsAt sym) ∨
      (i = .encTerm ∧ s.codeValid = true ∧ s.codeLenAt Config.termByte ≠ 0#8 ∧ c = s.codeBitsAt Config.termByte)) :
    i ≠ .sreset ∧ ruleOf i s = pushAndRespond c s := by
  rcases h with ⟨n, v, rfl, hw, rfl⟩ | ⟨sym, rfl, h3, hv, hc, rfl⟩ | ⟨rfl, hv, hc, rfl⟩
  · exact ⟨nofun, by simp [ruleOf, bpInsRule, hw, hdone]⟩
  · exact ⟨nofun, by simp [ruleOf, encSymRule, h3, hv, hc, hdone]⟩
  · exact ⟨nofun, by simp [ruleOf, encTermRule, hv, hc, hdone]⟩

/-- Settles O39: the command pushes its bits, and PushBits loses none of them (pushBits_stream) or stops at the first byte whose write
fails (pushBits_fail). -/
theorem payloadBitsAppended : Obligations.PayloadBitsAppended := by
  unfold Obligations.PayloadBitsAppended
  intro s h0 hdone hlen i c bits hbits hcmd
  have hbits : bits = streamBits := hbits.trans (funext fun l => (streamBits_eq_flatMap l).symm)
  subst hbits
  simp only [← insBits_eq_map] at hcmd
  obtain ⟨hi, hrule⟩ := ruleOf_push hdone hcmd
  rw [exec_run hi h0, hrule, pushAndRespond]
  refine ⟨fun ho => ?_, fun k ho hk hl => ?_⟩
  · obtain ⟨u, hpush, hstream⟩ := pushBits_stream hlen ho
    have hframe := pushBits_frame c s
    have hbb := pushBits_length (c := c) hlen
    rw [hpush] at hframe hbb ⊢
    obtain ⟨heq, hout⟩ := hframe
    refine ⟨_, rfl, hstream, hbb, hout, rfl, rfl, ?_⟩
    exact congrArg (State.respond · (payloadData s.out.length u)) heq
  · obtain ⟨bytes, b, hcount, htake, hdrop, hraise⟩ := pushBits_fail hlen ho hk hl
    refine ⟨bytes, b, hcount, htake, ?_, ?_⟩
    · rw [← hdrop, streamBits, streamBits, List.append_nil]
    · rw [hraise]
      rfl

/-! ### BP_OPEN and BP_CLOSE (R173, R178) -/

/-- BP_CLOSE is accepted in FAULT (R72, R178). -/
theorem exec_bpClose (s : State) : exec .bpClose s = finish (encode .bpClose) (bpCloseRule s) := rfl

/-- BP_CLOSE of a session with no bits pending (R178). -/
theorem bpCloseRule_empty {s : State} (ho : s.bpState ≠ .idle) (hn : s.bbN = 0#3) : bpCloseRule s = .ok 0#32 s.released := by
  rw [bpCloseRule, if_neg ho, if_pos (by rw [hn]; rfl)]

/-- BP_CLOSE of a session with bits pending writes the pad byte from the released session (R178). -/
theorem bpCloseRule_pending {s : State} (ho : s.bpState ≠ .idle) (hn : s.bbN ≠ 0#3) :
    bpCloseRule s = (outWrite s.padByte s.released).bind fun _ s' => .ok (0x100#32 ||| BitVec.ofNat 32 (8 - s.bbN.toNat)) s' := by
  have hpos : s.bbN.toNat ≠ 0 := fun h => hn (BitVec.eq_of_toNat_eq h)
  rw [bpCloseRule, if_neg ho, if_neg hpos]

/-- BP_CLOSE in a session releases it, whether or not its byte is written (R178). -/
theorem exec_bpClose_released {s : State} (ho : s.bpState ≠ .idle) :
    ∃ t, exec .bpClose s = .next t ∧ t.bpState = .idle ∧ t.bb = [] ∧ t.bbN = 0#3 := by
  rw [exec_bpClose]
  by_cases hn : s.bbN = 0#3
  · rw [bpCloseRule_empty ho hn]
    exact ⟨_, rfl, rfl, rfl, rfl⟩
  rw [bpCloseRule_pending ho hn]
  by_cases hw : s.released.out.length ∈ s.released.oracle.writeFails
  · rw [outWrite_fail hw]
    exact ⟨_, rfl, raise_bpState _ _ _ _, raise_bb _ _ _ _, raise_bbN _ _ _ _⟩
  · rw [outWrite_done hw]
    exact ⟨_, rfl, rfl, rfl, rfl⟩

/-- The pad byte is BB's bits, then zeros (R56, R172). -/
theorem padByte_bits {s : State} (h : s.bb.length = s.bbN.toNat) :
    ((List.range 8).map fun j => s.padByte.getLsbD (7 - j)) = s.bb ++ List.replicate (8 - s.bbN.toNat) false := by
  have hn := s.bbN.isLt
  rw [State.padByte, ← h, List.take_length]
  exact bitsMsb_pad (by omega)

/-- Settles O40: BP_CLOSE releases the session first, and its one write is the pad byte's. -/
theorem sessionOpensAndCloses : Obligations.SessionOpensAndCloses := by
  unfold Obligations.SessionOpensAndCloses
  refine ⟨fun s h0 hidle => ?_, fun s => exec_bpClose_released, fun s ho hn => ?_,
    fun s ho hn hlen => ⟨s.padByte, padByte_bits hlen, fun hw => ?_, fun hw => ?_⟩⟩
  · rw [exec_run (i := .bpOpen) nofun h0, ruleOf, bpOpenRule, if_neg (by simp [hidle])]
    rfl
  · rw [exec_bpClose, bpCloseRule_empty ho hn]
    rfl
  · rw [exec_bpClose, bpCloseRule_pending ho hn, outWrite_done (s := s.released) hw]
    rfl
  · rw [exec_bpClose, bpCloseRule_pending ho hn, outWrite_fail (s := s.released) hw]
    rfl

end Sys2Proof.Machine
end

section
/-! The decoder and the encoder (R75 to R80): a word is legal exactly when it is the word of some well-formed command, which it fixes. -/

namespace Sys2Proof

/-! ### Operands and rows (R71, R74, R75) -/

/-- The command with its operands read from the fields of a word (R71, R74). -/
def Instr.withOperandsOf (w : Word) : Instr → Instr
  | .frqAdd _ => .frqAdd (symOf w)
  | .rdFreq _ => .rdFreq (symOf w)
  | .rdNode _ => .rdNode (idx9Of w)
  | .rdNwt _ _ => .rdNwt (halfOf w) (idx9Of w)
  | .rdCLen _ => .rdCLen (symOf w)
  | .rdCodeW _ _ => .rdCodeW (codeWordOf w) (symOf w)
  | .rdHdrB _ => .rdHdrB (idx16Of w)
  | .bpIns _ _ => .bpIns (countOf w) (valueOf w)
  | .encSym _ => .encSym (symOf w)
  | .dwBit _ => .dwBit (bitOf w)
  | i => i

@[simp] theorem withOperandsOf_idem (w : Word) (i : Instr) : (i.withOperandsOf w).withOperandsOf w = i.withOperandsOf w := by
  cases i <;> rfl

@[simp] theorem rowOf_withOperandsOf (w : Word) (i : Instr) : rowOf (i.withOperandsOf w) = rowOf i := by
  cases i <;> rfl

/-- Of all commands only BP_INS puts conditions on the operands it reads (R78). -/
theorem wellFormed_withOperandsOf (w : Word) (i : Instr) :
    (i.withOperandsOf w).wellFormed = true ↔
      ((rowOf i).opcode = 0x52#8 → 1 ≤ (countOf w).toNat ∧ (countOf w).toNat ≤ 16 ∧ (valueOf w).toNat < 2 ^ (countOf w).toNat) := by
  cases i
  case bpIns n v =>
    simp [Instr.withOperandsOf, Instr.wellFormed, bpInsCountOk, bpInsValueOk, rowOf, and_assoc, Nat.one_le_iff_ne_zero]
  all_goals simp [Instr.withOperandsOf, Instr.wellFormed, rowOf]

/-- One command of each row of the opcode map, in its order (R75). -/
def oneOfEachRow : List Instr :=
  [.sreset, .rdStat, .rdErrCmd, .rdInPos, .frqClr, .frqAdd 0#8, .rdFreq 0#8, .tbBuild, .rdRoot, .rdNode 0#9, .rdNwt false 0#9, .cgGen,
    .rdCLen 0#8, .rdCodeW 0#3 0#8, .hcSer, .hcLoad, .rdHdrLen, .rdHdrB 0#16, .bpOpen, .bpHdr, .bpIns 0#5 0#16, .encSym 0#8, .encTerm,
    .bpClose, .brExt, .dwBit false, .decByte, .decEnd]

theorem rows_eq_map : rows = oneOfEachRow.map rowOf := rfl

/-- The rows of the opcode map are the commands' rows (R75). -/
theorem mem_rows_iff {r : Row} : r ∈ rows ↔ ∃ i, rowOf i = r := by
  constructor
  · intro hr
    rw [rows_eq_map] at hr
    obtain ⟨i, -, hi⟩ := List.mem_map.1 hr
    exact ⟨i, hi⟩
  · rintro ⟨i, rfl⟩
    cases i <;> simp [rowOf, rows]

/-! ### What the encoder writes (R79, R80) -/

@[simp] theorem opcodeOf_encode (i : Instr) : opcodeOf (encode i) = (rowOf i).opcode := by
  cases i <;> simp [encode, rowOf]

@[simp] theorem reserved_encode (i : Instr) : encode i &&& (rowOf i).format.reserved = 0#32 := by
  cases i <;> simp [encode, rowOf]

@[simp] theorem withOperandsOf_encode (i : Instr) : i.withOperandsOf (encode i) = i := by
  cases i <;> simp [encode, Instr.withOperandsOf]

/-- A word with a command's opcode and no reserved bit is the word of that command on the operands it holds (R70, R71). -/
theorem encode_withOperandsOf {w : Word} {i : Instr} (hop : opcodeOf w = (rowOf i).opcode)
    (hres : w &&& (rowOf i).format.reserved = 0#32) : encode (i.withOperandsOf w) = w := by
  cases i
  case frqAdd | rdFreq | rdCLen | encSym => exact encS_rebuild hop hres
  case rdCodeW => exact encSW_rebuild hop hres
  case rdNode => exact encI9_rebuild hop hres
  case rdNwt => exact encI9H_rebuild hop hres
  case rdHdrB => exact encI16_rebuild hop hres
  case bpIns => exact encB_rebuild hop hres
  case dwBit => exact encW_rebuild hop hres
  all_goals exact encN_rebuild hop hres

/-! ### What the decoder accepts (R76 to R78) -/

/-- The word passes every check of the decoder on the command's row, and its fields are the command's operands (R76 to R78). -/
structure IsWordOf (w : Word) (i : Instr) : Prop where
  opcode : opcodeOf w = (rowOf i).opcode
  reserved : w &&& (rowOf i).format.reserved = 0#32
  operands : i.withOperandsOf w = i
  wellFormed : i.wellFormed = true

/-- A word that passes the reserved-bits test of a command without conditions is its word (R77). -/
theorem isWordOf_of_checked {f : Format} {w : Word} {i j : Instr} (h : checked f w i = .ok j) (hf : (rowOf i).format = f)
    (hop : opcodeOf w = (rowOf i).opcode) (hoperands : i.withOperandsOf w = i) (hwf : i.wellFormed = true) : IsWordOf w j := by
  subst hf
  obtain ⟨rfl, hres⟩ := checked_ok h
  exact ⟨hop, hres, hoperands, hwf⟩

/-- A word that passes the tests of BP_INS is its word (R77, R78). -/
theorem isWordOf_of_checkedBpIns {w : Word} {j : Instr} (h : checkedBpIns w = .ok j) (hop : opcodeOf w = 0x52#8) : IsWordOf w j := by
  obtain ⟨rfl, hres, hwf⟩ := checkedBpIns_ok h
  exact ⟨hop, hres, rfl, hwf⟩

theorem checkedBpIns_of_wellFormed {w : Word} (hres : w &&& Format.B.reserved = 0#32)
    (hwf : (Instr.bpIns (countOf w) (valueOf w)).wellFormed = true) : checkedBpIns w = .ok (.bpIns (countOf w) (valueOf w)) := by
  obtain ⟨hcount, hvalue⟩ := Bool.and_eq_true_iff.1 hwf
  simp [checkedBpIns, hres, hcount, hvalue]

/-- A legal word is the word of the command it decodes to (R79): the opcode map row by row, of which BP_INS is the 21st and any
other opcode is refused last. -/
theorem isWordOf_of_decode {w : Word} {i : Instr} (h : decode w = .ok i) : IsWordOf w i := by
  unfold decode at h
  split at h
  case h_21 hop => exact isWordOf_of_checkedBpIns h hop
  case h_29 => cases h
  all_goals
    rename_i hop
    exact isWordOf_of_checked h rfl hop rfl rfl

/-- The decoder reaches the row of the word's opcode and reads the operands there (R75). -/
theorem IsWordOf.decode_eq {w : Word} {i : Instr} (h : IsWordOf w i) : decode w = .ok i := by
  obtain ⟨hop, hres, hoperands, hwf⟩ := h
  rw [← hoperands] at hwf ⊢
  cases i
  case bpIns =>
    simp only [decode, hop, rowOf]
    exact checkedBpIns_of_wellFormed hres hwf
  all_goals
    simp only [decode, hop, rowOf]
    exact if_pos hres

/-- Decoding is passing the checks of a row: what the decoder answers, said once (R75 to R78). -/
theorem decode_eq_ok_iff {w : Word} {i : Instr} : decode w = .ok i ↔ IsWordOf w i := ⟨isWordOf_of_decode, IsWordOf.decode_eq⟩

theorem isWordOf_encode {i : Instr} (h : i.wellFormed = true) : IsWordOf (encode i) i :=
  ⟨opcodeOf_encode i, reserved_encode i, withOperandsOf_encode i, h⟩

/-- Some command of a row is the word's exactly when the word passes the row's mask test and the operands it holds are legal (R78, R79). -/
theorem isWordOf_withOperandsOf {w : Word} {i : Instr} :
    IsWordOf w (i.withOperandsOf w) ↔ w &&& (rowOf i).format.mask = (rowOf i).pattern ∧ (i.withOperandsOf w).wellFormed = true := by
  rw [Row.pattern, mask_test]
  constructor
  · rintro ⟨hop, hres, -, hwf⟩
    rw [rowOf_withOperandsOf] at hop hres
    exact ⟨⟨hop, hres⟩, hwf⟩
  · rintro ⟨⟨hop, hres⟩, hwf⟩
    exact ⟨by rwa [rowOf_withOperandsOf], by rwa [rowOf_withOperandsOf], withOperandsOf_idem w i, hwf⟩

/-- Settles O1: the encoder writes what the decoder checks and reads. -/
theorem decodeOfEncode : Obligations.DecodeOfEncode := by
  unfold Obligations.DecodeOfEncode
  intro i hwf
  exact decode_eq_ok_iff.2 (isWordOf_encode hwf)

/-- Settles O2: the word is rebuilt from the opcode, the zero reserved bits and the operands. -/
theorem encodeOfDecode : Obligations.EncodeOfDecode := by
  unfold Obligations.EncodeOfDecode
  intro w i h
  obtain ⟨hop, hres, hoperands, hwf⟩ := decode_eq_ok_iff.1 h
  refine ⟨?_, hwf⟩
  rw [← hoperands]
  exact encode_withOperandsOf hop hres

/-- Settles O3: the rows are the commands' rows, and the mask test and R78's conditions are the decoder's checks. -/
theorem legalExactlyByMask : Obligations.LegalExactlyByMask := by
  unfold Obligations.LegalExactlyByMask
  intro w
  constructor
  · rintro ⟨i, h⟩
    have hword := decode_eq_ok_iff.1 h
    rw [← hword.operands] at hword
    obtain ⟨hmask, hwf⟩ := isWordOf_withOperandsOf.1 hword
    exact ⟨rowOf i, mem_rows_iff.2 ⟨i, rfl⟩, hmask, (wellFormed_withOperandsOf w i).1 hwf⟩
  · rintro ⟨r, hr, hmask, hcond⟩
    obtain ⟨i, rfl⟩ := mem_rows_iff.1 hr
    exact ⟨_, decode_eq_ok_iff.2 (isWordOf_withOperandsOf.2 ⟨hmask, (wellFormed_withOperandsOf w i).2 hcond⟩)⟩

/-- Settles O4: each word is R80's encoding of its command, which decodes back (O1). -/
theorem workedEncodingsDecode : Obligations.WorkedEncodingsDecode := by
  unfold Obligations.WorkedEncodingsDecode
  exact ⟨decodeOfEncode (.frqAdd 0x61#8) rfl, decodeOfEncode (.rdCodeW 1#3 0x61#8) rfl, decodeOfEncode (.rdNwt true 10#9) rfl,
    decodeOfEncode (.bpIns 3#5 5#16) rfl, decodeOfEncode (.dwBit true) rfl, decodeOfEncode (.rdHdrB 300#16) rfl,
    decodeOfEncode .tbBuild rfl, decodeOfEncode .sreset rfl⟩

end Sys2Proof
end

section
/-! Execute's two answers that run no rule (R72): the FAULT gate's and an illegal word's. -/

namespace Sys2Proof.Machine

/-- Every well-formed command outside R72's list of four is behind the FAULT gate. -/
theorem isGated_of_notMem {i : Instr} (hwf : i.wellFormed = true) (hi : i ∉ [Instr.sreset, .rdStat, .rdErrCmd, .bpClose]) :
    isGated i = true := by
  simp only [List.mem_cons, List.not_mem_nil, or_false, not_or] at hi
  obtain ⟨-, hstat, herrCmd, hclose⟩ := hi
  simp [isGated, hstat, herrCmd, hclose, hwf]

/-- Settles O8: the gate keeps the command from its rule. -/
theorem faultGateIgnores : Obligations.FaultGateIgnores := by
  unfold Obligations.FaultGateIgnores
  intro i s hwf herr hi
  have hsreset : i ≠ .sreset := fun h => hi (h ▸ List.mem_cons_self)
  rw [exec_eq hsreset, isGated_of_notMem hwf hi, inFault_eq_true herr]
  rfl

/-- `raise` as one update: ERR and ERR_CMD change only where ERR is 0 (R241). -/
theorem raise_eq (s : State) (e : ErrCode) (info w : Word) :
    s.raise e info w = { s with rspCode := e.code, rspData := info, err := if s.err = 0x00#8 then e.code else s.err,
                                errCmd := if s.err = 0x00#8 then w else s.errCmd } := by
  by_cases h0 : s.err = 0x00#8
  · simp only [State.raise, if_pos h0]
  · simp only [State.raise, if_neg h0]

/-- Settles O6: Execute of a word that does not decode is `raise ERR_ILLEGAL(w)`. -/
theorem illegalWordRaises : Obligations.IllegalWordRaises := by
  unfold Obligations.IllegalWordRaises
  intro s w rest e hport hw
  rw [step_hostAct hport, hostAct, executeWord, hw]
  exact congrArg Host.Outcome.next (raise_eq _ _ _ _)

end Sys2Proof.Machine
end

section
/-! The frequency table (40_frequency.md R100 to R103): one counter a command, and the counts of a whole string. -/

namespace Sys2Proof.Machine

/-- Outside FAULT, a command whose rule ends with a value responds it (R73). -/
theorem exec_of_ok {i : Instr} (hi : i ≠ .sreset) {s u : State} {d : Word} (h0 : s.err = 0x00#8) (hr : ruleOf i s = .ok d u) :
    exec i s = .next (u.respond d) := by
  rw [exec_run hi h0, hr, finish_ok]

/-! ### The counters (R22, R100, R101) -/

@[simp] theorem respond_freqAt (s : State) (d : Word) (b : Byte) : (s.respond d).freqAt b = s.freqAt b := rfl

/-- A counter after a write to a counter (R22). -/
theorem setFreq_freqAt (s : State) (sym : Byte) (v : Word) (b : Byte) :
    (s.setFreq sym v).freqAt b = if b = sym then v else s.freqAt b := by
  rw [State.freqAt, setFreq_freq, table_get_set]
  simp only [BitVec.toNat_inj]
  rfl

/-- The counters of a cleared table (R100). -/
theorem freqCleared_get (b : Byte) : Table.get 0#32 freqCleared b.toNat = if b = Config.termByte then 1#32 else 0#32 := by
  rw [freqCleared, table_get_set, table_get_nil]
  simp only [BitVec.toNat_inj]

/-- A count below its maximum does not wrap (R101). -/
theorem count_succ {v : Word} (h : v ≠ 0xFFFFFFFF#32) : (v + 1#32).toNat = v.toNat + 1 := by
  bv_omega

/-- FRQ_ADD of a byte that may be counted (R101). -/
theorem exec_frqAdd {s : State} {sym : Byte} (h0 : s.err = 0x00#8) (h3 : sym ≠ Config.termByte) (hmax : s.freqAt sym ≠ 0xFFFFFFFF#32) :
    exec (.frqAdd sym) s = .next ((s.setFreq sym (s.freqAt sym + 1#32)).respond (s.freqAt sym + 1#32)) :=
  exec_of_ok (i := .frqAdd sym) nofun h0 ((if_neg h3).trans (if_neg hmax))

/-- Settles O22: FRQ_CLR puts back the cleared table, FRQ_ADD writes one counter, and a count below its maximum does not wrap. -/
theorem countingCommands : Obligations.CountingCommands := by
  unfold Obligations.CountingCommands
  refine fun s h0 => ⟨⟨_, exec_of_ok (i := .frqClr) nofun h0 rfl, rfl, freqCleared_get⟩, fun sym h3 hmax => ?_⟩
  refine ⟨_, exec_frqAdd h0 h3 hmax, ?_, ?_, fun b hb => ?_⟩
  · rw [respond_freqAt, setFreq_freqAt, if_pos rfl]
    rfl
  · rw [respond_freqAt, setFreq_freqAt, if_pos rfl]
    exact count_succ hmax
  · rw [respond_freqAt, setFreq_freqAt, if_neg hb]

/-! ### Counting a string (R103) -/

/-- Issuing a command that some word encodes is its meaning (R60, R72, R79). -/
theorem issue_eq_exec {i : Instr} (h : i.wellFormed = true) (s : State) : issue i s = exec i s := by
  rw [issue, step_hostAct (s := s.present (encode i)) rfl, hostAct, executeWord, decodeOfEncode i h]
  rfl

/-- A command that answers 0x00 hands its state to the commands after it (R220). -/
theorem issueAll_cons {i : Instr} (hi : i.wellFormed = true) {s t : State} (h : exec i s = .next t) (hr : t.rspCode = 0x00#8)
    (is : List Instr) : issueAll (i :: is) s = issueAll is t := by
  rw [issueAll, issue_eq_exec hi, h]
  exact if_pos hr

/-- FRQ_ADD counts one occurrence of its byte (R101). -/
theorem exec_frqAdd_counts {s : State} {sym : Byte} (h0 : s.err = 0x00#8) (h3 : sym ≠ Config.termByte)
    (hmax : (s.freqAt sym).toNat + 1 < 2 ^ 32) :
    ∃ u, exec (.frqAdd sym) s = .next u ∧ u.err = 0x00#8 ∧ u.rspCode = 0x00#8 ∧
      ∀ b, (u.freqAt b).toNat = (s.freqAt b).toNat + if sym = b then 1 else 0 := by
  have hroom : s.freqAt sym ≠ 0xFFFFFFFF#32 := fun hfull => absurd hmax (by rw [hfull]; decide)
  refine ⟨_, exec_frqAdd h0 h3 hroom, h0, rfl, fun b => ?_⟩
  rw [respond_freqAt, setFreq_freqAt]
  by_cases hb : sym = b
  · subst hb
    rw [if_pos rfl, if_pos rfl, count_succ hroom]
  · rw [if_neg (Ne.symm hb), if_neg hb, Nat.add_zero]

/-- FRQ_ADD of each byte of x adds x's occurrences to the counters, from any counts that leave room for them (R101, R103). -/
theorem issueAll_frqAdd {x : List Byte} {s : State} (h0 : s.err = 0x00#8) (h3 : ∀ c ∈ x, c ≠ Config.termByte)
    (hmax : ∀ c, (s.freqAt c).toNat + x.count c < 2 ^ 32) :
    ∃ t, issueAll (x.map .frqAdd) s = .success t ∧ t.err = 0x00#8 ∧ ∀ b, (t.freqAt b).toNat = (s.freqAt b).toNat + x.count b := by
  induction x generalizing s with
  | nil => exact ⟨s, rfl, h0, fun b => rfl⟩
  | cons c x ih =>
    have hroom : (s.freqAt c).toNat + 1 < 2 ^ 32 := by
      have hlt := hmax c
      rw [List.count_cons_self] at hlt
      omega
    obtain ⟨u, hexec, herr, hrsp, hone⟩ := exec_frqAdd_counts h0 (h3 c List.mem_cons_self) hroom
    have hcount (b : Byte) : (u.freqAt b).toNat + x.count b = (s.freqAt b).toNat + (c :: x).count b := by
      rw [hone, List.count_cons]
      simp only [beq_iff_eq]
      omega
    obtain ⟨t, ht, herr', hfreq⟩ := ih herr (fun b hb => h3 b (List.mem_cons_of_mem c hb)) fun b => (hcount b).trans_lt (hmax b)
    exact ⟨t, (issueAll_cons rfl hexec hrsp _).trans ht, herr', fun b => (hfreq b).trans (hcount b)⟩

/-- The counters after SRESET (R22, R210). -/
theorem resetBlock_freqAt (s : State) (b : Byte) : s.resetBlock.freqAt b = if b = Config.termByte then 1#32 else 0#32 :=
  freqCleared_get b

/-- Settles O23: SRESET clears the counters, and each FRQ_ADD counts one occurrence of its byte. -/
theorem countsAreOccurrences : Obligations.CountsAreOccurrences := by
  unfold Obligations.CountsAreOccurrences
  intro s x h3 hmax
  have hterm : x.count Config.termByte = 0 := List.count_eq_zero.2 fun h => h3 _ h rfl
  have hroom (c : Byte) : (s.resetBlock.freqAt c).toNat + x.count c < 2 ^ 32 := by
    rw [resetBlock_freqAt]
    by_cases hc : c = Config.termByte
    · subst hc
      simp [hterm]
    · simpa [hc] using hmax c
  obtain ⟨t, ht, herr, hfreq⟩ := issueAll_frqAdd (s := s.resetBlock.respond 0#32) rfl h3 hroom
  refine ⟨t, ?_, ?_, ?_, fun sym hsym => ?_⟩
  · rw [issueAll_cons rfl (exec_sreset s) rfl, ht]
  · simp [State.succeeded, herr]
  · have h := hfreq Config.termByte
    rw [respond_freqAt, resetBlock_freqAt, if_pos rfl, hterm] at h
    exact BitVec.eq_of_toNat_eq h
  · have hzero : s.resetBlock.freqAt sym = 0#32 := (resetBlock_freqAt s sym).trans (if_neg hsym)
    rw [hfreq, respond_freqAt, hzero]
    exact Nat.zero_add _

end Sys2Proof.Machine
end

section
/-! The operand and stream-end errors with their info words (R240), and the plain read-back commands (R102, R113, R132, R158, R159,
R212, R213). -/

namespace Sys2Proof.Machine

/-! ### The operand and stream-end errors (R240) -/

/-- With every counter 0 there is no key (R112). -/
theorem sortedKeys_eq_nil {s : State} (h : ∀ sym, s.freqAt sym = 0#32) : sortedKeys s.freq = [] := by
  have hpairs : freqPairs s.freq = [] := by
    have hzero (b : Byte) : Table.get 0#32 s.freq b.toNat = 0#32 := h b
    simp [freqPairs, hzero]
  rw [sortedKeys, hpairs, sortKeys]

/-- In HDR_DONE with a code table, ENC_SYM's checks are the operand's (R176). -/
theorem encSymRule_coded {s : State} (sym : Byte) (hdone : s.bpState = .hdrDone) (hcodes : s.codeValid = true) :
    encSymRule sym s =
      if sym = Config.termByte then .raise .termInInput (sym.setWidth 32) s
      else if s.codeLenAt sym = 0#8 then .raise .noCode (sym.setWidth 32) s
      else pushAndRespond (s.codeBitsAt sym) s := by
  rw [encSymRule, if_neg (by simp [hdone]), if_neg (by simp [hcodes])]

/-- In HDR_DONE with a code table, ENC_TERM's check is that the terminator has a code (R177). -/
theorem encTermRule_coded {s : State} (hdone : s.bpState = .hdrDone) (hcodes : s.codeValid = true) :
    encTermRule s =
      if s.codeLenAt Config.termByte = 0#8 then .raise .noCode (Config.termByte.setWidth 32) s
      else pushAndRespond (s.codeBitsAt Config.termByte) s := by
  rw [encTermRule, if_neg (by simp [hdone]), if_neg (by simp [hcodes])]

/-- DEC_END before the terminator (R195). -/
theorem exec_decEnd_early {s : State} (h0 : s.err = 0x00#8) (htree : s.treeValid = true) (hw : s.wState ≠ .terminated) :
    exec .decEnd s = .next (s.raise .streamTrunc (s.wState.bits.setWidth 32) (encode .decEnd)) :=
  exec_of_raise (i := .decEnd) nofun h0 ((if_neg (by simp [htree])).trans (if_pos hw))

/-- Settles O14: each command's checks in their order, up to the one that raises. -/
theorem operandErrors : Obligations.OperandErrors := by
  unfold Obligations.OperandErrors
  intro s h0
  refine ⟨?_, fun sym h3 hfull => ?_, fun hidle hzero => ?_, ?_, fun h => ?_, fun idx hidx => ?_, fun hdone hcodes => ?_,
    fun htree hroot => ?_, fun htree hinner => ?_⟩
  · exact exec_of_raise (i := .frqAdd _) nofun h0 rfl
  · exact exec_of_raise (i := .frqAdd sym) nofun h0 ((if_neg h3).trans (if_pos hfull))
  · refine exec_of_raise (i := .tbBuild) nofun h0 ?_
    rw [ruleOf, tbBuildRule, if_neg (by simp [hidle]), sortedKeys_eq_nil hzero, buildTree]
  · exact exec_of_raise (i := .rdNode _) nofun h0 rfl
  · exact exec_of_raise (i := .rdNwt h _) nofun h0 rfl
  · exact exec_of_raise (i := .rdHdrB idx) nofun h0 (if_pos hidx)
  · refine ⟨?_, fun sym h3 hlen => ?_, fun hlen => ?_⟩
    · exact exec_of_raise (i := .encSym _) nofun h0 ((encSymRule_coded _ hdone hcodes).trans (if_pos rfl))
    · exact exec_of_raise (i := .encSym sym) nofun h0
        ((encSymRule_coded _ hdone hcodes).trans ((if_neg h3).trans (if_pos hlen)))
    · exact exec_of_raise (i := .encTerm) nofun h0 ((encTermRule_coded hdone hcodes).trans (if_pos hlen))
  · have h := exec_decEnd_early h0 htree (by simp [hroot])
    rwa [hroot] at h
  · have h := exec_decEnd_early h0 htree (by simp [hinner])
    rwa [hinner] at h

/-! ### The plain read-back commands (R102, R113, R132, R158, R159, R212, R213) -/

/-- The data of RD_ROOT (R113). -/
def State.rootWord (s : State) : Word :=
  ((BitVec.ofBool s.treeValid).setWidth 32 <<< 31) ||| (s.nodeCnt.setWidth 32 <<< 16) ||| s.root.setWidth 32

/-- The data of RD_HDRLEN (R158). -/
def State.hdrLenWord (s : State) : Word := ((BitVec.ofBool s.hdrValid).setWidth 32 <<< 31) ||| s.hdrLen.setWidth 32

theorem exec_rdRoot {s : State} (h0 : s.err = 0x00#8) : exec .rdRoot s = .next (s.respond s.rootWord) :=
  exec_of_ok (i := .rdRoot) nofun h0 rfl

theorem exec_rdHdrLen {s : State} (h0 : s.err = 0x00#8) : exec .rdHdrLen s = .next (s.respond s.hdrLenWord) :=
  exec_of_ok (i := .rdHdrLen) nofun h0 rfl

/-- TREE_VALID, NODE_CNT and ROOT lie side by side in the word, zeros between them (R113). -/
theorem rootWord_fields (s : State) :
    s.rootWord.getLsbD 31 = s.treeValid ∧ s.rootWord.extractLsb' 26 5 = 0#5 ∧ s.rootWord.extractLsb' 16 10 = s.nodeCnt ∧
      s.rootWord.extractLsb' 9 7 = 0#7 ∧ s.rootWord.extractLsb' 0 9 = s.root := by
  refine ⟨?_, ?_, ?_, ?_, ?_⟩
  · simp [State.rootWord]
  all_goals
    refine BitVec.eq_of_getLsbD_eq fun j hj => ?_
    simp only [State.rootWord, BitVec.getLsbD_extractLsb', BitVec.getLsbD_or, BitVec.getLsbD_shiftLeft, BitVec.getLsbD_setWidth]
    interval_cases j <;> simp

/-- HDR_VALID and HDR_LEN lie in the word with zeros between them (R158). -/
theorem hdrLenWord_fields (s : State) :
    s.hdrLenWord.getLsbD 31 = s.hdrValid ∧ s.hdrLenWord.extractLsb' 16 15 = 0#15 ∧ s.hdrLenWord.extractLsb' 0 16 = s.hdrLen := by
  refine ⟨?_, ?_, ?_⟩
  · simp [State.hdrLenWord]
  all_goals
    refine BitVec.eq_of_getLsbD_eq fun j hj => ?_
    simp only [State.hdrLenWord, BitVec.getLsbD_extractLsb', BitVec.getLsbD_or, BitVec.getLsbD_shiftLeft, BitVec.getLsbD_setWidth]
    interval_cases j <;> simp

/-- Settles O18: each command responds the register that its rule reads. -/
theorem readBackData : Obligations.ReadBackData := by
  unfold Obligations.ReadBackData
  refine fun s => ⟨rfl, fun h0 => ⟨?_, fun sym => ?_, fun sym => ?_, ?_, ?_, fun idx hidx => ?_⟩⟩
  · exact exec_of_ok (i := .rdInPos) nofun h0 rfl
  · exact exec_of_ok (i := .rdFreq sym) nofun h0 rfl
  · exact exec_of_ok (i := .rdCLen sym) nofun h0 rfl
  · exact ⟨_, exec_rdRoot h0, rootWord_fields s⟩
  · exact ⟨_, exec_rdHdrLen h0, hdrLenWord_fields s⟩
  · exact exec_of_ok (i := .rdHdrB idx) nofun h0 (if_neg (by omega))

end Sys2Proof.Machine
end

section
/-! The frames of the counting, building, generating, serializing and loading commands (R276). -/

namespace Sys2Proof.Machine

/-- A command but SRESET answers from the state it was given or one that its rule ends in, and the answer writes only the response, ERR
and ERR_CMD (R72, R73, R241). -/
theorem exec_ends {i : Instr} (hi : i ≠ .sreset) {Q : Word → State → Prop} {P : State → Prop} {s t : State} (hr : (ruleOf i s).Post Q P)
    (h : exec i s = .next t) :
    ∃ u, (u = s ∨ (∃ d, Q d u) ∨ P u) ∧ t = { u with rspCode := t.rspCode, rspData := t.rspData, err := t.err, errCmd := t.errCmd } := by
  have hA : Answerable fun t : State => ∃ u, (u = s ∨ (∃ d, Q d u) ∨ P u) ∧
      t = { u with rspCode := t.rspCode, rspData := t.rspData, err := t.err, errCmd := t.errCmd } :=
    .always fun _ _ _ _ _ ⟨u, hu, hv⟩ => ⟨u, hu, by rw [hv]⟩
  exact exec_all hA hi ⟨s, .inl rfl, rfl⟩ (hr.imp (fun d u hq => ⟨u, .inr (.inl ⟨d, hq⟩), rfl⟩) fun u hp => ⟨u, .inr (.inr hp), rfl⟩) h

/-- Settles O50: the state that each command answers from is the one it was given or holds the one update of its rule. -/
theorem tableCommandFrames : Obligations.TableCommandFrames := by
  unfold Obligations.TableCommandFrames
  refine fun s t => ⟨fun i hi h => ?_, fun h => ?_, fun h => ?_, fun h => ?_, fun h => ?_⟩
  · rcases hi with rfl | ⟨sym, rfl⟩
    · obtain ⟨u, rfl | ⟨d, rfl⟩ | rfl, ht⟩ := exec_ends (i := .frqClr) (Q := fun _ u => u = { s with freq := freqCleared }) (P := (· = s))
        nofun rfl h
      all_goals
        rw [ht]
        exact ⟨rfl, fun _ => rfl⟩
    · obtain ⟨u, rfl | ⟨d, -, -, rfl⟩ | rfl, ht⟩ := exec_ends (i := .frqAdd sym) nofun (frqAddRule_post sym s) h
      all_goals
        rw [ht]
        exact ⟨rfl, fun _ => rfl⟩
  · obtain ⟨u, rfl | ⟨d, -, b, -, rfl⟩ | rfl, ht⟩ := exec_ends (i := .tbBuild) nofun (tbBuildRule_post s) h
    all_goals
      rw [ht]
      exact ⟨rfl, fun _ => rfl⟩
  · obtain ⟨u, rfl | ⟨d, -, -, c, -, rfl⟩ | rfl, ht⟩ := exec_ends (i := .cgGen) nofun (cgGenRule_post s) h
    all_goals
      rw [ht]
      exact ⟨rfl, fun _ => rfl⟩
  · obtain ⟨u, rfl | ⟨d, -, -, -, rfl⟩ | rfl, ht⟩ := exec_ends (i := .hcSer) nofun (hcSerRule_post s) h
    case inr.inl =>
      rw [ht]
      exact ⟨rfl, fun a ha => (storeBytes_get _ _ _ _).trans (if_neg (by omega))⟩
    all_goals
      rw [ht]
      exact ⟨rfl, fun _ _ => rfl⟩
  · obtain ⟨u, rfl | ⟨d, v, block, es, arena, cnt, ⟨hv, -⟩, -, -, -, rfl, -⟩ | ⟨hu, -⟩, ht⟩ :=
      exec_ends (i := .hcLoad) nofun (hcLoadRule_post s) h
    · rw [ht]
      exact ⟨rfl, fun _ => rfl⟩
    · rw [ht, hv]
      exact ⟨rfl, fun _ => rfl⟩
    · rw [ht, hu]
      exact ⟨rfl, fun _ => rfl⟩

end Sys2Proof.Machine
end

section
/-! The tree builder (41_tree_builder.md R110 to R112, R117): the key list, one round of the merge loop, and the two trees that BuildTree
answers. -/

namespace Sys2Proof.Machine

/-! ### The keys (R110) -/

/-- Every byte is a symbol (R6). -/
theorem mem_symbols (b : Byte) : b ∈ symbols :=
  List.mem_map.2 ⟨b.toNat, List.mem_range.2 b.isLt, BitVec.ofNat_toNat 8 b⟩

/-- The keys are the symbols with a count, each with its count (R110). -/
theorem mem_sortedKeys_iff {freq : Table Word} {w b : Nat} :
    (w, b) ∈ sortedKeys freq ↔ b < 256 ∧ w = (Table.get 0#32 freq b).toNat ∧ w ≠ 0 := by
  rw [sortedKeys, (sortKeys_perm _).mem_iff, freqPairs, List.mem_map]
  simp only [List.mem_filter, mem_symbols, true_and, bne_iff_ne, Prod.mk.injEq]
  constructor
  · rintro ⟨c, hc, rfl, rfl⟩
    exact ⟨c.isLt, rfl, BitVec.toNat_ne.1 hc⟩
  · rintro ⟨hb, rfl, hne⟩
    have hb' : (BitVec.ofNat 8 b).toNat = b := (BitVec.toNat_ofNat b 8).trans (Nat.mod_eq_of_lt hb)
    refine ⟨BitVec.ofNat 8 b, ?_, ?_, hb'⟩ <;> rw [hb']
    exact BitVec.toNat_ne.2 hne

/-- Settles O24: the sorted list is ascending, strictly since no symbol is in it twice. -/
theorem keysSortedByCountAndSymbol : Obligations.KeysSortedByCountAndSymbol := by
  unfold Obligations.KeysSortedByCountAndSymbol
  refine fun freq => ⟨?_, fun w b => mem_sortedKeys_iff⟩
  have honce : (sortedKeys freq).Pairwise fun a b => a.2 ≠ b.2 := List.pairwise_map.1 (sortedKeys_nodup freq)
  refine (honce.and (sortKeys_ascending _)).imp fun {a b} ⟨hne, hle⟩ => ?_
  rw [keyLe_iff] at hle
  omega

/-! ### The merge loop (R110) -/

/-- Settles O25: the first two of an ascending list are its least two, and the new pair is put at its place. -/
theorem roundMergesTwoLeast : Obligations.RoundMergesTwoLeast := by
  unfold Obligations.RoundMergesTwoLeast
  intro fuel q next t hq hlen
  match q, hlen with
  | x :: y :: rest, _ =>
    obtain ⟨hx, hyrest⟩ := List.pairwise_cons.1 hq
    obtain ⟨hy, hrest⟩ := List.pairwise_cons.1 hyrest
    exact ⟨x, y, rest, insertKey (x.1 + y.1, next) rest, List.Perm.refl _, hx y List.mem_cons_self,
      fun z hz => ⟨hx z (List.mem_cons_of_mem y hz), hy z hz⟩, rfl, insertKey_perm _ _, insertKey_ascending hrest⟩

/-! ### The tree of two or more keys (R110, R117) -/

theorem buildTree_of_two_le {ks : List (Nat × Nat)} (h : 2 ≤ ks.length) : buildTree ks = some (buildMerged ks) := by
  match ks, h with
  | _ :: _ :: _, _ => rfl

/-- The merge loop on two or more keys ends with one pair, whose record is the last one and holds all counts (R110). -/
theorem buildMerged_forest {ks : List (Nat × Nat)} (h2 : 2 ≤ ks.length) (hl : ks.length ≤ 256) :
    ∃ e rank, Forest ks.length (ks.map Prod.fst).sum (fun i => leafNode ((ks[i]?).getD (0, 0)).1 ((ks[i]?).getD (0, 0)).2) [e]
      (buildMerged ks).cnt (buildMerged ks).arena rank := by
  refine (Forest.start h2 hl).mergeAll ks.length ?_
  rw [leafQueue_map, List.length_map, List.length_zipIdx]
  exact Nat.le_succ _

/-- In the tree of a table with two or more keys every internal record merges the two that come first (R110). -/
theorem buildMerged_mergesTwoLeast {freq : Table Word} (h2 : 2 ≤ (sortedKeys freq).length) {m : Nat} (hm : (sortedKeys freq).length ≤ m)
    (hlt : m < (buildMerged (sortedKeys freq)).cnt) :
    MergesTwoLeast (buildMerged (sortedKeys freq)).arena (sortedKeys freq).length m :=
  (Merging.start (sortKeys_ascending _) fun _ => sortedKeys_weight).mergeAll _ (Forest.start h2 (sortedKeys_length freq))
    (sortedKeys_total freq) m hm hlt

/-- Settles O26: the merge loop's invariants Forest and Merging, when one pair is left. -/
theorem builtTreeShape : Obligations.BuiltTreeShape := by
  unfold Obligations.BuiltTreeShape
  rintro freq n rfl h2
  have hl := sortedKeys_length freq
  obtain ⟨e, rank, hf⟩ := buildMerged_forest h2 hl
  have hcnt : (buildMerged (sortedKeys freq)).cnt = 2 * (sortedKeys freq).length - 1 := Nat.eq_sub_of_add_eq hf.count
  have hroot : (buildMerged (sortedKeys freq)).root = (buildMerged (sortedKeys freq)).cnt - 1 := rfl
  refine ⟨buildMerged (sortedKeys freq), buildTree_of_two_le h2, hcnt, by omega, by omega, fun i w c hi => ?_, fun m hm hlt => ?_,
    fun i hi => hf.blank i (hcnt.trans_le hi), ?_⟩
  · obtain ⟨hlt, -⟩ := List.getElem?_eq_some_iff.1 hi
    rw [hf.leaves i hlt, hi]
    rfl
  · exact buildMerged_mergesTwoLeast h2 hm (hlt.trans_eq hcnt.symm)
  · have he : e ∈ [e] := List.mem_singleton_self e
    have hlast : e.2 + 1 = (buildMerged (sortedKeys freq)).cnt := (hf.last rfl e he).1
    have hsum : e.1 = ((sortedKeys freq).map Prod.fst).sum := List.sum_singleton.symm.trans hf.weights
    rw [hroot, ← hlast, Nat.add_sub_cancel, hf.weight e he, hsum]
    exact (BitVec.toNat_ofNat _ 64).trans (Nat.mod_eq_of_lt (sortedKeys_total freq))

/-! ### The degenerate tree (R111) -/

/-- Settles O27: what three writes into the empty arena leave in each record. -/
theorem degenerateTree : Obligations.DegenerateTree := by
  unfold Obligations.DegenerateTree
  refine fun w c => ⟨buildDegenerate (w, c), rfl, rfl, rfl, fun i => ?_⟩
  match i with
  | 0 | 1 | 2 => rfl
  | i + 3 => simp [buildDegenerate, table_get_set]

/-! ### TB_BUILD (R112) -/

/-- With a key there is a tree (R112). -/
theorem exists_buildTree {ks : List (Nat × Nat)} (h : ks ≠ []) : ∃ b, buildTree ks = some b := by
  match ks, h with
  | [k], _ => exact ⟨_, rfl⟩
  | _ :: _ :: _, _ => exact ⟨_, rfl⟩

/-- The terminator's count makes it a key (R22, R110). -/
theorem State.TerminatorCounted.mem_sortedKeys {s : State} (h : s.TerminatorCounted) : (1, Config.termByte.toNat) ∈ sortedKeys s.freq :=
  mem_sortedKeys_iff.2 ⟨Config.termByte.isLt, (congrArg BitVec.toNat h).symm, Nat.one_ne_zero⟩

/-- Outside a session TB_BUILD commits the tree it builds (R112). -/
theorem tbBuildRule_of_built {s : State} {b : Built} (hidle : s.bpState = .idle) (hb : buildTree (sortedKeys s.freq) = some b) :
    tbBuildRule s =
      .ok (((s.withBuilt b).nodeCnt.setWidth 32 <<< 16) ||| (s.withBuilt b).root.setWidth 32) (s.withBuilt b) := by
  rw [tbBuildRule, if_neg (not_not_intro hidle), hb]

/-- Settles O28: the terminator is a key, so a tree is built, and `withBuilt` writes R112's fields. -/
theorem tbBuildResult : Obligations.TbBuildResult := by
  unfold Obligations.TbBuildResult
  intro s h0 hidle hterm
  obtain ⟨b, hb⟩ := exists_buildTree (List.ne_nil_of_mem hterm.mem_sortedKeys)
  exact ⟨b, _, hb, exec_of_ok (i := .tbBuild) nofun h0 (tbBuildRule_of_built hidle hb), rfl, rfl, rfl, rfl, fun sym => ⟨rfl, rfl⟩, rfl, rfl,
    rfl, rfl, rfl, rfl, rfl⟩

end Sys2Proof.Machine
end

section
/-! CG_GEN (42_code_generator.md R131): outside a session, on a tree that GenCodes walks to its end, the generated table is committed. -/

namespace Sys2Proof.Machine

/-- Outside a session, on a valid tree, CG_GEN commits the table that GenCodes gives (R131). -/
theorem cgGenRule_of_genCodes {s : State} {c : CodeTable} (hidle : s.bpState = .idle) (htree : s.treeValid = true)
    (hc : genCodes s.node s.root = .ok c) : cgGenRule s = .ok (BitVec.ofNat 32 (codedCount c.len)) (s.withCodes c) := by
  simp only [cgGenRule, hidle, htree, hc, ne_eq, not_true_eq_false, Bool.true_eq_false, if_false]

/-- Settles O29: CG_GEN's rule commits GenCodes' table, and `withCodes` writes R131's fields. -/
theorem cgGenResult : Obligations.CgGenResult := by
  unfold Obligations.CgGenResult
  intro s c h0 hidle htree hc
  exact ⟨_, exec_of_ok (i := .cgGen) nofun h0 (cgGenRule_of_genCodes hidle htree hc), rfl, rfl, rfl, rfl, rfl, rfl, rfl⟩

end Sys2Proof.Machine
end

section
/-! The header codec's round trips: the serialized table parses back into its entries (R150, R155), and HC_LOAD of what HC_SER stored gives
the code table back (R160). -/

namespace Sys2Proof.Machine

/-! ### The entries of a code table (R150) -/

/-- The entries are the coded symbols, each with its code (R150). -/
theorem mem_entries {s : State} {e : Byte × Bits} : e ∈ s.entries ↔ s.codeLenAt e.1 ≠ 0#8 ∧ s.codeBitsAt e.1 = e.2 := by
  obtain ⟨sym, c⟩ := e
  simp [State.entries, mem_symbols]

/-- No byte is listed twice (R6). -/
theorem symbols_nodup : symbols.Nodup :=
  List.nodup_range.map_on fun a ha b hb hab => by
    have hmod : a % Config.nsym = b % Config.nsym := congrArg BitVec.toNat hab
    rwa [Nat.mod_eq_of_lt (List.mem_range.1 ha), Nat.mod_eq_of_lt (List.mem_range.1 hb)] at hmod

theorem entries_symbols_nodup (s : State) : (s.entries.map Prod.fst).Nodup := by
  have hfst : s.entries.map Prod.fst = symbols.filter fun b => s.codeLenAt b != 0#8 := by
    rw [State.entries, List.map_map]
    exact List.map_id _
  rw [hfst]
  exact symbols_nodup.filter _

/-- Each entry's code has 1 to 255 bits (R26, R150). -/
theorem entries_codes_short {s : State} (h : s.CodeLengthsMatch) : ∀ e ∈ s.entries, e.2 ≠ [] ∧ e.2.length ≤ 255 := by
  intro e he
  obtain ⟨hcoded, hcode⟩ := mem_entries.1 he
  have hlen : e.2.length = (s.codeLenAt e.1).toNat := hcode ▸ h e.1
  have hpos : (s.codeLenAt e.1).toNat ≠ 0 := fun hz => hcoded (BitVec.eq_of_toNat_eq hz)
  exact ⟨fun hnil => hpos (by rw [← hlen, hnil]; rfl), by omega⟩

/-- Where the lengths match, HC_SER writes the stored code bits themselves (R26, R150). -/
theorem codeOf_eq_codeBitsAt {s : State} (h : s.CodeLengthsMatch) (sym : Byte) : s.codeOf sym = s.codeBitsAt sym := by
  rw [State.codeOf, ← h sym]
  refine List.ext_getElem (by simp) fun j _ hj => ?_
  rw [List.getElem_map, List.getElem_range, List.getD_eq_getElem _ _ hj]

theorem serialize_eq_entries {s : State} (h : s.CodeLengthsMatch) : s.serialize = s.entries.flatMap fun e => entryBytes e.1 e.2 := by
  rw [State.serialize, State.entries, List.flatMap_map]
  exact List.flatMap_congr fun b _ => by rw [codeOf_eq_codeBitsAt h]

/-! ### ParseEntries (R155) -/

theorem parseEntries_entries {es : List (Byte × Bits)} (hl : ∀ e ∈ es, e.2 ≠ [] ∧ e.2.length ≤ 255) :
    parseEntries (es.flatMap fun e => entryBytes e.1 e.2) = .ok es := by
  have h := parseFrom_entries es hl 0 []
  rw [List.append_nil] at h
  exact h.trans (congrArg Except.ok (List.append_nil es))

/-- What ParseEntries refuses after well-formed entries, it refuses with the same error and offset. -/
theorem parseEntries_error_after {es : List (Byte × Bits)} (hl : ∀ e ∈ es, e.2 ≠ [] ∧ e.2.length ≤ 255) {rest : List Byte} {err : HdrError}
    (h : parseFrom (es.flatMap fun e => entryBytes e.1 e.2).length none rest = .error err) :
    parseEntries ((es.flatMap fun e => entryBytes e.1 e.2) ++ rest) = .error err := by
  rw [parseEntries, parseFrom_entries es hl, Nat.zero_add, h]

theorem parseEntries_serialize {s : State} (h : s.CodeLengthsMatch) : parseEntries s.serialize = .ok s.entries := by
  rw [serialize_eq_entries h]
  exact parseEntries_entries (entries_codes_short h)

/-- Settles O36: the parser passes over well-formed entries whatever their symbols are (parseFrom_entries), and the serialization is the
entries'. -/
theorem serializedTableParses : Obligations.SerializedTableParses := by
  unfold Obligations.SerializedTableParses
  refine ⟨fun s => parseEntries_serialize, fun es good hl hgood => ?_⟩
  have hbytes : good = es.flatMap fun e => entryBytes e.1 e.2 := hgood
  subst hbytes
  refine ⟨parseEntries_entries hl, fun sym cs rest hcs => ⟨?_, fun hbad => ?_⟩⟩
  · exact parseEntries_error_after hl (parseFrom_trunc hcs)
  · rw [List.append_assoc]
    exact parseEntries_error_after hl (parseFrom_malformed hcs hbad)

/-! ### The code table that HC_LOAD commits (R157) -/

/-- The code table of the entries of a code table is that code table (R150, R157). -/
theorem codesOf_entries {s : State} (h : s.CodeLengthsMatch) (sym : Byte) :
    Table.get 0#8 (codesOf s.entries).len sym.toNat = s.codeLenAt sym ∧
      Table.get [] (codesOf s.entries).bits sym.toNat = s.codeBitsAt sym := by
  by_cases hz : s.codeLenAt sym = 0#8
  · have hnone : ∀ e ∈ s.entries, e.1 ≠ sym := by
      rintro e he rfl
      exact (mem_entries.1 he).1 hz
    have hnil : s.codeBitsAt sym = [] := List.eq_nil_of_length_eq_zero (by rw [h sym, hz]; rfl)
    obtain ⟨hbits, hlen⟩ := codesOf_get_of_none hnone
    exact ⟨hlen.trans hz.symm, hbits.trans hnil.symm⟩
  · obtain ⟨hlen, hbits⟩ :=
      codesOf_entry (entries_symbols_nodup s) (entries_codes_short h) (mem_entries.2 ⟨hz, rfl⟩ : (sym, s.codeBitsAt sym) ∈ s.entries)
    exact ⟨BitVec.eq_of_toNat_eq (hlen.trans (h sym)), hbits⟩

/-- The lengths of a table that GenCodes gives match its bits (R26, R130). -/
theorem lengthsMatch_of_genCodes {s : State} (hg : genCodes s.node s.root = .ok ⟨s.codeLen, s.codeBits⟩) : s.CodeLengthsMatch :=
  genCodes_lengths hg

/-- The entries of a tree's code table reconstruct: each code is its symbol's path in the tree (R156, R160). -/
theorem reconstruct_entries {s : State} (hu : Unshared s.node) (hg : genCodes s.node s.root = .ok ⟨s.codeLen, s.codeBits⟩) :
    ∃ arena cnt, reconstruct s.entries = .ok (arena, cnt) := by
  refine reconstruct_of_tree hu hg (fun e he => ?_) (entries_symbols_nodup s)
  obtain ⟨hcoded, hcode⟩ := mem_entries.1 he
  exact ⟨(entries_codes_short (lengthsMatch_of_genCodes hg) e he).1, hcode ▸ genCodes_leafAt hg hcoded⟩

/-- A tree with an internal root and a leaf has a coded symbol, so its header is not empty (R131, R154). -/
theorem serialize_ne_nil {s : State} (hroot : (s.nodeAt s.root).kind = .internal) (hleaf : HasLeaf s.node s.root)
    (hg : genCodes s.node s.root = .ok ⟨s.codeLen, s.codeBits⟩) : s.serialize ≠ [] := by
  obtain ⟨p, i, hi, hn, hk⟩ := hleaf
  have hp : p ≠ [] := by
    rintro rfl
    cases hi
    exact absurd (hroot.symm.trans hk) (by decide)
  have hbits : s.codeBitsAt (arenaAt s.node i).sym ≠ [] := genCodes_code_ne_nil hg hp ⟨i, hi, hn, hk, rfl⟩
  have hcoded : s.codeLenAt (arenaAt s.node i).sym ≠ 0#8 := fun hz =>
    hbits (List.eq_nil_of_length_eq_zero (by rw [lengthsMatch_of_genCodes hg, hz]; rfl))
  intro hnil
  have hmem : ((arenaAt s.node i).sym, s.codeBitsAt (arenaAt s.node i).sym) ∈ s.entries := mem_entries.2 ⟨hcoded, rfl⟩
  rw [serialize_eq_entries (lengthsMatch_of_genCodes hg), List.flatMap_eq_nil_iff] at hnil
  exact absurd (hnil _ hmem) (by simp [entryBytes])

/-! ### HC_SER, then HC_LOAD (R151, R157, R160) -/

/-- HC_SER that answers RSP_CODE 0 ran outside FAULT and a session, on a valid code table whose serialization it stored (R72, R151). -/
theorem exec_hcSer_done {s t : State} (h : exec .hcSer s = .next t) (h0 : t.rspCode = 0x00#8) :
    s.err = 0x00#8 ∧ s.bpState = .idle ∧ s.codeValid = true ∧ s.serialize.length ≤ Config.hdrMax ∧
      ∃ d, t = (s.withHeader s.serialize).respond d := by
  have herr : s.err = 0x00#8 := by
    by_contra hne
    rw [exec_eq (i := .hcSer) nofun, inFault_eq_true hne] at h
    cases h
    exact absurd h0 (by decide : rspIgnored ≠ 0x00#8)
  obtain ⟨d, u, hr, rfl⟩ := exec_done (i := .hcSer) nofun h h0
  have hpost := hcSerRule_post s
  rw [show hcSerRule s = .ok d u from hr] at hpost
  obtain ⟨hidle, hv, hl, rfl⟩ := hpost
  exact ⟨herr, hidle, hv, hl, d, rfl⟩

/-- The header file after HC_SER: the length prefix and the serialization (R57, R59, R151). -/
theorem withHeader_hdrFile {s : State} {h : List Byte} (hl : h.length ≤ Config.hdrMax) :
    (s.withHeader h).hdrFile = le32 (BitVec.ofNat 32 h.length) ++ h := by
  have hlen : (s.withHeader h).hdrLen.setWidth 32 = BitVec.ofNat 32 h.length := by
    have hmax : h.length ≤ 65535 := hl
    apply BitVec.eq_of_toNat_eq
    rw [withHeader_hdrLen, BitVec.toNat_setWidth, BitVec.toNat_ofNat, BitVec.toNat_ofNat]
    omega
  rw [State.hdrFile, hlen, withHeader_bytes hl]

/-- Settles O37: the header holds the serialization, which parses into the entries (parseEntries_serialize); these reconstruct because
each code is a path of the unshared tree (reconstruct_entries), and their code table is the one before (codesOf_entries). -/
theorem headerRoundTrip : Obligations.HeaderRoundTrip := by
  unfold Obligations.HeaderRoundTrip
  intro s t rest hcodes hstages hrooted hunshared hleaf hser hdone hreads
  obtain ⟨herr, hidle, hv, hl, d, rfl⟩ := exec_hcSer_done hser hdone
  obtain ⟨-, htree, -⟩ := hstages
  have hg := hcodes hv
  have hmatch := lengthsMatch_of_genCodes hg
  obtain ⟨-, hroot, -⟩ := hrooted (htree hv)
  obtain ⟨arena, cnt, hr⟩ := reconstruct_entries (hunshared (htree hv)) hg
  have hfile := (hdrFile_eq ((s.withHeader s.serialize).respond d)).symm.trans (withHeader_hdrFile hl)
  have hpos := List.length_pos_of_ne_nil (serialize_ne_nil hroot (hleaf (htree hv)) hg)
  have hmax : s.serialize.length ≤ 65535 := hl
  rw [hfile]
  refine ⟨_, exec_hcLoad (rest := rest) herr hidle (fun j _ => ?_) ?_ rfl hpos hl (parseEntries_serialize hmatch) hr, rfl,
    codesOf_entries hmatch⟩
  · exact hreads ▸ List.not_mem_nil
  · show 0 + 4 + s.serialize.length < 2 ^ 64
    omega

end Sys2Proof.Machine
end

section
/-! Which commands move BP_STATE and the valid flags (R179, R275), and the frames of the bit packer's commands (R173 to R178). -/

namespace Sys2Proof.Machine

/-- A command but SRESET makes one of its rule's effects, and the answer writes only the response, ERR and ERR_CMD (R72, R73, R241). -/
theorem exec_effect {i : Instr} (hi : i ≠ .sreset) {s t : State} (h : exec i s = .next t) :
    ∃ u, Effect i s u ∧ t = { u with rspCode := t.rspCode, rspData := t.rspData, err := t.err, errCmd := t.errCmd } := by
  obtain ⟨u, rfl | ⟨-, hu⟩ | hu, ht⟩ := exec_ends hi (ruleOf_effect i s) h
  · exact ⟨u, .none, ht⟩
  · exact ⟨u, hu, ht⟩
  · exact ⟨u, hu, ht⟩

/-! ### BP_STATE (R179) -/

theorem Effect.bpState_moves {i : Instr} {s t : State} (h : Effect i s t) (hne : t.bpState ≠ s.bpState) :
    (i = .bpOpen ∧ s.bpState = .idle ∧ t.bpState = .opened) ∨ (i = .bpHdr ∧ s.bpState = .opened ∧ t.bpState = .hdrDone) ∨
      (i = .bpClose ∧ t.bpState = .idle) := by
  cases h with
  | openSession hi hidle => exact .inl ⟨hi, hidle, rfl⟩
  | writeHeader hi ho hv => exact .inr (.inl ⟨hi, ho, rfl⟩)
  | close hi t ho ht => exact .inr (.inr ⟨hi, by rcases ht with rfl | rfl <;> rfl⟩)
  | load hi u hu =>
    have hkept : u.bpState = s.bpState := by rw [hu.1]
    exact absurd hkept hne
  | read hi t ht => exact absurd (by rw [ht.1]) hne
  | push hi t hd ht => exact absurd (by rw [ht]) hne
  | walk hi t ht => exact absurd (by rw [ht]) hne
  | _ => exact absurd rfl hne

theorem exec_bpState_moves {i : Instr} {s t : State} (h : exec i s = .next t) (hne : t.bpState ≠ s.bpState) :
    (i = .bpOpen ∧ s.bpState = .idle ∧ t.bpState = .opened) ∨ (i = .bpHdr ∧ s.bpState = .opened ∧ t.bpState = .hdrDone) ∨
      (i = .bpClose ∧ t.bpState = .idle) ∨ (i = .sreset ∧ t.bpState = .idle) := by
  by_cases hi : i = .sreset
  · subst hi
    cases h
    exact .inr (.inr (.inr ⟨rfl, rfl⟩))
  · obtain ⟨u, hu, ht⟩ := exec_effect hi h
    rw [ht] at hne ⊢
    exact (hu.bpState_moves hne).imp_right fun hm => hm.imp_right .inl

/-! ### The valid flags (R275) -/

/-- TREE_VALID, CODE_VALID and HDR_VALID are x, y and z. -/
def State.FlagsAre (s : State) (x y z : Bool) : Prop := s.treeValid = x ∧ s.codeValid = y ∧ s.hdrValid = z

/-- R275's table of the valid flags without SRESET: the command i leaves t with the flags of s, or sets and clears them as its row says. -/
def FlagRow (i : Instr) (s t : State) : Prop :=
  t.FlagsAre s.treeValid s.codeValid s.hdrValid ∨ (i = .tbBuild ∧ t.FlagsAre true false false) ∨
    (i = .cgGen ∧ t.FlagsAre s.treeValid true false) ∨ (i = .hcSer ∧ t.FlagsAre s.treeValid s.codeValid true) ∨
    (i = .hcLoad ∧ t.FlagsAre true true false)

theorem Effect.flagRow {i : Instr} {s t : State} (h : Effect i s t) : FlagRow i s t := by
  cases h with
  | build hi b => exact .inr (.inl ⟨hi, rfl, rfl, rfl⟩)
  | generate hi c => exact .inr (.inr (.inl ⟨hi, rfl, rfl, rfl⟩))
  | serialize hi => exact .inr (.inr (.inr (.inl ⟨hi, rfl, rfl, rfl⟩)))
  | load hi u => exact .inr (.inr (.inr (.inr ⟨hi, rfl, rfl, rfl⟩)))
  | read hi t ht => rw [ht.1]; exact .inl ⟨rfl, rfl, rfl⟩
  | push hi t hd ht => rw [ht]; exact .inl ⟨rfl, rfl, rfl⟩
  | close hi t ho ht => rcases ht with rfl | rfl <;> exact .inl ⟨rfl, rfl, rfl⟩
  | walk hi t ht => rw [ht]; exact .inl ⟨rfl, rfl, rfl⟩
  | _ => exact .inl ⟨rfl, rfl, rfl⟩

theorem exec_flagRow {i : Instr} {s t : State} (h : exec i s = .next t) :
    (i = .sreset ∧ t.FlagsAre false false false) ∨ FlagRow i s t := by
  by_cases hi : i = .sreset
  · subst hi
    cases h
    exact .inl ⟨rfl, rfl, rfl, rfl⟩
  · obtain ⟨u, hu, ht⟩ := exec_effect hi h
    rw [ht]
    exact .inr hu.flagRow

/-- Settles O46: BP_STATE moves by three effects and SRESET's, the valid flags by the rows of R275. -/
theorem sessionAndFlagMoves : Obligations.SessionAndFlagMoves := by
  unfold Obligations.SessionAndFlagMoves
  intro i s t h
  refine ⟨exec_bpState_moves h, ?_⟩
  rcases exec_flagRow h with ⟨rfl, htree, hcode, hhdr⟩ | ⟨htree, hcode, hhdr⟩ | ⟨rfl, htree, hcode, hhdr⟩ | ⟨rfl, htree, hcode, hhdr⟩ |
    ⟨rfl, htree, hcode, hhdr⟩ | ⟨rfl, htree, hcode, hhdr⟩ <;>
  simp [htree, hcode, hhdr]

/-! ### The frames of the bit packer's commands (R173 to R178) -/

/-- A payload command writes nothing but BB, BB_N, OUT, the response, ERR and ERR_CMD (R175 to R177). -/
theorem exec_payload_frame {i : Instr} (hi : isPayload i = true) {s t : State} (h : exec i s = .next t) :
    t = { s with bb := t.bb, bbN := t.bbN, out := t.out, rspCode := t.rspCode, rspData := t.rspData, err := t.err,
                 errCmd := t.errCmd } := by
  have hne : i ≠ .sreset := by rintro rfl; cases hi
  obtain ⟨u, rfl | ⟨-, hu, -⟩ | ⟨hu, -⟩, ht⟩ := exec_ends hne (ruleOf_payload_frame hi s) h
  · rw [ht]
  all_goals rw [ht, hu]

/-- Settles O51: the payload commands push bits only, and each of the other three answers from the state it was given or from one that
holds the update of its rule. -/
theorem packerFrames : Obligations.PackerFrames := by
  unfold Obligations.PackerFrames
  intro i s t hi h
  have hcases : isPayload i = true ∨ i = .bpOpen ∨ i = .bpHdr ∨ i = .bpClose := by
    rcases hi with hi | ⟨n, v, rfl⟩ | ⟨sym, rfl⟩
    · simp only [List.mem_cons, List.not_mem_nil, or_false] at hi
      rcases hi with rfl | rfl | rfl | rfl <;> simp [isPayload]
    · exact .inl rfl
    · exact .inl rfl
  rcases hcases with hp | rfl | rfl | rfl
  · have hopen : i ≠ .bpOpen := by rintro rfl; cases hp
    have hhdr : i ≠ .bpHdr := by rintro rfl; cases hp
    rw [exec_payload_frame hp h]
    exact ⟨rfl, fun _ => rfl, fun heq => absurd heq hopen, fun heq => absurd heq hhdr, fun _ => rfl⟩
  · obtain ⟨u, rfl | ⟨d, -, rfl⟩ | rfl, ht⟩ := exec_ends (i := .bpOpen) nofun (bpOpenRule_post s) h
    all_goals
      rw [ht]
      exact ⟨rfl, fun hn => absurd (by decide) hn, fun _ => rfl, nofun, fun _ => rfl⟩
  · obtain ⟨u, rfl | ⟨d, -, -, rfl⟩ | ⟨k, rfl⟩, ht⟩ := exec_ends (i := .bpHdr) nofun (bpHdrRule_post s) h
    all_goals
      rw [ht]
      exact ⟨rfl, fun hn => absurd (by decide) hn, nofun, fun _ => ⟨rfl, rfl⟩, fun _ => rfl⟩
  · obtain ⟨u, rfl | ⟨-, ⟨-, rfl⟩ | ⟨-, rfl | rfl⟩⟩ | ⟨-, rfl⟩ | ⟨-, rfl | rfl⟩, ht⟩ :=
      exec_ends (i := .bpClose) nofun (bpCloseRule_all s) h
    all_goals
      rw [ht]
      exact ⟨rfl, fun hn => absurd (by decide) hn, nofun, nofun, fun _ => rfl⟩

end Sys2Proof.Machine
end

section
/-! A payload decodes to its symbols (45_bit_reader_decoder.md R190, R196): each code is a path from the root to its symbol's leaf, so the
walker is back at the root after each. -/

namespace Sys2Proof.Machine

/-- A nonempty code of the generated table is a path to a leaf of its symbol (R130). -/
theorem genCodes_leafAt_of_bits {arena : Table Node} {root : NodeIx} {c : CodeTable} (h : genCodes arena root = .ok c) {sym : Byte}
    (hc : Table.get [] c.bits sym.toNat ≠ []) : LeafAt arena root (Table.get [] c.bits sym.toNat) sym := by
  refine genCodes_leafAt h fun hlen => hc ?_
  rw [← List.length_eq_zero_iff, genCodes_lengths h, hlen]
  rfl

theorem walkAt_of_atRoot {s : State} (h : s.wState = .atRoot) : s.walkAt = s.root := if_pos h

theorem walkerHome_of_atRoot {s : State} (h : s.wState = .atRoot) (hcur : s.wCur = Config.nil) : s.walkerHome = s := by
  rw [State.walkerHome, ← h, ← hcur]

theorem State.WritesOk.append {s : State} (h : s.WritesOk) (bytes : List Byte) : ({ s with out := s.out ++ bytes } : State).WritesOk :=
  fun n hn => (h n hn).trans_le (List.length_append ▸ Nat.le_add_right _ _)

/-- From the root, the code of a symbol but the terminator emits the symbol and leads back to the root (R190). -/
theorem walkBits_symbol {s : State} {p after : Bits} {sym : Byte} {k : Nat} (h : s.wState = .atRoot) (hcur : s.wCur = Config.nil)
    (hok : s.WritesOk) (hp : p ≠ []) (hleaf : LeafAt s.node s.root p sym) (hsym : sym ≠ Config.termByte) :
    walkBits (p ++ after) k s = walkBits after (k + 1) { s with out := s.out ++ [sym] } := by
  obtain ⟨j, hf, hj, hk, rfl⟩ := hleaf
  rw [← walkAt_of_atRoot h] at hf
  rw [walkBits_emit (by simp [h]) hp hf hj hk hsym fun hn => (hok _ hn).false, walkerHome_of_atRoot h hcur]
  rfl

/-- From the root, the codes of symbols, none of them the terminator, emit exactly the symbols (R190). -/
theorem walkBits_symbols {code : Byte → Bits} {xs : List Byte} {after : Bits} {k : Nat} {s : State} (h : s.wState = .atRoot)
    (hcur : s.wCur = Config.nil) (hok : s.WritesOk)
    (hcode : ∀ x ∈ xs, x ≠ Config.termByte ∧ code x ≠ [] ∧ LeafAt s.node s.root (code x) x) :
    walkBits (xs.flatMap code ++ after) k s = walkBits after (k + xs.length) { s with out := s.out ++ xs } := by
  induction xs generalizing k s with
  | nil => simp
  | cons x xs ih =>
    obtain ⟨hx, hne, hleaf⟩ := hcode x List.mem_cons_self
    rw [List.flatMap_cons, List.append_assoc, walkBits_symbol h hcur hok hne hleaf hx,
      ih (s := { s with out := s.out ++ [x] }) h hcur (hok.append [x]) fun y hy => hcode y (List.mem_cons_of_mem _ hy)]
    simp [Nat.add_assoc, Nat.add_comm 1]

/-- Settles O44: the codes are paths to leaves, so the symbols come out one after the other, and the terminator's path ends the walk. -/
theorem payloadDecodes : Obligations.PayloadDecodes := by
  unfold Obligations.PayloadDecodes
  intro s c xs after h hcur hok hg hxs hterm
  have hcode : ∀ x ∈ xs, x ≠ Config.termByte ∧ Table.get [] c.bits x.toNat ≠ [] ∧
      LeafAt s.node s.root (Table.get [] c.bits x.toNat) x := fun x hx =>
    ⟨(hxs x hx).1, (hxs x hx).2, genCodes_leafAt_of_bits hg (hxs x hx).2⟩
  obtain ⟨j, hf, hj, hk, hsym⟩ := genCodes_leafAt_of_bits hg (sym := Config.termByte) hterm
  rw [← walkAt_of_atRoot h] at hf
  rw [List.append_assoc, walkBits_symbols h hcur hok hcode, Nat.zero_add,
    walkBits_terminate (s := { s with out := s.out ++ xs }) (by simp [h]) hterm hf hj hk hsym, ← hcur]

end Sys2Proof.Machine
end

section
/-! DW_BIT, DEC_BYTE and DEC_END (45_bit_reader_decoder.md R190 to R195): one walk step by the kind of the child, and a byte's bits as
DW_BIT steps them. -/

namespace Sys2Proof.Machine

/-! ### One walk step (R190) -/

theorem walkStep_terminated {s : State} (h : s.wState = .terminated) (x : Bool) : walkStep x s = .ok none s := if_pos h

theorem walkStep_inner {s : State} (h : s.wState ≠ .terminated) (hn : s.walkAt ≠ Config.nil) (x : Bool) :
    walkStep x s = walkInto s.walkAt ((s.nodeAt s.walkAt).branch x) x s := (if_neg h).trans (if_neg hn)

theorem walkInto_internal {s : State} {c : NodeIx} (hc : c ≠ Config.nil) (hk : (s.nodeAt c).kind = .internal) (n : NodeIx) (x : Bool) :
    walkInto n c x s = .ok none { s with wCur := c, wState := .atInternal } := by
  simp only [walkInto, if_neg hc, hk]

theorem walkInto_terminator {s : State} {c : NodeIx} (hc : c ≠ Config.nil) (hk : (s.nodeAt c).kind = .leaf)
    (hsym : (s.nodeAt c).sym = Config.termByte) (n : NodeIx) (x : Bool) :
    walkInto n c x s = .ok none { s with wCur := Config.nil, wState := .terminated } := by
  simp only [walkInto, if_neg hc, hk, if_pos hsym]

/-- Into the leaf of another symbol: the walker is home before the symbol is written (R190). -/
theorem walkInto_symbol {s : State} {c : NodeIx} (hc : c ≠ Config.nil) (hk : (s.nodeAt c).kind = .leaf)
    (hsym : (s.nodeAt c).sym ≠ Config.termByte) (n : NodeIx) (x : Bool) :
    walkInto n c x s = (outWrite (s.nodeAt c).sym s.walkerHome).bind fun _ t => .ok (some (s.nodeAt c).sym) t := by
  simp only [walkInto, if_neg hc, hk, if_neg hsym]

theorem walkInto_badPath {s : State} {c : NodeIx}
    (h : c = Config.nil ∨ (s.nodeAt c).kind = .placeholder ∨ (s.nodeAt c).kind = .empty) (n : NodeIx) (x : Bool) :
    walkInto n c x s = .raise .streamBadPath (badPathInfo n x) s := by
  by_cases hc : c = Config.nil
  · exact if_pos hc
  · rcases h.resolve_left hc with hk | hk <;> simp only [walkInto, if_neg hc, hk]

/-! ### DW_BIT (R193) -/

/-- DW_BIT's data after a step that gave e and left t (R193). -/
def stepData (e : Option Byte) (t : State) : Word := (t.wState.bits.setWidth 32 <<< 9) ||| emitField e

/-- Bit 8 of DW_BIT's data says whether a symbol was emitted (R193). -/
theorem stepData_emitted (e : Option Byte) (t : State) : (stepData e t).getLsbD 8 = e.isSome := by
  cases e <;> simp [stepData, emitField]

theorem stepData_of_atInternal {t : State} (h : t.wState = .atInternal) : stepData none t = 0x200#32 := by
  rw [stepData, h]
  decide

theorem stepData_of_terminated {t : State} (h : t.wState = .terminated) : stepData none t = 0x400#32 := by
  rw [stepData, h]
  decide

theorem stepData_of_atRoot {t : State} (h : t.wState = .atRoot) (sym : Byte) : stepData (some sym) t = 0x100#32 ||| sym.setWidth 32 := by
  simp [stepData, h, WState.bits, emitField]

/-- Outside FAULT and sessions, on a valid tree, DW_BIT is its walk step and the answer (R193). -/
theorem exec_dwBit {s : State} (h0 : s.err = 0x00#8) (hidle : s.bpState = .idle) (htree : s.treeValid = true) (x : Bool) :
    exec (.dwBit x) s = finish (encode (.dwBit x)) ((walkStep x s).bind fun e t => .ok (stepData e t) t) := by
  rw [exec_run (i := .dwBit x) nofun h0, ruleOf, dwBitRule, if_neg (by simp [hidle]), if_neg (by simp [htree])]
  rfl

/-- Settles O42: DW_BIT answers the walk step into the child, whose kind decides it. -/
theorem dwBitResult : Obligations.DwBitResult := by
  unfold Obligations.DwBitResult
  intro s x n c h0 hidle htree hn hc
  obtain rfl : n = s.walkAt := hn
  obtain rfl : c = (s.nodeAt s.walkAt).branch x := hc
  rw [exec_dwBit h0 hidle htree]
  refine ⟨fun hw => ?_, fun hw hnil => ?_⟩
  · rw [walkStep_terminated hw, res_bind_ok, finish_ok, stepData_of_terminated hw]
    rfl
  rw [walkStep_inner hw hnil]
  refine ⟨fun hc hk => ?_, fun hc hk hsym => ?_, fun hc hk hsym hok => ?_, fun hc hk hsym hfail => ?_, fun hbad => ?_⟩
  · rw [walkInto_internal hc hk, res_bind_ok, finish_ok, stepData_of_atInternal rfl]
    rfl
  · rw [walkInto_terminator hc hk hsym, res_bind_ok, finish_ok, stepData_of_terminated rfl]
    rfl
  · rw [walkInto_symbol hc hk hsym, outWrite_done (s := s.walkerHome) hok, res_bind_ok, res_bind_ok, finish_ok, stepData_of_atRoot rfl]
    rfl
  · rw [walkInto_symbol hc hk hsym, outWrite_fail (s := s.walkerHome) hfail]
    rfl
  · rw [walkInto_badPath hbad]
    rfl

/-! ### The bits of a byte (R192, R194) -/

theorem walkBits_terminated {s : State} (h : s.wState = .terminated) (x : Bool) (xs : Bits) (k : Nat) :
    walkBits (x :: xs) k s = .ok k s := if_pos h

theorem walkBits_cons {s : State} (h : s.wState ≠ .terminated) (x : Bool) (xs : Bits) (k : Nat) :
    walkBits (x :: xs) k s = (walkStep x s).bind fun e t => walkBits xs (if e.isSome then k + 1 else k) t := if_neg h

/-- The walk step behind an answer of DW_BIT: the step's state is the answer's with the response, ERR and ERR_CMD as they were (R190,
R193). -/
theorem walkStep_of_exec {x : Bool} {s t : State} (h0 : s.err = 0x00#8) (hidle : s.bpState = .idle) (htree : s.treeValid = true)
    (h : exec (.dwBit x) s = .next t) :
    (∃ e u, walkStep x s = .ok e u ∧ t.rspCode = 0x00#8 ∧ t.rspData = stepData e u ∧
      { t with rspCode := s.rspCode, rspData := s.rspData } = u) ∨
    ∃ e u, walkStep x s = .raise e t.rspData u ∧ t.rspCode = e.code ∧
      { t with rspCode := s.rspCode, rspData := s.rspData, err := s.err, errCmd := s.errCmd } = u := by
  rw [exec_dwBit h0 hidle htree] at h
  have hframe := walkStep_frame x s
  cases hr : walkStep x s with
  | ok e u =>
    rw [hr] at h hframe
    cases h
    obtain ⟨hu, -⟩ := hframe
    refine .inl ⟨e, u, rfl, rfl, rfl, ?_⟩
    rw [hu]
    rfl
  | raise e info u =>
    rw [hr] at h hframe
    cases h
    obtain ⟨hu, -⟩ := hframe
    refine .inr ⟨e, u, by rw [raise_rspData], raise_rspCode .., ?_⟩
    rw [raise_eq, hu]
  | stop f =>
    rw [hr] at h
    cases h

/-- The first bit of a walk does what DW_BIT of it does (R190, R194). -/
theorem walkBits_cons_of_exec {x : Bool} {s t : State} (h0 : s.err = 0x00#8) (hidle : s.bpState = .idle) (htree : s.treeValid = true)
    (hw : s.wState ≠ .terminated) (h : exec (.dwBit x) s = .next t) (xs : Bits) (k : Nat) :
    (t.rspCode = 0x00#8 → walkBits (x :: xs) k s =
      walkBits xs (if t.rspData.getLsbD 8 then k + 1 else k) { t with rspCode := s.rspCode, rspData := s.rspData }) ∧
    (t.rspCode ≠ 0x00#8 → ∃ e, e.code = t.rspCode ∧ walkBits (x :: xs) k s =
      .raise e t.rspData { t with rspCode := s.rspCode, rspData := s.rspData, err := s.err, errCmd := s.errCmd }) := by
  rw [walkBits_cons hw]
  obtain ⟨e, u, hstep, hcode, hdata, hu⟩ | ⟨e, u, hstep, hcode, hu⟩ := walkStep_of_exec h0 hidle htree h
  · refine ⟨fun _ => ?_, fun hne => absurd hcode hne⟩
    rw [hstep, hu, hdata, stepData_emitted, res_bind_ok]
  · refine ⟨fun hok => absurd (hcode.symm.trans hok) (errCode_range e).1, fun _ => ⟨e, hcode.symm, ?_⟩⟩
    rw [hstep, hu, res_bind_raise]

/-! ### DEC_BYTE and DEC_END (R194, R195) -/

/-- What DEC_BYTE does with the answer of its read: the end of input, or a byte whose bits it walks (R194). -/
def decodeRead : Option Byte → State → Res Word
  | none, s => .ok (s.wField ||| 0x100#32) s
  | some b, s => (walkBits (bitsMsb b) 0 s).bind fun k t => .ok (t.wField ||| (BitVec.ofNat 32 k <<< 9) ||| b.setWidth 32) t

/-- Past its checks, before TERMINATED, DEC_BYTE is its read and the walk (R194). -/
theorem exec_decByte {s : State} (h0 : s.err = 0x00#8) (hidle : s.bpState = .idle) (htree : s.treeValid = true)
    (hw : s.wState ≠ .terminated) : exec .decByte s = finish (encode .decByte) ((inRead s).bind decodeRead) := by
  rw [exec_run (i := .decByte) nofun h0, ruleOf, decByteRule, if_neg (by simp [hidle]), if_neg (by simp [htree]), if_neg hw]
  congr 2
  funext b t
  cases b <;> rfl

theorem exec_decByte_terminated {s : State} (h0 : s.err = 0x00#8) (hidle : s.bpState = .idle) (htree : s.treeValid = true)
    (hw : s.wState = .terminated) : exec .decByte s = .next (s.respond 0x4000#32) := by
  refine exec_of_ok (i := .decByte) nofun h0 ?_
  rw [ruleOf, decByteRule, if_neg (by simp [hidle]), if_neg (by simp [htree]), if_pos hw, State.wField, hw]
  rfl

/-- Settles O43: DEC_BYTE is its read and the walk of the byte's bits, each of them DW_BIT's step. -/
theorem decodingCommands : Obligations.DecodingCommands := by
  unfold Obligations.DecodingCommands
  refine ⟨fun s h0 hidle htree => ⟨fun hw => ?_, fun hw hend => ?_, fun hw hlt hfail => ?_, fun b k t hw hb hread hlt hwalk => ?_,
      fun b e info t hw hb hread hlt hwalk => ?_⟩, fun k s => rfl, fun x xs k s hw => walkBits_terminated hw x xs k,
    fun x xs k s t h0 hidle htree hw h => walkBits_cons_of_exec h0 hidle htree hw h xs k, fun s h0 htree hw => ?_⟩
  · exact exec_decByte_terminated h0 hidle htree hw
  · rw [exec_decByte h0 hidle htree hw, inRead_eof hend]
    rfl
  · rw [exec_decByte h0 hidle htree hw, inRead_fail hlt hfail]
    rfl
  · rw [exec_decByte h0 hidle htree hw, inRead_byte hb hread hlt, res_bind_ok, decodeRead, bitsMsb, hwalk]
    rfl
  · rw [exec_decByte h0 hidle htree hw, inRead_byte hb hread hlt, res_bind_ok, decodeRead, bitsMsb, hwalk]
    rfl
  · exact exec_of_ok (i := .decEnd) nofun h0 ((if_neg (by simp [htree])).trans (if_neg (by simp [hw])))

end Sys2Proof.Machine
end

section
/-! The frames of the read-back commands and DEC_END (R195, R253), and of the bit reader's and walker's commands (R191 to R194). -/

namespace Sys2Proof.Machine

/-- Settles O49: the rule of a command that only reads ends in the state it was given. -/
theorem readBackFrame : Obligations.ReadBackFrame := by
  unfold Obligations.ReadBackFrame
  intro i s t hi h
  have hread : isReadBack i = true := by
    rcases hi with hi | ⟨sym, rfl | rfl⟩ | ⟨idx, rfl⟩ | ⟨half, idx, rfl⟩ | ⟨w, sym, rfl⟩ | ⟨idx, rfl⟩
    · simp only [List.mem_cons, List.not_mem_nil, or_false] at hi
      rcases hi with rfl | rfl | rfl | rfl | rfl | rfl <;> rfl
    all_goals rfl
  have hne : i ≠ .sreset := by rintro rfl; cases hread
  obtain ⟨u, rfl | ⟨-, rfl⟩ | rfl, ht⟩ := exec_ends hne (ruleOf_reads hread s) h
  all_goals
    rw [ht]
    exact ⟨rfl, fun _ => rfl⟩

/-- Settles O52: what a walking command's rule writes, and the answer after it. -/
theorem walkerFrames : Obligations.WalkerFrames := by
  unfold Obligations.WalkerFrames
  intro i s t hi h
  have hne : i ≠ .sreset := by rintro rfl; simp at hi
  obtain ⟨u, rfl | ⟨-, hu, -, -, -, hext, hbit⟩ | ⟨hu, -, -, -, hext, hbit⟩, ht⟩ := exec_ends hne (ruleOf_walk_frame hi s) h
  · rw [ht]
    exact ⟨rfl, fun _ => ⟨rfl, rfl, rfl⟩, fun _ => rfl, fun _ => rfl⟩
  all_goals
    refine ⟨by rw [ht, hu], fun heq => ?_, fun hx => ?_, fun a => by rw [ht, hu]; rfl⟩
    · rw [ht, hext heq]
      exact ⟨rfl, rfl, rfl⟩
    · rw [ht]
      exact hbit hx

end Sys2Proof.Machine
end

section
/-! The host's error path (R221): STATUS tells whether a session is open, and BP_CLOSE, accepted in FAULT, releases it. -/

namespace Sys2Proof.Machine

/-- IDLE is the only session state that STATUS shows as 0 (R29, R34). -/
theorem bpState_bits_eq_zero_iff (b : BpState) : b.bits = 0#2 ↔ b = .idle := by
  cases b <;> decide

/-- RD_STAT responds STATUS, in FAULT too (R211). -/
theorem exec_rdStat (s : State) : exec .rdStat s = .next (s.respond s.status) := rfl

/-- With no session open the error path is RD_STAT alone (R221). -/
theorem errorPath_idle {s : State} (hidle : s.bpState = .idle) : errorPath s = .failure (s.respond s.status) := by
  obtain ⟨-, hbits, -⟩ := status_fields s
  have hshown : (s.respond s.status).rspData.extractLsb' 12 2 = 0#2 := hbits.trans ((bpState_bits_eq_zero_iff _).2 hidle)
  rw [errorPath, issue_eq_exec rfl, exec_rdStat]
  exact if_pos hshown

/-- With a session open the error path ends where BP_CLOSE does (R221). -/
theorem errorPath_open {s t : State} (ho : s.bpState ≠ .idle) (hclose : exec .bpClose (s.respond s.status) = .next t) :
    errorPath s = .failure t := by
  obtain ⟨-, hbits, -⟩ := status_fields s
  have hshown : (s.respond s.status).rspData.extractLsb' 12 2 ≠ 0#2 := fun hzero =>
    ho ((bpState_bits_eq_zero_iff _).1 (hbits.symm.trans hzero))
  simp only [errorPath, issue_eq_exec (i := .rdStat) rfl, exec_rdStat, if_neg hshown, issue_eq_exec (i := .bpClose) rfl, hclose]

/-- Settles O48: with a session open BP_CLOSE releases it and, as in FAULT, keeps ERR and ERR_CMD; without one RD_STAT changes neither. -/
theorem errorPathReleases : Obligations.ErrorPathReleases := by
  unfold Obligations.ErrorPathReleases
  intro s hfault
  by_cases hidle : s.bpState = .idle
  · exact ⟨_, errorPath_idle hidle, hidle, rfl, rfl⟩
  · obtain ⟨t, hclose, hreleased, -⟩ := exec_bpClose_released (s := s.respond s.status) hidle
    obtain ⟨herr, hcmd⟩ := faultIsSticky .bpClose (s.respond s.status) t nofun hfault hclose
    exact ⟨t, errorPath_open hidle hclose, hreleased, herr, hcmd⟩

end Sys2Proof.Machine
end

section
/-! Raising an error, the freeze in FAULT, the sequencing errors (60_exceptions.md R240 to R247, 70_reset_and_hazards.md R274), and the
reset state (R270). -/

namespace Sys2Proof.Machine

/-! ### Raising and FAULT (R241, R242) -/

/-- Settles O9: `raise` is a choice on ERR = 0. -/
theorem raiseCapturesFirst : Obligations.RaiseCapturesFirst := by
  unfold Obligations.RaiseCapturesFirst
  exact ⟨by decide, fun s e info w => ⟨fun h0 => if_pos h0, fun hne => if_neg hne⟩⟩

/-- A command that FAULT does not keep from its rule, other than BP_CLOSE, has a rule that writes nothing (R72, log 16). -/
theorem ruleOf_ungated {i : Instr} (hg : isGated i = false) (hclose : i ≠ .bpClose) (s : State) : (ruleOf i s).All (· = s) := by
  have hcases : i = .rdStat ∨ i = .rdErrCmd ∨ i.wellFormed = false := by
    simpa only [isGated, Bool.and_eq_false_iff, bne_eq_false_iff_eq, hclose, or_false, or_assoc] using hg
  rcases hcases with rfl | rfl | hwf
  · rfl
  · rfl
  · cases i with
    | bpIns n v =>
      rw [ruleOf, if_neg (by simp [hwf])]
      rfl
    | _ => cases hwf

/-- In FAULT a command but SRESET and BP_CLOSE answers from the state it was given: it is ignored, or its rule writes nothing (R242). -/
theorem exec_fault_frame {i : Instr} (hi : i ≠ .sreset) (hclose : i ≠ .bpClose) {s t : State} (hf : s.err ≠ 0x00#8)
    (h : exec i s = .next t) : t = { s with rspCode := t.rspCode, rspData := t.rspData } := by
  obtain ⟨herr, hcmd⟩ := faultIsSticky i s t hi hf h
  cases hg : isGated i with
  | true =>
    rw [exec_eq hi, hg, inFault_eq_true hf] at h
    cases h
    rfl
  | false =>
    obtain ⟨u, rfl | ⟨-, rfl⟩ | rfl, ht⟩ := exec_ends hi (ruleOf_ungated hg hclose s) h
    all_goals rwa [herr, hcmd] at ht

/-- In FAULT BP_CLOSE writes nothing but the response, the session and OUT (R178, R242). -/
theorem exec_bpClose_fault_frame {s t : State} (hf : s.err ≠ 0x00#8) (h : exec .bpClose s = .next t) :
    t = { s with rspCode := t.rspCode, rspData := t.rspData, bpState := t.bpState, bb := t.bb, bbN := t.bbN, out := t.out } := by
  obtain ⟨herr, hcmd⟩ := faultIsSticky .bpClose s t nofun hf h
  obtain ⟨u, hu, ht⟩ := exec_ends (i := .bpClose) nofun (bpCloseRule_all s) h
  have hframe : u = { s with bpState := u.bpState, bb := u.bb, bbN := u.bbN, out := u.out } := by
    rcases hu with rfl | ⟨-, ⟨-, rfl⟩ | ⟨-, rfl | rfl⟩⟩ | ⟨-, rfl⟩ | ⟨-, rfl | rfl⟩ <;> rfl
  rw [herr, hcmd] at ht
  rw [ht, hframe]

/-- Settles O12: the frame of BP_CLOSE in FAULT, and that of every other command. -/
theorem faultFreezesBlock : Obligations.FaultFreezesBlock := by
  unfold Obligations.FaultFreezesBlock
  intro i s t hi hf h
  by_cases hclose : i = .bpClose
  · subst hclose
    exact ⟨fun hne => absurd rfl hne, exec_bpClose_fault_frame hf h⟩
  · have hframe := exec_fault_frame hi hclose hf h
    exact ⟨fun _ => hframe, by rw [hframe]⟩

/-! ### The sequencing errors (R274) -/

/-- Outside FAULT a command whose rule raises an error answers with it; SRESET's rule raises none (R210, R241). -/
theorem exec_of_rule_raise {i : Instr} {s u : State} {e : ErrCode} {info : Word} (h0 : s.err = 0x00#8)
    (hr : ruleOf i s = .raise e info u) : exec i s = .next (u.raise e info (encode i)) :=
  exec_of_raise (by rintro rfl; cases hr) h0 hr

/-- The first check of the commands that need IDLE (R274). -/
theorem ruleOf_notIdle {i : Instr}
    (hi : i ∈ [Instr.tbBuild, .cgGen, .hcSer, .hcLoad, .bpOpen, .dwBit false, .dwBit true, .decByte]) {s : State}
    (hne : s.bpState ≠ .idle) : ruleOf i s = .raise .seq s.bpInfo s := by
  simp only [List.mem_cons, List.not_mem_nil, or_false] at hi
  rcases hi with rfl | rfl | rfl | rfl | rfl | rfl | rfl | rfl <;> exact if_pos hne

/-- The second check of the commands that need IDLE and a tree (R274). -/
theorem ruleOf_noTree {i : Instr} (hi : i ∈ [Instr.cgGen, .dwBit false, .dwBit true, .decByte]) {s : State}
    (hidle : s.bpState = .idle) (htree : s.treeValid = false) : ruleOf i s = .raise .seq noTreeInfo s := by
  simp only [List.mem_cons, List.not_mem_nil, or_false] at hi
  rcases hi with rfl | rfl | rfl | rfl <;> exact (if_neg (not_not_intro hidle)).trans (if_pos htree)

/-- The first check of the payload commands, which need HDR_DONE (R274). -/
theorem ruleOf_payload_notHdrDone {i : Instr} (hwf : i.wellFormed = true)
    (hi : (∃ n v, i = .bpIns n v) ∨ (∃ sym, i = .encSym sym) ∨ i = .encTerm) {s : State} (hne : s.bpState ≠ .hdrDone) :
    ruleOf i s = .raise .seq s.bpInfo s := by
  rcases hi with ⟨n, v, rfl⟩ | ⟨sym, rfl⟩ | rfl
  · exact (if_pos hwf).trans (if_pos hne)
  · exact if_pos hne
  · exact if_pos hne

/-- The second check of the commands that push a symbol's code, which need a code table (R274). -/
theorem ruleOf_encode_noCodes {i : Instr} (hi : (∃ sym, i = .encSym sym) ∨ i = .encTerm) {s : State} (hdone : s.bpState = .hdrDone)
    (hcodes : s.codeValid = false) : ruleOf i s = .raise .seq noCodesInfo s := by
  rcases hi with ⟨sym, rfl⟩ | rfl <;> exact (if_neg (not_not_intro hdone)).trans (if_pos hcodes)

/-- Settles O13: each row of R274's table is the first check that fails in the command's rule; BP_CLOSE runs its rule in FAULT too. -/
theorem sequenceErrors : Obligations.SequenceErrors := by
  unfold Obligations.SequenceErrors
  refine ⟨⟨rfl, rfl, rfl⟩, fun s => ⟨fun h0 hne i hi => ?_, fun h0 hidle htree i hi => ?_, fun h0 htree => ?_, fun h0 hidle hcodes => ?_,
    fun h0 hne i hwf hi => ?_, fun h0 hdone hcodes i hi => ?_, fun h0 hne => ?_, fun h0 hopen hhdr => ?_, fun hidle => ?_⟩⟩
  · exact exec_of_rule_raise h0 (ruleOf_notIdle hi hne)
  · exact exec_of_rule_raise h0 (ruleOf_noTree hi hidle htree)
  · exact exec_of_rule_raise (i := .decEnd) h0 (if_pos htree)
  · exact exec_of_rule_raise (i := .hcSer) h0 ((if_neg (not_not_intro hidle)).trans (if_pos hcodes))
  · exact exec_of_rule_raise h0 (ruleOf_payload_notHdrDone hwf hi hne)
  · exact exec_of_rule_raise h0 (ruleOf_encode_noCodes hi hdone hcodes)
  · exact exec_of_rule_raise (i := .bpHdr) h0 (if_pos hne)
  · exact exec_of_rule_raise (i := .bpHdr) h0 ((if_neg (not_not_intro hopen)).trans (if_pos hhdr))
  · rw [exec_bpClose, bpCloseRule, if_pos hidle, finish_raise]

/-! ### The reset state (R270) -/

/-- The reset state is the block reset over unbound streams (R270, R271; log 3). -/
theorem resetBlock_reset : State.reset.resetBlock = State.reset := rfl

/-- Settles O15: FREQ is the cleared table, and every other table is empty, so that it reads as its reset value. -/
theorem resetStateValues : Obligations.ResetStateValues := by
  unfold Obligations.ResetStateValues
  refine ⟨fun sym => resetBlock_freqAt State.reset sym, fun _ => rfl, rfl, rfl, rfl, fun _ => ⟨rfl, rfl⟩, rfl, fun _ => rfl, rfl, rfl, rfl,
    rfl, rfl, rfl, rfl, rfl, rfl, rfl, rfl, rfl, ?_⟩
  decide

/-- Settles O53: the invariants that speak of a valid tree, code table or header hold because none is valid; the others are read off the
reset state, as for the reset input. -/
theorem resetMeetsInvariants : Obligations.ResetMeetsInvariants := by
  unfold Obligations.ResetMeetsInvariants
  obtain ⟨hcount, hshape, hroot, hwalk⟩ := resetBlock_treeSound State.reset
  rw [resetBlock_reset] at hcount hshape hroot hwalk
  have hpacker : State.reset.PackerConsistent := ⟨rfl, fun _ => rfl⟩
  have hstages : State.reset.StagesOrdered := ⟨nofun, nofun, fun _ => rfl⟩
  have herrors : State.reset.ErrorsLegal := ⟨fun _ => rfl, Nat.zero_le _⟩
  exact ⟨resetBlock_canonical State.reset, freqCleared_terminator, hpacker, fun _ => rfl, hstages, nofun, hwalk, herrors, hcount, hshape,
    hroot, nofun, nofun, nofun, nofun, nofun, nofun, Nat.zero_le _⟩

end Sys2Proof.Machine
end
